-- ==== Sys2Proof/Word.lean ====
section
/-! DEFINITION. The word types of the block and the closed name sets its encodings stand for: register names
(R21), sinks (R34), commands (R74, R75) and STATUS error causes (R181). -/

namespace Sys2Proof

/-- A 32-bit register, coordinate, address or colour word (R8). -/
abbrev Word := BitVec 32

/-- One byte: a glyph row (R33) or a framebuffer byte (R53). -/
abbrev Byte := BitVec 8

/-- A host transaction in the packed 42-bit form of R71. -/
abbrev HT := BitVec 42

/-- The three sinks a DRAW command can feed (R34, field `L.SINK`). -/
inductive Sink where
  | cb
  | mono
  | rgb565
deriving DecidableEq, Repr

/-- A legal command (R74, R75). `draw sink g`: `g` is the G bit, true when GLYPH0..7 are used as they stand. -/
inductive Command where
  | nop
  | lookup
  | draw (sink : Sink) (g : Bool)
deriving DecidableEq, Repr

/-- The named registers of the 128-byte window (R21, R83). -/
inductive Reg where
  | caps
  | ctrl
  | status
  | cmd
  | code
  | orgX
  | orgY
  | color
  | tag
  | fbBase
  | fbW
  | fbH
  | emitCount
  | glyph (r : Fin 8)
deriving DecidableEq, Repr

/-- The error causes that STATUS records (R181). -/
inductive ErrCause where
  | cmd
  | busy
  | align
deriving DecidableEq, Repr

end Sys2Proof
end

