-- ==== Sys2Proof/Config.lean ====
section
/-! DEFINITION. The fixed constants of R7 and CAPS (R22), and what an implementation or its platform fixes and the
spec leaves open. Every open value is an opaque constant: nothing can compute it, so a statement holds whatever it is. -/

namespace Sys2Proof.Config

/-- Glyph width in pixels (R7). -/
def GW : Nat := 8
/-- Glyph height in pixels (R7). -/
def GH : Nat := 8
/-- First code with its own glyph (R7). -/
def CODE_MIN : Nat := 32
/-- Last code with its own glyph (R7). -/
def CODE_MAX : Nat := 126
/-- Number of glyphs in the font ROM (R7). -/
def NG : Nat := CODE_MAX - CODE_MIN + 1

/-- The CAPS word: the constants of R7 in the fields of R22. -/
def caps : Word :=
  BitVec.ofNat 8 CODE_MAX ++ BitVec.ofNat 8 CODE_MIN ++ BitVec.ofNat 8 GH ++ BitVec.ofNat 8 GW

/-- The open part of the FONT_ROM parameter (R10, R12): no source gives the bitmaps of codes 33 to 126.
[log 8] -/
opaque fontData : Nat → Byte

/-- The FONT_ROM parameter: byte `(c - 32) * 8 + r` is row `r` of the glyph of code `c` (R10). Its first eight bytes,
the space glyph, are 0 (R11); the others are open. -/
def fontRom (i : Nat) : Byte := if i < 8 then 0 else fontData i

/-- FB_BIG_ENDIAN, the synthesis parameter that fixes the byte order of an RGB565 element (R9, R53). [log 9] -/
opaque fbBigEndian : Bool

/-- Whether the platform has memory at a framebuffer byte address (R64, S3 of 93). [log 11] -/
opaque memExists : Nat → Bool

/-- The platform duty FB_VISIBLE_ON_TAKE (R60): a taken write is visible to every later read. Statements take it as a
premise (R9). [log 12] -/
opaque fbVisibleOnTake : Bool

/-- What a framebuffer byte held before anything wrote it. [log 10] -/
opaque fbInit : Nat → Byte

/-- The byte an agent reads where the spec admits any value (S3, S5 of 93), one for each count. [log 13] -/
opaque freeByte : Nat → Byte

end Sys2Proof.Config
end

