-- ==== Sys2Proof/Syntax.lean ====
section
/-! DEFINITION. The instructions: one constructor for each row of the opcode table. The eight commands have no
operand fields (R73); a host transaction carries a byte offset and, for a write, a data word (R71). -/

namespace Sys2Proof

/-- The rows of the opcode table. A command is the data word of a write to CMD (R70); `wr` and `rd` are the word write
and the word read of one register (R71). -/
inductive Instr where
  /-- NOP, R115 -/
  | nop
  /-- LOOKUP, R116 -/
  | lookup
  /-- DRAW.CB, R132 with G = 0 -/
  | drawCb
  /-- DRAW.CB.G, R132 with G = 1 -/
  | drawCbG
  /-- DRAW.MONO, R153 with G = 0 -/
  | drawMono
  /-- DRAW.MONO.G, R153 with G = 1 -/
  | drawMonoG
  /-- DRAW.565, R154 with G = 0 -/
  | draw565
  /-- DRAW.565.G, R154 with G = 1 -/
  | draw565G
  /-- `wr`, a word write, R95 to R99 -/
  | wr (off : BitVec 7) (data : Word)
  /-- `rd`, a word read, R92 to R94 -/
  | rd (off : BitVec 7)
deriving DecidableEq, Repr

end Sys2Proof
end

