-- ==== Sys2Proof/WellFormed.lean ====
section
/-! DEFINITION. Well-formed instructions. Every field has its width in its type, so one check is left: a write to
CMD whose data is one of the eight legal command words is spelled as that command (R70), not as `wr`. -/

namespace Sys2Proof

/-- Byte offset of CMD (R21). -/
def cmdOffset : BitVec 7 := 0x0C

/-- The eight legal command words (R75). -/
def legalCommandWords : List Word :=
  [0x00000000, 0x00000001, 0x00000002, 0x00000012, 0x00000003, 0x00000013, 0x00000004, 0x00000014]

/-- The canonical spelling: a `wr` is no other name of a command. [log 19] -/
def Instr.wf : Instr → Bool
  | .nop => true
  | .lookup => true
  | .drawCb => true
  | .drawCbG => true
  | .drawMono => true
  | .drawMonoG => true
  | .draw565 => true
  | .draw565G => true
  | .wr off data => !(off == cmdOffset && legalCommandWords.contains data)
  | .rd _ => true

/-- `i` is well formed. -/
abbrev Instr.WellFormed (i : Instr) : Prop := i.wf = true

end Sys2Proof
end

