-- ==== Sys2Proof/Decode.lean ====
section
/-! DEFINITION. The decoder: total on every 42-bit host transaction (R71) and every 32-bit command word (R73),
rejecting by name; after it the encoder, written from the same tables (R71, R75). -/

namespace Sys2Proof

/-- Why the decoder rejects a word. The first three are command words (R77, R78), the others host transactions
(R72, R78). -/
inductive Reject where
  /-- RSV, bits 31:5 of a command word, is not 0 -/
  | reservedBits
  /-- OP is 0x5 to 0xF -/
  | reservedOp
  /-- G = 1 with NOP or LOOKUP -/
  | gNotAllowed
  /-- SZ = 0 -/
  | byteSize
  /-- SZ = 1 -/
  | halfwordSize
  /-- SZ = 3 -/
  | reservedSize
deriving DecidableEq, Repr

/-- What a decoder answers. -/
inductive Decoded (α : Type) where
  | ok (a : α)
  | rejected (why : Reject)
deriving DecidableEq, Repr

/-- The answer with its reason forgotten. -/
def Decoded.toOption {α : Type} : Decoded α → Option α
  | .ok a => some a
  | .rejected _ => none

/-! ### Command words (R73 to R77) -/

/-- OP, bits 3:0 (R73). -/
def cwOp (w : Word) : BitVec 4 := w.extractLsb' 0 4
/-- G, bit 4 (R73). -/
def cwG (w : Word) : Bool := w.getLsbD 4
/-- RSV, bits 31:5 (R73). -/
def cwRsv (w : Word) : BitVec 27 := w.extractLsb' 5 27

/-- The command a word stands for, by the fields of R73 and the map of R74. -/
def decodeCommand (w : Word) : Decoded Command :=
  if cwRsv w ≠ 0 then .rejected .reservedBits
  else
    match (cwOp w).toNat, cwG w with
    | 0, false => .ok .nop
    | 0, true => .rejected .gNotAllowed
    | 1, false => .ok .lookup
    | 1, true => .rejected .gNotAllowed
    | 2, g => .ok (.draw .cb g)
    | 3, g => .ok (.draw .mono g)
    | 4, g => .ok (.draw .rgb565 g)
    | _, _ => .rejected .reservedOp

/-- The instruction of a command. -/
def Command.toInstr : Command → Instr
  | .nop => .nop
  | .lookup => .lookup
  | .draw .cb false => .drawCb
  | .draw .cb true => .drawCbG
  | .draw .mono false => .drawMono
  | .draw .mono true => .drawMonoG
  | .draw .rgb565 false => .draw565
  | .draw .rgb565 true => .draw565G

/-! ### Host transactions (R71, R72) -/

/-- W, bit 41 (R71). -/
def htW (t : HT) : Bool := t.getLsbD 41
/-- SZ, bits 40:39 (R71). -/
def htSz (t : HT) : BitVec 2 := t.extractLsb' 39 2
/-- OFF, bits 38:32 (R71). -/
def htOff (t : HT) : BitVec 7 := t.extractLsb' 32 7
/-- DATA, bits 31:0 (R71). -/
def htData (t : HT) : Word := t.extractLsb' 0 32

/-- A word write: for CMD its data is read as the command word (R70), where that is a legal one; every other word write
is `wr`. [log 19] -/
def decodeWrite (off : BitVec 7) (data : Word) : Instr :=
  if off = cmdOffset then
    match decodeCommand data with
    | .ok c => c.toInstr
    | .rejected _ => .wr off data
  else .wr off data

/-- The instruction of a host transaction (R70 to R72). Only SZ = 2 is an instruction; a read's DATA is ignored. Any
OFF decodes: a misaligned one is an instruction whose effect is the bus error of R91. [log 20, 21] -/
def decodeHt (t : HT) : Decoded Instr :=
  match (htSz t).toNat with
  | 0 => .rejected .byteSize
  | 1 => .rejected .halfwordSize
  | 2 => .ok (if htW t then decodeWrite (htOff t) (htData t) else .rd (htOff t))
  | _ => .rejected .reservedSize

/-! ### The encoder -/

/-- Packs the four fields of R71: W, SZ, OFF, DATA from the top. -/
def packHt (w : Bool) (sz : BitVec 2) (off : BitVec 7) (data : Word) : HT :=
  BitVec.cast (n := 1 + 2 + 7 + 32) rfl (BitVec.ofBool w ++ sz ++ off ++ data)

/-- The command word of a command (R75). -/
def encodeCommand : Command → Word
  | .nop => 0x00000000
  | .lookup => 0x00000001
  | .draw .cb false => 0x00000002
  | .draw .cb true => 0x00000012
  | .draw .mono false => 0x00000003
  | .draw .mono true => 0x00000013
  | .draw .rgb565 false => 0x00000004
  | .draw .rgb565 true => 0x00000014

/-- A word write of `w` to CMD, the transaction that carries a command word (R70). -/
def commandHt (w : Word) : HT := packHt true 2 cmdOffset w

/-- The host transaction of an instruction (R70, R71, R75). -/
def encode : Instr → HT
  | .nop => commandHt (encodeCommand .nop)
  | .lookup => commandHt (encodeCommand .lookup)
  | .drawCb => commandHt (encodeCommand (.draw .cb false))
  | .drawCbG => commandHt (encodeCommand (.draw .cb true))
  | .drawMono => commandHt (encodeCommand (.draw .mono false))
  | .drawMonoG => commandHt (encodeCommand (.draw .mono true))
  | .draw565 => commandHt (encodeCommand (.draw .rgb565 false))
  | .draw565G => commandHt (encodeCommand (.draw .rgb565 true))
  | .wr off data => packHt true 2 off data
  | .rd off => packHt false 2 off 0

/-! ### Words as the opcode table numbers them -/

/-- The host transaction that presents a table word: a row of at most 32 bits is a command word, carried by a write to
CMD (R70); a wider row is the 42-bit transaction itself (R71). [log 22] -/
def tableHt (nbits w : Nat) : HT :=
  if nbits ≤ 32 then commandHt (BitVec.ofNat 32 w) else BitVec.ofNat 42 w

/-- The instruction the decoder reads from a table word; none where it refuses, or where the word has bits above its
format's width. [log 22] -/
def decodeTableWord (nbits w : Nat) : Option Instr :=
  if nbits ≤ 32 then
    if w < 2 ^ 32 then (decodeCommand (BitVec.ofNat 32 w)).toOption.map Command.toInstr else none
  else if w < 2 ^ 42 then (decodeHt (BitVec.ofNat 42 w)).toOption
  else none

end Sys2Proof
end

