-- ==== Sys2Proof/Machine/State.lean ====
section
/-! DEFINITION. The state, as plain data: the four parts of R20 less the constant font ROM (host-visible registers,
command latch, sequencer, output holding registers), the ports, and what the platform does and has taken. -/

namespace Sys2Proof.Machine

/-- Eight glyph rows, row 0 at the top (R33, and `L.GL` of R34). -/
structure Glyph where
  g0 : Byte
  g1 : Byte
  g2 : Byte
  g3 : Byte
  g4 : Byte
  g5 : Byte
  g6 : Byte
  g7 : Byte
deriving DecidableEq, Repr

/-- One event of the pixel-event stream (R15). -/
structure PixelEvent where
  x : Word
  y : Word
  color : Word
  tag : Word
deriving DecidableEq, Repr

/-- One write of the framebuffer port (R16). -/
structure FbWrite where
  addr : Word
  size : BitVec 1
  data : BitVec 16
deriving DecidableEq, Repr

/-- The host-visible registers that have storage (R21 to R33). CAPS is a constant, CMD has no storage, and STATUS.BUSY
is a function of `State.seq` (R24). -/
structure Regs where
  ctrl : BitVec 2
  done : Bool
  errCmd : Bool
  errBusy : Bool
  errAlign : Bool
  code : Word
  orgX : Word
  orgY : Word
  color : Word
  tag : Word
  fbBase : Word
  fbW : Word
  fbH : Word
  emitCount : BitVec 7
  glyph : Glyph
deriving DecidableEq, Repr

/-- The command latch L (R34). -/
structure Latch where
  sink : Sink
  ox : Word
  oy : Word
  color : Word
  tag : Word
  base : Word
  w : Word
  h : Word
  gl : Glyph
  ok : Bool
deriving DecidableEq, Repr

/-- The sequencer state SEQ (R35). -/
inductive Seq where
  | idle
  | expand
deriving DecidableEq, Repr

/-- What one rising edge of `clk` sees on the input ports (R13 to R16). `txn` is the host transaction, where `h_valid`
is 1. [log 17] -/
structure Pins where
  rst : Bool
  txn : Option HT
  pxReady : Bool
  fbReady : Bool
deriving DecidableEq, Repr

/-- One thing the environment does, or the block's own turn to move (R90, R134, R200; S4 of 93). [log 1] -/
inductive Input where
  /-- the host presents one transaction (R90) -/
  | host (t : HT)
  /-- the block takes its next bit step or completion (R131, R135) -/
  | block
  /-- the stream consumer raises `px_ready` (R134) -/
  | pxReady
  /-- the framebuffer memory raises `fb_ready` (R134) -/
  | fbReady
  /-- `rst` is driven to a level; 1 is a rising edge with `rst` = 1 (R200) -/
  | rst (level : Bool)
  /-- one whole rising edge of `clk` (R13, R90, R213) -/
  | clock (pins : Pins)
  /-- another agent, or a second block, writes 1 or 2 framebuffer bytes at once (R56, R62) -/
  | agentWrite (w : FbWrite)
  /-- another agent reads 1 byte (`size` 0) or 2 bytes (`size` 1) at once (R56, R60, R209) -/
  | agentRead (a : Word) (size : BitVec 1)
deriving DecidableEq, Repr

/-- Framebuffer bytes that have been written, by rising address. An address not listed has no recorded value.
[log 10] -/
abbrev Memory := List Host.Cell

/-- The whole state. -/
structure State where
  /-- host-visible registers (R21 to R33) -/
  regs : Regs
  /-- command latch (R34) -/
  latch : Latch
  /-- SEQ (R35) -/
  seq : Seq
  /-- BIDX (R36) -/
  bidx : BitVec 7
  /-- ROWSH (R36) -/
  rowsh : Byte
  /-- PEND (R37) -/
  pend : Bool
  /-- held stream payload (R37) -/
  px : PixelEvent
  /-- held framebuffer payload (R37) -/
  fb : FbWrite
  /-- level of the reset pin (R13, R202) -/
  rst : Bool
  /-- response data of the latest host transaction (R14, R91) -/
  hRdata : Word
  /-- response error of the latest host transaction (R14, R91) -/
  hErr : Bool
  /-- framebuffer memory (R50 item 2) -/
  mem : Memory
  /-- events taken, oldest first (R134) -/
  stream : List PixelEvent
  /-- framebuffer writes taken, oldest first (R58, R64) -/
  fbLog : List FbWrite
  /-- what the environment does next, in order (R90). [log 1] -/
  inputs : List Input
  /-- the bytes another agent last read, in the lanes of R16 (R56, R60). [log 15] -/
  agentData : BitVec 16
  /-- the model's own counter of free values. [log 13] -/
  freeCount : Nat
deriving DecidableEq, Repr

/-- No instruction and no input stops the block with a fault: "the core itself is total (never fails)" (R180), the
clip never faults (R156), the command errors are STATUS bits (R181) and a bus error is a response (R91). The type is
therefore empty: nothing raises a fault, which is safe. -/
inductive Fault where
deriving DecidableEq, Repr

/-- Why a step has no meaning in the model. -/
inductive Refusal where
  /-- raised by an arm of `exec` whose instruction has no meaning yet; safe -/
  | notModelled (mnemonic : String)
  /-- raised when another agent writes into the buffer that a BUSY DRAW_MONO or DRAW_565 targets: undefined
  in the source, and refused as R62 and U1 of 93 say; safe. [log 14] -/
  | concurrentBufferWrite
deriving DecidableEq, Repr

/-- Eight rows of zeros. -/
def Glyph.zero : Glyph := ⟨0, 0, 0, 0, 0, 0, 0, 0⟩

/-- Reset values of the host-visible registers (R41). -/
def Regs.reset : Regs :=
  { ctrl := 0, done := false, errCmd := false, errBusy := false, errAlign := false
    code := 0, orgX := 0, orgY := 0, color := 0, tag := 0, fbBase := 0, fbW := 0, fbH := 0
    emitCount := 0, glyph := Glyph.zero }

/-- Reset value of the latch, all zeros (R34, R41). DESIGN CHOICE: the zero of `L.SINK` is read as CB. [log 7] -/
def Latch.reset : Latch :=
  { sink := .cb, ox := 0, oy := 0, color := 0, tag := 0, base := 0, w := 0, h := 0, gl := Glyph.zero, ok := false }

/-- The machine right after reset: R41 for the block; nothing written, taken or waiting on the platform's side.
[log 5, 6, 10, 13, 15, 18] -/
def State.reset : State :=
  { regs := Regs.reset, latch := Latch.reset, seq := .idle, bidx := 0, rowsh := 0, pend := false
    px := ⟨0, 0, 0, 0⟩, fb := ⟨0, 0, 0⟩
    rst := false, hRdata := 0, hErr := false
    mem := [], stream := [], fbLog := [], inputs := [], agentData := 0, freeCount := 0 }

end Sys2Proof.Machine
end

