-- ==== Sys2Proof/Machine/Ops.lean ====
section
/-! DEFINITION. The named operations over memory and the whole state: reading and writing one framebuffer byte, the
write of one element (R53), the response of a host transaction (R91), raising an error (R18, R181), reset (R200). -/

namespace Sys2Proof.Machine

/-- What a step answers. -/
abbrev StepResult := Host.Outcome State Fault Refusal

/-- Goes on from a next state, and stops where a step stops. -/
def onNext {α β : Type} (r : Host.Outcome α Fault Refusal) (f : α → Host.Outcome β Fault Refusal) :
    Host.Outcome β Fault Refusal :=
  match r with
  | .next a => f a
  | .fault e => .fault e
  | .refused e => .refused e

/-! ### Framebuffer memory -/

/-- The byte recorded at an address; none where nothing has written it. [log 10] -/
def Memory.read : Memory → Nat → Option Byte
  | [], _ => none
  | (b, x) :: rest, a => if a = b then some x else Memory.read rest a

/-- Records a byte, keeping the addresses strictly rising. -/
def Memory.write : Memory → Nat → Byte → Memory
  | [], a, v => [(a, v)]
  | (b, x) :: rest, a, v =>
    if a < b then (a, v) :: (b, x) :: rest
    else if a = b then (a, v) :: rest
    else (b, x) :: Memory.write rest a v

/-- The canonical form above a bound: addresses strictly rising, at least `lo` and below 2^32. -/
def Memory.wfFrom (lo : Nat) : Memory → Bool
  | [] => true
  | (a, _) :: rest => decide (lo ≤ a) && decide (a < 2 ^ 32) && Memory.wfFrom (a + 1) rest

/-- The canonical form of the framebuffer memory. An unlisted address reads as none, so no entry equals it. -/
def Memory.wf (m : Memory) : Bool := Memory.wfFrom 0 m

/-- The effect of `MemWrite` on memory (R53): `fb_data[7:0]` goes to `fb_addr`, and `fb_data[15:8]` to `fb_addr + 1`
when `fb_size` is 1. [log 15, 23] -/
def memWrite (w : FbWrite) (m : Memory) : Memory :=
  let m1 := m.write w.addr.toNat (w.data.extractLsb' 0 8)
  if w.size = 0 then m1 else m1.write (w.addr + 1).toNat (w.data.extractLsb' 8 8)

/-- The addresses an element write stores to (R53). -/
def FbWrite.covers (w : FbWrite) (a : Nat) : Bool :=
  a == w.addr.toNat || (w.size != 0 && a == (w.addr + 1).toNat)

/-! ### The response, errors and reset -/

/-- Drives the response ports of a host transaction (R14, R91). -/
def respond (rdata : Word) (err : Bool) (s : State) : State := { s with hRdata := rdata, hErr := err }

/-- `raise` of R18: sets one STATUS error bit and changes nothing else. This is the whole of "taking an exception" on
this block: no trap entry, no saved state, no vector (R186), and so no return (R187). -/
def raise (e : ErrCause) (s : State) : State :=
  match e with
  | .cmd => { s with regs := { s.regs with errCmd := true } }
  | .busy => { s with regs := { s.regs with errBusy := true } }
  | .align => { s with regs := { s.regs with errAlign := true } }

/-- A rising edge with `rst` = 1 (R200, R41): every state element of the block takes its reset value. What has been
taken stays taken, and memory keeps it (R201). The response ports read 0 (R202). [log 5] -/
def resetEdge (s : State) : State :=
  { s with
    regs := Regs.reset, latch := Latch.reset, seq := .idle, bidx := 0, rowsh := 0, pend := false
    px := ⟨0, 0, 0, 0⟩, fb := ⟨0, 0, 0⟩, rst := true, hRdata := 0, hErr := false }

/-- Drives the reset pin: 1 is a rising edge with `rst` = 1, 0 releases it (R200, R204). [log 32] -/
def driveRst (level : Bool) (s : State) : State := if level then resetEdge s else { s with rst := false }

end Sys2Proof.Machine
end

