-- ==== Sys2Proof/Machine/Flags.lean ====
section
/-! DEFINITION. STATUS and what follows from it: the word a host reads (R24, R92), the W1C write (R97) and `irq`
(R184). -/

namespace Sys2Proof.Machine

/-- STATUS.BUSY = (SEQ != IDLE) (R24). -/
def State.busy (s : State) : Bool := s.seq != .idle

/-- The STATUS word: ERR_ALIGN, ERR_BUSY, ERR_CMD, DONE, BUSY in bits 4 to 0 (R92). -/
def statusWord (s : State) : Word :=
  (BitVec.ofBool s.regs.errAlign ++ BitVec.ofBool s.regs.errBusy ++ BitVec.ofBool s.regs.errCmd
    ++ BitVec.ofBool s.regs.done ++ BitVec.ofBool s.busy).setWidth 32

/-- A write to STATUS: a 1 clears its bit, a 0 leaves it; bit 0 and bits 31:5 are ignored (R97). -/
def clearStatus (d : Word) (s : State) : State :=
  { s with regs := { s.regs with
      done := s.regs.done && !d.getLsbD 1
      errCmd := s.regs.errCmd && !d.getLsbD 2
      errBusy := s.regs.errBusy && !d.getLsbD 3
      errAlign := s.regs.errAlign && !d.getLsbD 4 } }

/-- CTRL.IE_DONE, bit 0 (R23). -/
def State.ieDone (s : State) : Bool := s.regs.ctrl.getLsbD 0
/-- CTRL.IE_ERR, bit 1 (R23). -/
def State.ieErr (s : State) : Bool := s.regs.ctrl.getLsbD 1

/-- Any STATUS error bit. -/
def State.anyError (s : State) : Bool := s.regs.errCmd || s.regs.errBusy || s.regs.errAlign

/-- The interrupt output: level-sensitive, 0 while `rst` = 1 (R184). [log 30] -/
def State.irq (s : State) : Bool :=
  !s.rst && ((s.ieDone && s.regs.done) || (s.ieErr && s.anyError))

end Sys2Proof.Machine
end

