-- ==== Sys2Proof/Machine/Operands.lean ====
section
/-! DEFINITION. Every operand form: the register window read (R72, R92), the glyph of a code (R111, R112), the rows
and columns of a glyph (R18), the coordinates (R128), the clip (R145 to R149) and the output payloads (R131, R151,
R152). -/

namespace Sys2Proof.Machine

/-! ### Glyph rows -/

/-- Row `r` of a glyph. -/
def Glyph.row (g : Glyph) (r : Nat) : Byte :=
  match r with
  | 0 => g.g0
  | 1 => g.g1
  | 2 => g.g2
  | 3 => g.g3
  | 4 => g.g4
  | 5 => g.g5
  | 6 => g.g6
  | _ => g.g7

/-- The glyph with row `r` replaced. -/
def Glyph.setRow (g : Glyph) (r : Fin 8) (v : Byte) : Glyph :=
  match r.val with
  | 0 => { g with g0 := v }
  | 1 => { g with g1 := v }
  | 2 => { g with g2 := v }
  | 3 => { g with g3 := v }
  | 4 => { g with g4 := v }
  | 5 => { g with g5 := v }
  | 6 => { g with g6 := v }
  | _ => { g with g7 := v }

/-- Column `k` of row `r`, column 0 leftmost: bit `7 - k` (R18). -/
def Glyph.bit (g : Glyph) (r k : Nat) : Bool := (g.row r).getLsbD (7 - k)

/-! ### The register window -/

/-- The register of number `OFF[6:2]` (R21, R72); none for the reserved offsets. -/
def regAt (n : BitVec 5) : Option Reg :=
  match n.toNat with
  | 0 => some .caps
  | 1 => some .ctrl
  | 2 => some .status
  | 3 => some .cmd
  | 4 => some .code
  | 5 => some .orgX
  | 6 => some .orgY
  | 7 => some .color
  | 8 => some .tag
  | 9 => some .fbBase
  | 10 => some .fbW
  | 11 => some .fbH
  | 12 => some .emitCount
  | 16 => some (.glyph 0)
  | 17 => some (.glyph 1)
  | 18 => some (.glyph 2)
  | 19 => some (.glyph 3)
  | 20 => some (.glyph 4)
  | 21 => some (.glyph 5)
  | 22 => some (.glyph 6)
  | 23 => some (.glyph 7)
  | _ => none

/-- The word a named register reads as (R92). -/
def readNamed (r : Reg) (s : State) : Word :=
  match r with
  | .caps => Config.caps
  | .ctrl => s.regs.ctrl.setWidth 32
  | .status => statusWord s
  | .cmd => 0
  | .code => s.regs.code
  | .orgX => s.regs.orgX
  | .orgY => s.regs.orgY
  | .color => s.regs.color
  | .tag => s.regs.tag
  | .fbBase => s.regs.fbBase
  | .fbW => s.regs.fbW
  | .fbH => s.regs.fbH
  | .emitCount => s.regs.emitCount.setWidth 32
  | .glyph r => (s.regs.glyph.row r.val).setWidth 32

/-- `ReadReg(n)` (R92); a reserved offset reads 0 (R93). -/
def readReg (n : BitVec 5) (s : State) : Word :=
  match regAt n with
  | some r => readNamed r s
  | none => 0

/-! ### The glyph of a code -/

/-- Code normalisation on all 32 bits (R111). -/
def norm (c : Word) : Nat :=
  if Config.CODE_MIN ≤ c.toNat ∧ c.toNat ≤ Config.CODE_MAX then c.toNat else Config.CODE_MIN

/-- Row `r` of the glyph of code `c` (R112). -/
def glyphRow (c : Word) (r : Nat) : Byte := Config.fontRom ((norm c - Config.CODE_MIN) * 8 + r)

/-- The eight rows of the glyph of code `c` (R117). -/
def lookupGlyph (c : Word) : Glyph :=
  ⟨glyphRow c 0, glyphRow c 1, glyphRow c 2, glyphRow c 3, glyphRow c 4, glyphRow c 5, glyphRow c 6, glyphRow c 7⟩

/-! ### Coordinates and clip -/

/-- X(L, k), a mathematical integer (R128). -/
def pixelX (l : Latch) (k : Nat) : Int := l.ox.toInt + k
/-- Y(L, r), a mathematical integer (R128). -/
def pixelY (l : Latch) (r : Nat) : Int := l.oy.toInt + r

/-- The origin check on mathematical integers (R145). -/
def originOk (ox oy w h : Word) : Bool :=
  decide (0 ≤ ox.toInt) && decide (ox.toInt < w.toInt) && decide (0 ≤ oy.toInt) && decide (oy.toInt < h.toInt)

/-- InClip (R149): always for the stream; the latched origin check, the row clip (R146) and the column clip (R147) for
the buffer sinks. -/
def inClip (l : Latch) (r k : Nat) : Bool :=
  match l.sink with
  | .cb => true
  | .mono => l.ok && decide (pixelY l r < l.h.toInt) && decide (pixelX l k < l.w.toInt)
  | .rgb565 => l.ok && decide (pixelY l r < l.h.toInt) && decide (pixelX l k < l.w.toInt)

/-- The element index, a mathematical integer (R150). -/
def elementIndex (l : Latch) (r k : Nat) : Int := pixelY l r * l.w.toInt + pixelX l k

/-! ### Output payloads -/

/-- The stream payload of bit (r, k) (R131, R133). -/
def pxEvent (l : Latch) (r k : Nat) : PixelEvent :=
  ⟨BitVec.ofInt 32 (pixelX l k), BitVec.ofInt 32 (pixelY l r), l.color, l.tag⟩

/-- The byte lanes of the framebuffer port: `fb_data[15:8]` and `fb_data[7:0]` (R16). -/
def lanes (high low : Byte) : BitVec 16 := BitVec.cast (n := 8 + 8) rfl (high ++ low)

/-- The data lanes of an RGB565 element, for either value of FB_BIG_ENDIAN (R53, R152). -/
def rgb565Lanes (bigEndian : Bool) (color : Word) : BitVec 16 :=
  if bigEndian then lanes (color.extractLsb' 0 8) (color.extractLsb' 8 8)
  else lanes (color.extractLsb' 8 8) (color.extractLsb' 0 8)

/-- The monochrome payload of bit (r, k) (R151). -/
def monoWrite (l : Latch) (r k : Nat) : FbWrite :=
  ⟨BitVec.ofInt 32 (l.base.toNat + elementIndex l r k), 0, lanes 0 (l.color.extractLsb' 0 8)⟩

/-- The RGB565 payload of bit (r, k) (R152). -/
def rgb565Write (l : Latch) (r k : Nat) : FbWrite :=
  ⟨BitVec.ofInt 32 (l.base.toNat + 2 * elementIndex l r k), 1, rgb565Lanes Config.fbBigEndian l.color⟩

/-! ### The command's operands, sampled at the accept -/

/-- The latch a DRAW command of this sink loads from the registers (R34, R76, R99). -/
def sampleLatch (sink : Sink) (r : Regs) : Latch :=
  { sink := sink, ox := r.orgX, oy := r.orgY, color := r.color, tag := r.tag
    base := r.fbBase, w := r.fbW, h := r.fbH, gl := r.glyph
    ok := match sink with
      | .cb => true
      | .mono => originOk r.orgX r.orgY r.fbW r.fbH
      | .rgb565 => originOk r.orgX r.orgY r.fbW r.fbH }

end Sys2Proof.Machine
end

