-- ==== Sys2Proof/Machine/Accept.lean ====
section
/-! DEFINITION. The write to CMD (R99): its three checks in order (R183), and the accept. -/

namespace Sys2Proof.Machine

/-- The first effects of every accept: DONE <- 0, EMIT_COUNT <- 0 (R99). -/
def beginCommand (s : State) : State := { s with regs := { s.regs with done := false, emitCount := 0 } }

/-- Writes all eight rows of GLYPH0..7 in one step. -/
def storeGlyph (g : Glyph) (s : State) : State := { s with regs := { s.regs with glyph := g } }

/-- `LookupIntoGlyph` (R117). -/
def lookupIntoGlyph (c : Word) (s : State) : State := storeGlyph (lookupGlyph c) s

/-- DONE <- 1: the completion that NOP and LOOKUP reach in their accept step (R99, R115, R116). -/
def finishAtOnce (s : State) : State := { s with regs := { s.regs with done := true } }

/-- Loads the latch and starts the expansion (R99). -/
def startDraw (sink : Sink) (s : State) : State :=
  { s with latch := sampleLatch sink s.regs, bidx := 0, rowsh := 0, pend := false, seq := .expand }

/-- The accept of NOP (R115). -/
def acceptNop (s : State) : State := finishAtOnce (beginCommand s)

/-- The accept of LOOKUP (R116). -/
def acceptLookup (s : State) : State := finishAtOnce (lookupIntoGlyph s.regs.code (beginCommand s))

/-- The accept of a DRAW command; G = 0 looks CODE up first, G = 1 uses GLYPH0..7 as they stand (R99, R117, R125). -/
def acceptDraw (sink : Sink) (g : Bool) (s : State) : State :=
  startDraw sink (if g then beginCommand s else lookupIntoGlyph s.regs.code (beginCommand s))

/-- The accept of a legal command (R99). -/
def accept (c : Command) (s : State) : State :=
  match c with
  | .nop => acceptNop s
  | .lookup => acceptLookup s
  | .draw sink g => acceptDraw sink g s

/-- The alignment check: DRAW_565 with FB_BASE[0] = 1 (R99, R155). -/
def misaligned565 (c : Command) (s : State) : Bool :=
  match c with
  | .draw .rgb565 _ => s.regs.fbBase.getLsbD 0
  | .draw .cb _ => false
  | .draw .mono _ => false
  | .nop => false
  | .lookup => false

/-- A legal command word written to CMD: BUSY first, then alignment, then the accept (R99, R183). -/
def presentCommand (c : Command) (s : State) : State :=
  if s.seq ≠ .idle then raise .busy s
  else if misaligned565 c s then raise .align s
  else accept c s

/-- `WriteReg(3, w)` (R99): while BUSY the word is discarded without decoding; an illegal word sets ERR_CMD. -/
def writeCmd (w : Word) (s : State) : State :=
  if s.seq ≠ .idle then raise .busy s
  else
    match decodeCommand w with
    | .rejected _ => raise .cmd s
    | .ok c => presentCommand c s

end Sys2Proof.Machine
end

