-- ==== Sys2Proof/Machine/HostBus.lean ====
section
/-! DEFINITION. Host register access (R91 to R98) and the meanings of `rd` and `wr`. -/

namespace Sys2Proof.Machine

/-- The effect of a word write to a named register: RW (R95), RO ignored (R96), STATUS W1C (R97), CMD (R99). -/
def writeNamed (r : Reg) (d : Word) (s : State) : State :=
  match r with
  | .caps => s
  | .ctrl => { s with regs := { s.regs with ctrl := d.extractLsb' 0 2 } }
  | .status => clearStatus d s
  | .cmd => writeCmd d s
  | .code => { s with regs := { s.regs with code := d } }
  | .orgX => { s with regs := { s.regs with orgX := d } }
  | .orgY => { s with regs := { s.regs with orgY := d } }
  | .color => { s with regs := { s.regs with color := d } }
  | .tag => { s with regs := { s.regs with tag := d } }
  | .fbBase => { s with regs := { s.regs with fbBase := d } }
  | .fbW => { s with regs := { s.regs with fbW := d } }
  | .fbH => { s with regs := { s.regs with fbH := d } }
  | .emitCount => s
  | .glyph r => { s with regs := { s.regs with glyph := s.regs.glyph.setRow r (d.extractLsb' 0 8) } }

/-- `WriteReg(n, d)`; a reserved offset ignores the write (R98). -/
def writeReg (n : BitVec 5) (d : Word) (s : State) : State :=
  match regAt n with
  | some r => writeNamed r d s
  | none => s

/-- Register number `OFF[6:2]` (R72). -/
def regNumber (off : BitVec 7) : BitVec 5 := off.extractLsb' 2 5

/-- A transaction is admitted only for SZ = 2 and OFF[1:0] = 0 (R72). -/
def admitted (sz : BitVec 2) (off : BitVec 7) : Bool := sz == 2 && off.extractLsb' 0 2 == 0

/-- `HostAccess(W, SZ, OFF, DATA)` (R91, R202). -/
def hostAccess (w : Bool) (sz : BitVec 2) (off : BitVec 7) (data : Word) (s : State) : State :=
  if s.rst then respond 0 false s
  else if !admitted sz off then respond 0 true s
  else if w then respond 0 false (writeReg (regNumber off) data s)
  else respond (readReg (regNumber off) s) false s

/-- The transaction that carries a legal command: an admitted word write to CMD (R70, R91, R99). -/
def commandTransaction (c : Command) (s : State) : State :=
  if s.rst then respond 0 false s else respond 0 false (presentCommand c s)

/-- `wr`: a word write (R91, R95 to R99). -/
def execWr (off : BitVec 7) (data : Word) (s : State) : StepResult := .next (hostAccess true 2 off data s)

/-- `rd`: a word read (R91 to R94). -/
def execRd (off : BitVec 7) (s : State) : StepResult := .next (hostAccess false 2 off 0 s)

end Sys2Proof.Machine
end

