-- ==== Sys2Proof/Machine/Framebuffer.lean ====
section
/-! DEFINITION. The meanings of DRAW.MONO, DRAW.MONO.G, DRAW.565 and DRAW.565.G: their accept (R153, R154, R155). The
clip and the payloads are in Operands.lean, the steps that follow the accept in Rasterize.lean. -/

namespace Sys2Proof.Machine

/-- DRAW.MONO (R153), with the lookup of CODE. -/
def execDrawMono (s : State) : StepResult := .next (commandTransaction (.draw .mono false) s)

/-- DRAW.MONO.G (R153), with GLYPH0..7 as they stand. -/
def execDrawMonoG (s : State) : StepResult := .next (commandTransaction (.draw .mono true) s)

/-- DRAW.565 (R154, R155), with the lookup of CODE. -/
def execDraw565 (s : State) : StepResult := .next (commandTransaction (.draw .rgb565 false) s)

/-- DRAW.565.G (R154, R155), with GLYPH0..7 as they stand. -/
def execDraw565G (s : State) : StepResult := .next (commandTransaction (.draw .rgb565 true) s)

end Sys2Proof.Machine
end

