-- ==== Sys2Proof/Machine/Lookup.lean ====
section
/-! DEFINITION. The meanings of NOP and LOOKUP (41_lookup.md). -/

namespace Sys2Proof.Machine

/-- NOP (R115). -/
def execNop (s : State) : StepResult := .next (commandTransaction .nop s)

/-- LOOKUP (R116). -/
def execLookup (s : State) : StepResult := .next (commandTransaction .lookup s)

end Sys2Proof.Machine
end

