-- ==== Sys2Proof/Machine/Rasterize.lean ====
section
/-! DEFINITION. The expansion that every DRAW command shares (R131, R134, R135) and the meanings of DRAW.CB and
DRAW.CB.G. A DRAW instruction's own step is its accept; the steps here carry it to its completion. -/

namespace Sys2Proof.Machine

/-- BIDX div 8, the row of the next bit: BIDX[5:3] (R36, R131). -/
def State.row (s : State) : Nat := (s.bidx.extractLsb' 3 3).toNat
/-- BIDX mod 8, the column of the next bit: BIDX[2:0] (R36, R131). -/
def State.col (s : State) : Nat := (s.bidx.extractLsb' 0 3).toNat

/-- The shift register the bit step tests: loaded with the row at a row start (R131). -/
def State.shiftIn (s : State) : Byte := if s.col = 0 then s.latch.gl.row s.row else s.rowsh

/-- PEND <- 1 with the payload of bit (r, k) for the latched sink (R131). -/
def offer (r k : Nat) (s : State) : State :=
  match s.latch.sink with
  | .cb => { s with pend := true, px := pxEvent s.latch r k }
  | .mono => { s with pend := true, fb := monoWrite s.latch r k }
  | .rgb565 => { s with pend := true, fb := rgb565Write s.latch r k }

/-- The shift and the advance of BIDX (R131). -/
def shiftBit (s : State) : State := { s with rowsh := s.shiftIn <<< 1, bidx := s.bidx + 1 }

/-- `BitStep()` (R131). -/
def bitStep (s : State) : State :=
  if s.shiftIn.getLsbD 7 && inClip s.latch s.row s.col then offer s.row s.col (shiftBit s) else shiftBit s

/-- `CompleteStep()` (R135). -/
def completeStep (s : State) : State := { s with seq := .idle, regs := { s.regs with done := true } }

/-- When a bit step is enabled (R131). -/
def State.bitEnabled (s : State) : Bool := s.seq == .expand && !s.pend && decide (s.bidx.toNat < 64)

/-- When the completion is enabled (R135). -/
def State.completeEnabled (s : State) : Bool := s.seq == .expand && !s.pend && s.bidx == 64

/-- The block's own next step, where one is enabled; otherwise it holds (R134, R194). [log 3, 4, 26] -/
def blockStep (s : State) : State :=
  if s.bitEnabled then bitStep s else if s.completeEnabled then completeStep s else s

/-- px_valid (R37). -/
def State.pxValid (s : State) : Bool := s.pend && s.latch.sink == .cb
/-- fb_valid (R37). -/
def State.fbValid (s : State) : Bool := s.pend && s.latch.sink != .cb

/-- The stream port: an event only while px_valid is 1 (R15, R37; S2 of 93). [log 16] -/
def State.pxOffer (s : State) : Option PixelEvent := if s.pxValid then some s.px else none
/-- The framebuffer port: a write only while fb_valid is 1 (R16, R37; S2 of 93). [log 16] -/
def State.fbOffer (s : State) : Option FbWrite := if s.fbValid then some s.fb else none

/-- EMIT_COUNT <- EMIT_COUNT + 1 and PEND <- 0 (R134, R136). [log 25] -/
def countTake (s : State) : State :=
  { s with pend := false, regs := { s.regs with emitCount := s.regs.emitCount + 1 } }

/-- `TakeStep()` (R134): the event joins the stream history, or the write is performed (R53) and recorded (R64). -/
def takeStep (s : State) : State :=
  match s.latch.sink with
  | .cb => { countTake s with stream := s.stream ++ [s.px] }
  | .mono => { countTake s with mem := memWrite s.fb s.mem, fbLog := s.fbLog ++ [s.fb] }
  | .rgb565 => { countTake s with mem := memWrite s.fb s.mem, fbLog := s.fbLog ++ [s.fb] }

/-- The ready input of the latched sink (R134). -/
def sinkReady (pxReady fbReady : Bool) (s : State) : Bool :=
  match s.latch.sink with
  | .cb => pxReady
  | .mono => fbReady
  | .rgb565 => fbReady

/-- The take step where it is enabled; ready without an offer transfers nothing (R15, R16, R134). [log 4] -/
def takeIfReady (pxReady fbReady : Bool) (s : State) : State :=
  if s.pend && sinkReady pxReady fbReady s then takeStep s else s

/-- DRAW.CB: the accept of R132, with the lookup of CODE. -/
def execDrawCb (s : State) : StepResult := .next (commandTransaction (.draw .cb false) s)

/-- DRAW.CB.G: the accept of R132, with GLYPH0..7 as they stand. -/
def execDrawCbG (s : State) : StepResult := .next (commandTransaction (.draw .cb true) s)

end Sys2Proof.Machine
end

