-- ==== Sys2Proof/Machine/Dispatch.lean ====
section
/-! DEFINITION. One arm per instruction. -/

namespace Sys2Proof.Machine

def exec (i : Instr) (s : State) : Host.Outcome State Fault Refusal :=
  match i with
  | .nop => Sys2Proof.Machine.execNop s
  | .lookup => Sys2Proof.Machine.execLookup s
  | .drawCb => Sys2Proof.Machine.execDrawCb s
  | .drawCbG => Sys2Proof.Machine.execDrawCbG s
  | .drawMono => Sys2Proof.Machine.execDrawMono s
  | .drawMonoG => Sys2Proof.Machine.execDrawMonoG s
  | .draw565 => Sys2Proof.Machine.execDraw565 s
  | .draw565G => Sys2Proof.Machine.execDraw565G s
  | .wr off data => Sys2Proof.Machine.execWr off data s
  | .rd off => Sys2Proof.Machine.execRd off s

end Sys2Proof.Machine
end

