-- ==== Sys2Proof/Machine/Platform.lean ====
section
/-! DEFINITION. What other agents of the platform do with the framebuffer: write 1 or 2 bytes (R62,
R205 step 4) and read 1 or 2 bytes (R60, R64, R209). The block itself never reads it (R51). -/

namespace Sys2Proof.Machine

/-- Bytes per element of a buffer sink (R52); the stream has none. -/
def Sink.bytes : Sink → Nat
  | .cb => 0
  | .mono => 1
  | .rgb565 => 2

/-- The number of bytes of the buffer that the latch describes: width times height elements, none when either is 0 or
less (R31, R52). -/
def bufferBytes (l : Latch) : Int :=
  if 0 < l.w.toInt ∧ 0 < l.h.toInt then l.w.toInt * l.h.toInt * (Sink.bytes l.sink : Nat) else 0

/-- Whether a byte address lies in the buffer the latch describes, addresses being taken modulo 2^32 (R151). -/
def inBuffer (l : Latch) (a : Word) : Bool := decide (((a - l.base).toNat : Int) < bufferBytes l)

/-- A buffer DRAW is running on the buffer that holds this byte (R62). -/
def drawTargets (a : Word) (s : State) : Bool := s.busy && inBuffer s.latch a

/-- Whether a write stores to a byte of that buffer; its second address is taken modulo 2^32. [log 15] -/
def writeTargets (w : FbWrite) (s : State) : Bool :=
  drawTargets w.addr s || (w.size != 0 && drawTargets (w.addr + 1) s)

/-- Another agent's write of 1 or 2 bytes, one step like `MemWrite` (R56); refused on the buffer of a running DRAW_MONO
or DRAW_565 (R62, U1 of 93). [log 14, 15]

DESIGN CHOICE: the spec gives other agents' accesses no form, and the second byte of a 2-byte one at 0xFFFF_FFFF is at
address 0. [log 15] -/
def agentWrite (w : FbWrite) (s : State) : StepResult :=
  if writeTargets w s then .refused .concurrentBufferWrite
  else .next { s with mem := memWrite w s.mem }

/-- Whether the block has ever written this byte. -/
def blockWrote (a : Nat) (s : State) : Bool := s.fbLog.any fun w => w.covers a

/-- Whether the spec fixes what an agent reads at this address: there is memory (R64, S3 of 93), and the byte is either
none of the block's writes or made visible when taken (R60, S5 of 93). [log 11, 12] -/
def readFixed (a : Nat) (s : State) : Bool :=
  Config.memExists a && (Config.fbVisibleOnTake || !blockWrote a s)

/-- What another agent reads at one address: the recorded byte, or what the memory held before anything wrote it; the
`n`-th free value where the spec admits any. [log 10, 13] -/
def agentByte (a : Word) (n : Nat) (s : State) : Byte :=
  if readFixed a.toNat s then (s.mem.read a.toNat).getD (Config.fbInit a.toNat) else Config.freeByte n

/-- Another agent's read of 1 or 2 bytes. Both bytes are read in this one step, so an agent that reads an element sees
all of a `MemWrite` or nothing of it (R56). [log 15]

DESIGN CHOICE: the second byte of a 2-byte read at 0xFFFF_FFFF is the one at address 0. [log 15] -/
def agentRead (a : Word) (size : BitVec 1) (s : State) : State :=
  { s with
    agentData :=
      lanes (if size = 0 then 0 else agentByte (a + 1) (s.freeCount + 1) s) (agentByte a s.freeCount s)
    freeCount := s.freeCount + 2 }

end Sys2Proof.Machine
end

