-- ==== Sys2Proof/Machine/Transaction.lean ====
section
/-! DEFINITION. One host transaction (R90, R91), one rising edge of the clock (R90, R188, R213), and one input of the
environment. Step.lean only calls these. -/

namespace Sys2Proof.Machine

/-- One host transaction: the instruction it decodes to, or the bus error of a transaction that is none (R91). -/
def hostTransaction (t : HT) (s : State) : StepResult :=
  match decodeHt t with
  | .ok i => exec i s
  | .rejected _ => .next (hostAccess (htW t) (htSz t) (htOff t) (htData t) s)

/-- The block's part of a rising edge: a take, and the next bit step or the completion at the same edge (R213); it has
one only if a command was running before the edge. [log 17] -/
def blockEdge (wasBusy : Bool) (pxReady fbReady : Bool) (s : State) : State :=
  if wasBusy then blockStep (takeIfReady pxReady fbReady s) else s

/-- A rising edge with `rst` = 1: an output whose valid and ready are both 1 is taken (R15, R16), one that is not taken is
withdrawn (R201), and every state element takes its reset value, EMIT_COUNT among them (R200). -/
def resetClock (pxReady fbReady : Bool) (s : State) : State := resetEdge (takeIfReady pxReady fbReady s)

/-- One rising edge of `clk`: with `rst` = 1 the reset, a transaction having no effect (R200, R202); otherwise the
transaction first, then the block's step, so that a set wins over a W1C clear of the same edge (R90, R97, R188).
[log 17, 31] -/
def clockEdge (p : Pins) (s : State) : StepResult :=
  if p.rst then .next (resetClock p.pxReady p.fbReady s)
  else
    match p.txn with
    | none => .next (blockEdge s.busy p.pxReady p.fbReady (driveRst false s))
    | some t => onNext (hostTransaction t (driveRst false s)) fun u => .next (blockEdge s.busy p.pxReady p.fbReady u)

/-- One input of the environment (R90, R134, R200). -/
def runInput (i : Input) (s : State) : StepResult :=
  match i with
  | .host t => hostTransaction t s
  | .block => .next (blockStep s)
  | .pxReady => .next (takeIfReady true false s)
  | .fbReady => .next (takeIfReady false true s)
  | .rst level => .next (driveRst level s)
  | .clock p => clockEdge p s
  | .agentWrite w => agentWrite w s
  | .agentRead a size => .next (agentRead a size s)

/-- The state with its first input used up. -/
def nextInputs (rest : List Input) (s : State) : State := { s with inputs := rest }

/-- Presents an input as the very next one. -/
def presentInput (i : Input) (s : State) : State := { s with inputs := i :: s.inputs }

/-- Presents a host transaction as the very next input. [log 2] -/
def presentNext (t : HT) (s : State) : State := presentInput (.host t) s

end Sys2Proof.Machine
end

