-- ==== Sys2Proof/Machine/Step.lean ====
section
/-! DEFINITION. One step: the next input of the environment (R90). Where none is left, the environment is silent and
the block moves by itself, or holds (R134, R194). [log 1, 3] -/

namespace Sys2Proof.Machine

def step (s : State) : Host.Outcome State Fault Refusal :=
  match s.inputs with
  | [] => .next (blockStep s)
  | i :: rest => runInput i (nextInputs rest s)

/-- The host presents the table word next: a command word in a write to CMD, a wider word as the transaction itself
(R70, R71). [log 2, 22] -/
def State.withFetchWord (s : State) (nbits w : Nat) : State := presentNext (tableHt nbits w) s

end Sys2Proof.Machine
end

