-- ==== Sys2Proof/Machine/HostAsm.lean ====
section
/-! DEFINITION. The host assembly of R80 to R83: register offsets, transaction spellings, and the expansions of the
pseudo-instructions as host programs. `wait_idle` is host control flow: a line that a program leaves only when BUSY has
read 0. -/

namespace Sys2Proof.Machine

/-- Byte offsets by register name (R83). -/
def regOffset (r : Reg) : BitVec 7 :=
  match r with
  | .caps => 0x00
  | .ctrl => 0x04
  | .status => 0x08
  | .cmd => 0x0C
  | .code => 0x10
  | .orgX => 0x14
  | .orgY => 0x18
  | .color => 0x1C
  | .tag => 0x20
  | .fbBase => 0x24
  | .fbW => 0x28
  | .fbH => 0x2C
  | .emitCount => 0x30
  | .glyph r => 0x40 + 4 * BitVec.ofNat 7 r.val

/-- `wr REG, imm32` (R80). -/
def asmWr (r : Reg) (imm : Word) : HT := packHt true 2 (regOffset r) imm
/-- `rd REG` (R80). -/
def asmRd (r : Reg) : HT := packHt false 2 (regOffset r) 0
/-- `wr.b REG, imm32` (R80). -/
def asmWrB (r : Reg) (imm : Word) : HT := packHt true 0 (regOffset r) imm
/-- `wr.h REG, imm32` (R80). -/
def asmWrH (r : Reg) (imm : Word) : HT := packHt true 1 (regOffset r) imm
/-- `rd.b REG` (R80). -/
def asmRdB (r : Reg) : HT := packHt false 0 (regOffset r) 0
/-- `rd.h REG` (R80). -/
def asmRdH (r : Reg) : HT := packHt false 1 (regOffset r) 0
/-- `wr @off, imm32` (R80). -/
def asmWrAt (off : BitVec 7) (imm : Word) : HT := packHt true 2 off imm
/-- `rd @off` (R80). -/
def asmRdAt (off : BitVec 7) : HT := packHt false 2 off 0

/-- `cmd M` (R82). -/
def asmCmd (c : Command) : HT := asmWr .cmd (encodeCommand c)
/-- `clear_status` (R82). -/
def asmClearStatus : HT := asmWr .status 0x0000001E
/-- One line of a host program: a transaction, or the loop `wait_idle` (R80, R82). -/
inductive HostOp where
  | send (t : HT)
  | waitIdle
deriving DecidableEq, Repr

/-- A host program, line by line. -/
abbrev HostProgram := List HostOp

/-- The transaction that `wait_idle` repeats (R82). -/
def asmWaitIdle : HT := asmRd .status
/-- The exit test of `wait_idle`: bit 0 of the word read is 0 (R82). -/
def waitIdleDone (s : State) : Bool := !s.hRdata.getLsbD 0

/-- The transaction that a program presents next, if it has not ended. -/
def nextTxn : HostProgram → Option HT
  | [] => none
  | .send t :: _ => some t
  | .waitIdle :: _ => some asmWaitIdle

/-- The program after its transaction has been answered; `wait_idle` stays while BUSY reads 1 (R82). -/
def advance (s : State) : HostProgram → HostProgram
  | [] => []
  | .send _ :: rest => rest
  | .waitIdle :: rest => if waitIdleDone s then rest else .waitIdle :: rest

/-- `glyph b0, ..., b7` (R82).

DEDUCED: R82 gives the operands no width; each is any imm32, as the `wr` it expands to takes (R80), and goes into DATA
whole. GLYPHr keeps its low byte. [log 37] -/
def asmGlyph (b0 b1 b2 b3 b4 b5 b6 b7 : Word) : HostProgram :=
  [.send (asmWr (.glyph 0) b0), .send (asmWr (.glyph 1) b1), .send (asmWr (.glyph 2) b2), .send (asmWr (.glyph 3) b3),
   .send (asmWr (.glyph 4) b4), .send (asmWr (.glyph 5) b5), .send (asmWr (.glyph 6) b6), .send (asmWr (.glyph 7) b7)]
/-- `draw S, c, x, y`, its `wait_idle` included (R82); `g` is the `.G` suffix. The operands are words, as for `glyph`.
[log 37] -/
def asmDraw (sink : Sink) (g : Bool) (c x y : Word) : HostProgram :=
  [.send (asmWr .code c), .send (asmWr .orgX x), .send (asmWr .orgY y), .send (asmCmd (.draw sink g)), .waitIdle]

end Sys2Proof.Machine
end

