-- ==== Sys2Proof/Machine/Layout.lean ====
section
/-! DEFINITION. The host software contract of 48_host_layout.md: text layout and metrics, and the program the
driver runs. R6 leaves it out of the hardware; a model of a host program needs it. A text is a list of bytes. -/

namespace Sys2Proof.Machine

/-- The newline character, code 10 (R166). -/
def newline : Byte := 10

/-- The characters up to the end or the first NUL (R166). [log 27] -/
def textChars : List Byte → List Byte
  | [] => []
  | c :: rest => if c = 0 then [] else c :: textChars rest

/-- One call of `on_glyph(code, x, y)` (R166). -/
structure GlyphCall where
  ch : Byte
  x : Int
  y : Int
deriving DecidableEq, Repr

/-- The cursor after one character (R166, R172). -/
def cursorNext (sx : Int) (ch : Byte) (cur : Int × Int) : Int × Int :=
  if ch = newline then (sx, cur.2 + Config.GH) else (cur.1 + Config.GW, cur.2)

/-- The scan of `layout`: the calls in order and the final cursor. -/
def layoutFrom (sx : Int) : List Byte → Int × Int → List GlyphCall × (Int × Int)
  | [], cur => ([], cur)
  | ch :: rest, cur =>
    let tail := layoutFrom sx rest (cursorNext sx ch cur)
    if ch = newline then tail else (⟨ch, cur.1, cur.2⟩ :: tail.1, tail.2)

/-- The calls `layout(text, sx, sy)` makes, in order (R166). -/
def layoutCalls (text : List Byte) (sx sy : Int) : List GlyphCall := (layoutFrom sx (textChars text) (sx, sy)).1

/-- The value `layout(text, sx, sy)` returns: `cx - sx` at the end of the scan (R166, R169). -/
def layoutReturn (text : List Byte) (sx sy : Int) : Int := (layoutFrom sx (textChars text) (sx, sy)).2.1 - sx

/-- The scan of `text_width`: at a newline the maximum is updated first, then the line is reset (R170). -/
def widthFrom : List Byte → Nat → Nat → Nat
  | [], line, maxw => max maxw line
  | ch :: rest, line, maxw =>
    if ch = newline then widthFrom rest 0 (max maxw line) else widthFrom rest (line + Config.GW) maxw

/-- `text_width(text)` (R170). -/
def textWidth (text : List Byte) : Nat := widthFrom (textChars text) 0 0

/-- `text_height(text)` (R171). [log 27] -/
def textHeight (text : List Byte) : Nat :=
  Config.GH * (1 + ((textChars text).filter fun c => c == newline).length)

/-- The CODE word for a character: the driver may sign-extend or zero-extend a byte (R174). -/
def charCode (signedChar : Bool) (ch : Byte) : Word := if signedChar then ch.signExtend 32 else ch.setWidth 32

/-- `on_glyph(ch, x, y)`: one `draw`, which waits for the DRAW command to complete, with the cursor written as `wrap32`
(R165, R167, R168). -/
def onGlyph (sink : Sink) (signedChar : Bool) (c : GlyphCall) : HostProgram :=
  asmDraw sink false (charCode signedChar c.ch) (BitVec.ofInt 32 c.x) (BitVec.ofInt 32 c.y)

/-- The driver's program for a text (R166 to R168): no character's CMD write is presented before the wait of the one
before it has read BUSY = 0. -/
def layoutProgram (sink : Sink) (signedChar : Bool) (text : List Byte) (sx sy : Int) : HostProgram :=
  (layoutCalls text sx sy).flatMap (onGlyph sink signedChar)

end Sys2Proof.Machine
end

