-- ==== Sys2Proof/Machine/Driver.lean ====
section
/-! DEFINITION. A host program beside the machine: whose turn it is, one turn, and a run. The host agent moves between
any two steps of the others (R90); its program is no state of the block. [log 36] -/

namespace Sys2Proof.Machine

/-- A host program and the machine it drives. -/
structure Driven where
  prog : HostProgram
  machine : State
deriving DecidableEq, Repr

/-- Who moves next (R90). [log 36] -/
inductive Turn where
  /-- the host presents its next transaction, as a step of its own -/
  | host
  /-- a rising edge of `clk` at which the host presents its next transaction, if it has one (R213) -/
  | edge (pxReady fbReady : Bool)
  /-- anything else of the environment -/
  | other (i : Input)
deriving DecidableEq, Repr

/-- One turn. The host reads the response of its transaction and goes on with its program (R82). -/
def driverTurn (turn : Turn) (d : Driven) : Host.Outcome Driven Fault Refusal :=
  match turn with
  | .host =>
    match nextTxn d.prog with
    | none => .next d
    | some t => onNext (step (presentNext t d.machine)) fun u => .next ⟨advance u d.prog, u⟩
  | .edge px fb =>
    let pins : Pins := { rst := false, txn := nextTxn d.prog, pxReady := px, fbReady := fb }
    onNext (step (presentInput (.clock pins) d.machine)) fun u => .next ⟨advance u d.prog, u⟩
  | .other i => onNext (step (presentInput i d.machine)) fun u => .next ⟨d.prog, u⟩

/-- A run, turn by turn. -/
def drive : List Turn → Driven → Host.Outcome Driven Fault Refusal
  | [], d => .next d
  | turn :: rest, d => onNext (driverTurn turn d) (drive rest)

end Sys2Proof.Machine
end

