-- ==== Sys2Proof/Safety.lean ====
section
/-! DEFINITION. What claims are stated in: the outputs of a DRAW command as the loop of R126, how far a running command
has come, the invariant of every step, and runs. -/

namespace Sys2Proof.Machine

/-! ### The outputs of a command, as the loop of R126 -/

/-- The bit the loop of R126 passes to the sink: set, and inside the clip. -/
def passes (l : Latch) (r k : Nat) : Bool := l.gl.bit r k && inClip l r k

/-- The payload of a buffer sink's bit; the stream sink has none. -/
def fbPayload (l : Latch) (r k : Nat) : Option FbWrite :=
  match l.sink with
  | .cb => none
  | .mono => some (monoWrite l r k)
  | .rgb565 => some (rgb565Write l r k)

/-- The payload of the stream sink's bit; a buffer sink has none. -/
def pxPayload (l : Latch) (r k : Nat) : Option PixelEvent :=
  match l.sink with
  | .cb => some (pxEvent l r k)
  | .mono => none
  | .rgb565 => none

/-- The loop of R126 over rows 0..7 and, in each, columns 0..7, collecting one kind of output. -/
def drawLoop {α : Type} (payload : Nat → Nat → Option α) (l : Latch) : List α :=
  (List.range 8).flatMap fun r =>
    (List.range 8).filterMap fun k => if passes l r k then payload r k else none

/-- The same outputs for the first `n` bits only, bit `i` being row `i / 8`, column `i % 8` (R36). -/
def firstBits {α : Type} (payload : Nat → Nat → Option α) (l : Latch) (n : Nat) : List α :=
  (List.range n).filterMap fun i => if passes l (i / 8) (i % 8) then payload (i / 8) (i % 8) else none

/-- The stream events of a command, in order (R126, R132). -/
def drawEvents (l : Latch) : List PixelEvent := drawLoop (pxPayload l) l
/-- The framebuffer writes of a command, in order (R126, R153, R154). -/
def drawWrites (l : Latch) : List FbWrite := drawLoop (fbPayload l) l

/-- Memory after a list of writes, applied in their order (R158). -/
def applyWrites (ws : List FbWrite) (m : Memory) : Memory := ws.foldl (fun m w => memWrite w m) m

/-- The last write of a list that stores to an address, as the byte it leaves there (R158). -/
def lastByte (ws : List FbWrite) (a : Nat) : Option Byte := (applyWrites ws []).read a

/-! ### The clip as the source's stopping loop (R148) -/

/-- The columns of row `r` that the stopping loop reaches: it stops at the first column that meets FB_W. -/
def reachedCols (l : Latch) : List Nat := (List.range 8).takeWhile fun k => decide (pixelX l k < l.w.toInt)
/-- The rows the stopping loop reaches: it stops at the first row that meets FB_H. -/
def reachedRows (l : Latch) : List Nat := (List.range 8).takeWhile fun r => decide (pixelY l r < l.h.toInt)

/-- The source's loop: nothing when the origin fails, otherwise rows and columns until the first that fails (R148). -/
def stoppingWrites (l : Latch) : List FbWrite :=
  if l.ok then
    (reachedRows l).flatMap fun r =>
      (reachedCols l).filterMap fun k => if l.gl.bit r k then fbPayload l r k else none
  else []

/-! ### Progress of a running command -/

/-- The offered and not yet taken stream event, as a list. -/
def pendingEvents (s : State) : List PixelEvent := s.pxOffer.toList
/-- The offered and not yet taken framebuffer write, as a list. -/
def pendingWrites (s : State) : List FbWrite := s.fbOffer.toList

/-- How far the running command has come: since its accept it has taken `emitCount` outputs, and these followed by the
pending one are exactly the outputs of the first `bidx` bits, in order (R126, R136). -/
def Progress (s : State) : Prop :=
  s.seq = .expand →
    ∃ (events : List PixelEvent) (writes : List FbWrite) (before : List PixelEvent) (logged : List FbWrite),
      s.stream = before ++ events ∧ s.fbLog = logged ++ writes
        ∧ events ++ pendingEvents s = firstBits (pxPayload s.latch) s.latch s.bidx.toNat
        ∧ writes ++ pendingWrites s = firstBits (fbPayload s.latch) s.latch s.bidx.toNat
        ∧ events.length + writes.length = s.regs.emitCount.toNat

/-! ### The invariant -/

/-- What ROWSH holds: the untested bits of the current row, the next one in bit 7 (R36). At a row start it is empty. -/
def rowshOk (s : State) : Prop := s.col ≠ 0 → s.rowsh = s.latch.gl.row s.row <<< s.col

/-- What the latch of a running command satisfies: L.OK is the origin check (R34, R145), and a 565 base is even
(R152). -/
def latchOk (l : Latch) : Prop :=
  match l.sink with
  | .cb => l.ok = true
  | .mono => l.ok = originOk l.ox l.oy l.w l.h
  | .rgb565 => l.ok = originOk l.ox l.oy l.w l.h ∧ l.base.getLsbD 0 = false

/-- The invariant of every step. -/
structure Inv (s : State) : Prop where
  /-- memory is in its canonical form -/
  memWf : s.mem.wf = true
  /-- BIDX is in [0, 64] (R36) -/
  bidxLe : s.bidx.toNat ≤ 64
  /-- EMIT_COUNT is in [0, 64] (R32) -/
  emitLe : s.regs.emitCount.toNat ≤ 64
  /-- an output is pending only while a command runs (R37) -/
  pendBusy : s.pend = true → s.seq = .expand
  /-- DONE is 0 while a command runs, until it completes (R24, R99, R135) -/
  doneIdle : s.seq = .expand → s.regs.done = false
  /-- while `rst` is 1 no command runs (R200) -/
  rstIdle : s.rst = true → s.seq = .idle
  /-- ROWSH of a running command (R36) -/
  rowsh : s.seq = .expand → rowshOk s
  /-- the latch of a running command (R34) -/
  latch : s.seq = .expand → latchOk s.latch
  /-- the outputs so far are those of the loop (R126) -/
  progress : Progress s

/-! ### What the next input is -/

/-- The host transaction the next step presents outside reset, if any. -/
def headTxn (s : State) : Option HT :=
  match s.inputs with
  | .host t :: _ => some t
  | .clock p :: _ => if p.rst then none else p.txn
  | _ => none

/-- Whether an input is a rising edge with `rst` = 1. -/
@[simp] def Input.resets : Input → Bool
  | .rst level => level
  | .clock p => p.rst
  | _ => false

/-- Whether the next step is a rising edge with `rst` = 1. -/
def headResets (s : State) : Bool :=
  match s.inputs with
  | i :: _ => i.resets
  | [] => false

/-- Whether an input raises the ready of the latched sink (R134). -/
def Input.readies (s : State) : Input → Bool
  | .pxReady => sinkReady true false s
  | .fbReady => sinkReady false true s
  | .clock p => sinkReady p.pxReady p.fbReady s
  | _ => false

/-- Whether the next step raises the ready of the latched sink, at an edge with `rst` = 1 too (R15, R16). -/
def headReadies (s : State) : Bool :=
  match s.inputs with
  | i :: _ => i.readies s
  | [] => false

/-- Whether an input takes the pending output (R134), at an edge with `rst` = 1 too (R15, R16). -/
def Input.takes (s : State) (i : Input) : Bool := s.pend && i.readies s

/-- Whether an input is a turn of the block: its own step, or an edge without reset (R90, R213). -/
def Input.movesBlock : Input → Bool
  | .block => true
  | .clock p => !p.rst
  | _ => false

/-- `HostAccess` of the four fields of a transaction, written out (R91, R202). -/
def accessOfFields (t : HT) (s : State) : State :=
  if s.rst then { s with hRdata := 0, hErr := false }
  else if htSz t ≠ 2 ∨ (htOff t).toNat % 4 ≠ 0 then { s with hRdata := 0, hErr := true }
  else if htW t = false then
    { s with hRdata := readReg (BitVec.ofNat 5 ((htOff t).toNat / 4)) s, hErr := false }
  else
    { writeReg (BitVec.ofNat 5 ((htOff t).toNat / 4)) (htData t) s with hRdata := 0, hErr := false }

/-- The state that R99 gives after the accept of a DRAW command, written out in one record. -/
def acceptedDraw (sink : Sink) (g : Bool) (s : State) : State :=
  let gl := if g then s.regs.glyph else lookupGlyph s.regs.code
  { s with
    regs := { s.regs with done := false, emitCount := 0, glyph := gl }
    latch :=
      { sink := sink, ox := s.regs.orgX, oy := s.regs.orgY, color := s.regs.color, tag := s.regs.tag
        base := s.regs.fbBase, w := s.regs.fbW, h := s.regs.fbH, gl := gl
        ok := match sink with
          | .cb => true
          | .mono => originOk s.regs.orgX s.regs.orgY s.regs.fbW s.regs.fbH
          | .rgb565 => originOk s.regs.orgX s.regs.orgY s.regs.fbW s.regs.fbH }
    bidx := 0, rowsh := 0, pend := false, seq := .expand, hRdata := 0, hErr := false }

/-! ### Runs -/

/-- The rising edges of a schedule in which nothing stalls and the host is silent (R213, R215). -/
def freeClock : Input := .clock { rst := false, txn := none, pxReady := true, fbReady := true }

/-- `n` steps of the machine. -/
def runSteps (n : Nat) (s : State) : StepResult := Host.Core.run Sys2Proof.core n s

/-! ### The premise TAKE_LIVENESS (R9, R211; S6 of 93) -/

/-- Everything an environment does, for ever: its inputs by number. -/
abbrev Environment := Nat → Input

/-- The first `n` steps against an environment. -/
def envRun (env : Environment) : Nat → State → StepResult
  | 0, s => .next s
  | n + 1, s => onNext (envRun env n s) fun u => step (presentInput (env n) u)

/-- TAKE_LIVENESS, the platform duty of R211: every offer is taken within finite time, or a reset withdraws it. A premise of
statements, no part of any step (R9, S6 of 93). [log 35] -/
def TakeLiveness (env : Environment) (s : State) : Prop :=
  ∀ n u, envRun env n s = .next u → u.pend = true →
    ∃ m v, n ≤ m ∧ envRun env m s = .next v ∧ ((env m).takes v = true ∨ (env m).resets = true)

/-- The block goes on having turns, as a running clock gives it (R13). [log 35] -/
def BlockKeepsMoving (env : Environment) : Prop := ∀ n, ∃ m, n ≤ m ∧ (env m).movesBlock = true

/-! ### What the layout driver draws -/

/-- The latch of the DRAW command of one call of `on_glyph`, the other parameters as the registers hold them (R76, R99,
R167). -/
def callLatch (sink : Sink) (signedChar : Bool) (r : Regs) (c : GlyphCall) : Latch :=
  sampleLatch sink
    { r with code := charCode signedChar c.ch, orgX := BitVec.ofInt 32 c.x, orgY := BitVec.ofInt 32 c.y
             glyph := lookupGlyph (charCode signedChar c.ch) }

/-- A turn that is no host transaction and no reset edge but the driver's own (R168). -/
def Turn.servesDriver : Turn → Bool
  | .host => true
  | .edge _ _ => true
  | .other (.host _) => false
  | .other (.rst level) => !level
  | .other (.clock p) => !p.rst && p.txn.isNone
  | .other _ => true

end Sys2Proof.Machine
end

