-- ==== Sys2Proof/Certificates/Slice0/Obligations.lean ====
section
/-! DEFINITION. The statements for the provers. Each docstring names the rule it formalises. -/

open Sys2Proof Sys2Proof.Machine

/-! ### Reset -/

/-- 10_state.md section 5 (R41) for State.reset, and 70_reset_and_hazards.md R200's outputs. That the zero of L.SINK is
CB is the model's choice [log 7]; the response ports and the platform's side are the model's choice too [log 5, 10, 18]
and are not stated here. -/
def Obligations.ResetLeavesEveryElementZero : Prop :=
  let s := State.reset
  readReg 0 s = 0x7E200808
    ∧ (∀ n : BitVec 5, n ≠ 0 → readReg n s = 0)
    ∧ s.regs.ctrl = 0 ∧ s.regs.done = false ∧ s.regs.errCmd = false ∧ s.regs.errBusy = false
    ∧ s.regs.errAlign = false ∧ s.regs.emitCount = 0 ∧ s.regs.glyph = ⟨0, 0, 0, 0, 0, 0, 0, 0⟩
    ∧ s.latch = ⟨.cb, 0, 0, 0, 0, 0, 0, 0, ⟨0, 0, 0, 0, 0, 0, 0, 0⟩, false⟩
    ∧ s.seq = .idle ∧ s.bidx = 0 ∧ s.rowsh = 0 ∧ s.pend = false
    ∧ s.px = ⟨0, 0, 0, 0⟩ ∧ s.fb = ⟨0, 0, 0⟩
    ∧ s.pxValid = false ∧ s.fbValid = false ∧ s.irq = false

/-- R201, with R200, R204 and the takes of R15 and R16: an edge with `rst` = 1, from any state, as its own input or in a
clock edge; and the release of the pin. What was taken before the edge stays taken; a pending output whose ready is 1 at
the edge is taken at it, and one whose ready is 0 is withdrawn. The model's choices in it: the input `rst`, which carries no
ready, and what its release leaves [log 32, 34], and that the model's own `freeCount` and `agentData` are kept [log 13, 15].
The value of L.SINK, whose zero the spec does not name, is left out [log 7]. -/
def Obligations.ResetEdgeAbortsAndKeepsWhatWasTaken : Prop :=
  (∀ (s : State) (i : Input) (rest : List Input), s.inputs = i :: rest → headResets s = true →
    ∃ t, step s = .next t
      ∧ (s.pend = false ∨ i.readies s = false → t.mem = s.mem ∧ t.stream = s.stream ∧ t.fbLog = s.fbLog)
      ∧ (s.pend = true → i.readies s = true → s.latch.sink = .cb →
          t.mem = s.mem ∧ t.stream = s.stream ++ [s.px] ∧ t.fbLog = s.fbLog)
      ∧ (s.pend = true → i.readies s = true → s.latch.sink ≠ .cb →
          t.mem = memWrite s.fb s.mem ∧ t.stream = s.stream ∧ t.fbLog = s.fbLog ++ [s.fb])
      ∧ t.rst = true ∧ t.pxOffer = none ∧ t.fbOffer = none
      ∧ t.regs = State.reset.regs ∧ t.latch = { State.reset.latch with sink := t.latch.sink } ∧ t.seq = .idle ∧ t.bidx = 0 ∧ t.rowsh = 0
      ∧ t.pend = false ∧ t.px = State.reset.px ∧ t.fb = State.reset.fb ∧ t.irq = false
      ∧ blockStep t = t ∧ t.inputs = rest ∧ t.agentData = s.agentData ∧ t.freeCount = s.freeCount)
  ∧ (∀ (s : State) (rest : List Input), s.inputs = .rst false :: rest →
    step s = .next { s with inputs := rest, rst := false })

/-- R202: while `rst` = 1 a host transaction, whatever it is, has no effect and answers 0 without error, presented by
itself or at a clock edge with `rst` = 1 [log 31]. -/
def Obligations.HostTransactionsHaveNoEffectInReset : Prop :=
  (∀ (s : State) (t : HT) (rest : List Input), s.inputs = .host t :: rest → s.rst = true →
    step s = .next { s with inputs := rest, hRdata := 0, hErr := false })
  ∧ (∀ (s : State) (t : HT) (px fb : Bool) (rest : List Input),
    s.inputs = .clock { rst := true, txn := some t, pxReady := px, fbReady := fb } :: rest →
    step s = step { s with inputs := .clock { rst := true, txn := none, pxReady := px, fbReady := fb } :: rest }
      ∧ ∃ u, step s = .next u ∧ u.hRdata = 0 ∧ u.hErr = false)

/-! ### Encoding -/

/-- R70, R71, R75: every well-formed instruction, with every operand at every value, is read back from its words. -/
def Obligations.DecodeOfEncodeIsTheInstruction : Prop :=
  ∀ i : Instr, i.WellFormed → decodeHt (encode i) = .ok i

/-- The other direction: what decodes is well formed, and its encoding is the transaction itself, but for the ignored
DATA of a read. -/
def Obligations.EncodeOfDecodeIsTheTransaction : Prop :=
  ∀ (t : HT) (i : Instr), decodeHt t = .ok i →
    i.WellFormed ∧ (htW t = true → encode i = t) ∧ (htW t = false → encode i = packHt false (htSz t) (htOff t) 0)

/-- R77: exactly the words outside the list of R75 are illegal, and a write of one to CMD of an idle block sets ERR_CMD
and does nothing else. -/
def Obligations.IllegalWordsSetErrCmdOnly : Prop :=
  (∀ w : Word,
    (∃ why, decodeCommand w = .rejected why) ↔
      w ∉ ([0x0, 0x1, 0x2, 0x12, 0x3, 0x13, 0x4, 0x14] : List Word))
  ∧ (∀ w : Word, (∃ why, decodeCommand w = .rejected why) ↔
      (w >>> 5 ≠ 0 ∨ 5 ≤ w.toNat % 16 ∨ w = 0x10 ∨ w = 0x11))
  ∧ ([0x0, 0x1, 0x2, 0x12, 0x3, 0x13, 0x4, 0x14] : List Word).Nodup
  ∧ (∀ (w : Word) (s : State), s.rst = false → s.seq = .idle → (∃ why, decodeCommand w = .rejected why) →
      exec (.wr 0x0C w) s = .next { s with regs := { s.regs with errCmd := true }, hRdata := 0, hErr := false })

/-- R71, R75: words written out from the spec's encodings decode to the instructions they stand for. -/
def Obligations.WordsOfTheSpecDecode : Prop :=
  decodeHt 0x30C00000000#42 = .ok .nop ∧ decodeHt 0x30C00000001#42 = .ok .lookup
    ∧ decodeHt 0x30C00000002#42 = .ok .drawCb ∧ decodeHt 0x30C00000012#42 = .ok .drawCbG
    ∧ decodeHt 0x30C00000003#42 = .ok .drawMono ∧ decodeHt 0x30C00000013#42 = .ok .drawMonoG
    ∧ decodeHt 0x30C00000004#42 = .ok .draw565 ∧ decodeHt 0x30C00000014#42 = .ok .draw565G
    ∧ decodeHt 0x31000000041#42 = .ok (.wr 0x10 0x41) ∧ decodeHt 0x10800000000#42 = .ok (.rd 0x08)

/-! ### A step runs the decoded instruction -/

/-- R70, R90: when the host's next transaction decodes to `i`, the step is exec of `i` at the state with that input
used up. -/
def Obligations.StepRunsTheDecodedInstruction : Prop :=
  ∀ (s : State) (t : HT) (rest : List Input) (i : Instr),
    s.inputs = .host t :: rest → decodeHt t = .ok i → step s = exec i { s with inputs := rest }

/-- R70: a table word that decodes, presented next, is run by the very next step. -/
def Obligations.FetchedTableWordRuns : Prop :=
  ∀ (s : State) (nbits w : Nat) (i : Instr),
    decodeTableWord nbits w = some i → step (s.withFetchWord nbits w) = exec i s

/-- R91: whatever the 42 bits of a transaction are, decoded or not, the step is HostAccess of its four fields. A rising edge
without reset is that access, where it presents a transaction, then the take and the block's step, where a command was
running before it: this clause is the model's reading of R90 and R213, DEDUCED [log 17]. -/
def Obligations.StepIsHostAccessOfTheFields : Prop :=
  (∀ (s : State) (t : HT) (rest : List Input), s.inputs = .host t :: rest →
    step s = .next (accessOfFields t { s with inputs := rest }))
  ∧ (∀ (s : State) (txn : Option HT) (px fb : Bool) (rest : List Input),
    s.inputs = .clock { rst := false, txn := txn, pxReady := px, fbReady := fb } :: rest →
    let atEdge : State := { s with inputs := rest, rst := false }
    let accessed := match txn with
      | none => atEdge
      | some t => accessOfFields t atEdge
    step s = .next (if s.seq = .expand then blockStep (takeIfReady px fb accessed) else accessed))

/-- R70, R75, R99: writing a legal command word to CMD as data is running that command. -/
def Obligations.CmdWriteOfALegalWordIsTheCommand : Prop :=
  ∀ (w : Word) (c : Command) (s : State), decodeCommand w = .ok c → exec (.wr 0x0C w) s = exec c.toInstr s

/-- R180: every instruction answers a next state in every state: a command its accept where the checks pass, and otherwise
the answer of R91, R99 or R202 (a response, a STATUS error bit). The one step that answers none is another agent's write of
a byte of the buffer that a running DRAW_MONO or DRAW_565 targets (R62). What counts as that buffer, its W * H elements from
L.BASE, and the form of the refusal are the model's choice [log 14]; so is the second address of the access, modulo 2^32
[log 15]. -/
def Obligations.BlockIsTotal : Prop :=
  (∀ (i : Instr) (s : State), ∃ t, exec i s = .next t)
  ∧ (∀ s : State, (∃ t, step s = .next t)
      ∨ (step s = .refused .concurrentBufferWrite ∧ s.seq = .expand ∧ s.latch.sink ≠ .cb
          ∧ ∃ w rest, s.inputs = .agentWrite w :: rest ∧ 0 < s.latch.w.toInt ∧ 0 < s.latch.h.toInt
            ∧ ∃ a : Nat, w.covers a = true ∧ ((a + 2 ^ 32 - s.latch.base.toNat) % 2 ^ 32 : Int)
              < s.latch.w.toInt * s.latch.h.toInt * (if s.latch.sink = .mono then 1 else 2)))

/-! ### Reads -/

/-- R92: what a word read of each named register answers. -/
def Obligations.ReadsOfNamedRegisters : Prop :=
  ∀ s : State, s.rst = false →
    exec (.rd 0x00) s = .next { s with hRdata := 0x7E200808, hErr := false }
    ∧ (∃ d : Word, exec (.rd 0x04) s = .next { s with hRdata := d, hErr := false }
        ∧ d.getLsbD 0 = s.regs.ctrl.getLsbD 0 ∧ d.getLsbD 1 = s.regs.ctrl.getLsbD 1
        ∧ ∀ j, 2 ≤ j → d.getLsbD j = false)
    ∧ (∃ d : Word, exec (.rd 0x08) s = .next { s with hRdata := d, hErr := false }
        ∧ (d.getLsbD 0 = true ↔ s.seq ≠ .idle) ∧ d.getLsbD 1 = s.regs.done ∧ d.getLsbD 2 = s.regs.errCmd
        ∧ d.getLsbD 3 = s.regs.errBusy ∧ d.getLsbD 4 = s.regs.errAlign ∧ ∀ j, 5 ≤ j → d.getLsbD j = false)
    ∧ exec (.rd 0x0C) s = .next { s with hRdata := 0, hErr := false }
    ∧ exec (.rd 0x10) s = .next { s with hRdata := s.regs.code, hErr := false }
    ∧ exec (.rd 0x14) s = .next { s with hRdata := s.regs.orgX, hErr := false }
    ∧ exec (.rd 0x18) s = .next { s with hRdata := s.regs.orgY, hErr := false }
    ∧ exec (.rd 0x1C) s = .next { s with hRdata := s.regs.color, hErr := false }
    ∧ exec (.rd 0x20) s = .next { s with hRdata := s.regs.tag, hErr := false }
    ∧ exec (.rd 0x24) s = .next { s with hRdata := s.regs.fbBase, hErr := false }
    ∧ exec (.rd 0x28) s = .next { s with hRdata := s.regs.fbW, hErr := false }
    ∧ exec (.rd 0x2C) s = .next { s with hRdata := s.regs.fbH, hErr := false }
    ∧ (∃ d : Word, exec (.rd 0x30) s = .next { s with hRdata := d, hErr := false }
        ∧ d.toNat = s.regs.emitCount.toNat)
    ∧ (∀ r : Fin 8, ∃ d : Word,
        exec (.rd (BitVec.ofNat 7 (0x40 + 4 * r.val))) s = .next { s with hRdata := d, hErr := false }
        ∧ d.toNat = (s.regs.glyph.row r.val).toNat)
    ∧ (∀ n : Nat, n < 32 → (12 < n ∧ n < 16 ∨ 23 < n) →
        exec (.rd (BitVec.ofNat 7 (4 * n))) s = .next { s with hRdata := 0, hErr := false })

/-- R94: a read, of any offset and in any state, changes nothing but the response, and answers the same after any other
reads, which can only have left another response. -/
def Obligations.ReadsHaveNoSideEffects : Prop :=
  ∀ (off : BitVec 7) (s : State), ∃ (d : Word) (e : Bool),
    exec (.rd off) s = .next { s with hRdata := d, hErr := e }
      ∧ ∀ (d' : Word) (e' : Bool),
        exec (.rd off) { s with hRdata := d', hErr := e' } = .next { s with hRdata := d, hErr := e }

/-! ### Writes -/

/-- R95: a word write to each read-write register, and nothing else changes. -/
def Obligations.WritesOfReadWriteRegisters : Prop :=
  ∀ (s : State) (d : Word), s.rst = false →
    (∃ c : BitVec 2, c.toNat = d.toNat % 4 ∧
      exec (.wr 0x04 d) s = .next { s with regs := { s.regs with ctrl := c }, hRdata := 0, hErr := false })
    ∧ exec (.wr 0x10 d) s = .next { s with regs := { s.regs with code := d }, hRdata := 0, hErr := false }
    ∧ exec (.wr 0x14 d) s = .next { s with regs := { s.regs with orgX := d }, hRdata := 0, hErr := false }
    ∧ exec (.wr 0x18 d) s = .next { s with regs := { s.regs with orgY := d }, hRdata := 0, hErr := false }
    ∧ exec (.wr 0x1C d) s = .next { s with regs := { s.regs with color := d }, hRdata := 0, hErr := false }
    ∧ exec (.wr 0x20 d) s = .next { s with regs := { s.regs with tag := d }, hRdata := 0, hErr := false }
    ∧ exec (.wr 0x24 d) s = .next { s with regs := { s.regs with fbBase := d }, hRdata := 0, hErr := false }
    ∧ exec (.wr 0x28 d) s = .next { s with regs := { s.regs with fbW := d }, hRdata := 0, hErr := false }
    ∧ exec (.wr 0x2C d) s = .next { s with regs := { s.regs with fbH := d }, hRdata := 0, hErr := false }
    ∧ (∀ r : Fin 8, ∃ g : Glyph,
        exec (.wr (BitVec.ofNat 7 (0x40 + 4 * r.val)) d) s
          = .next { s with regs := { s.regs with glyph := g }, hRdata := 0, hErr := false }
        ∧ (g.row r.val).toNat = d.toNat % 256
        ∧ ∀ q : Fin 8, q ≠ r → g.row q.val = s.regs.glyph.row q.val)

/-- R96, R98: a word write to CAPS, EMIT_COUNT or a reserved offset is ignored without error. -/
def Obligations.IgnoredWritesChangeNothing : Prop :=
  ∀ (s : State) (d : Word) (n : Nat), s.rst = false → n < 32 → (n = 0 ∨ n = 12 ∨ 12 < n ∧ n < 16 ∨ 23 < n) →
    exec (.wr (BitVec.ofNat 7 (4 * n)) d) s = .next { s with hRdata := 0, hErr := false }

/-- R97: a write to STATUS clears exactly the bits written as 1, and a completion at the same clock edge wins. -/
def Obligations.StatusWriteClearsOnesAndASetWins : Prop :=
  (∀ (s : State) (d : Word), s.rst = false →
    exec (.wr 0x08 d) s = .next { s with
      regs := { s.regs with
        done := if d.getLsbD 1 then false else s.regs.done
        errCmd := if d.getLsbD 2 then false else s.regs.errCmd
        errBusy := if d.getLsbD 3 then false else s.regs.errBusy
        errAlign := if d.getLsbD 4 then false else s.regs.errAlign }
      hRdata := 0, hErr := false })
  ∧ (∀ (s : State) (d : Word) (px fb : Bool) (rest : List Input),
      s.inputs = .clock { rst := false, txn := some (encode (.wr 0x08 d)), pxReady := px, fbReady := fb } :: rest →
      s.seq = .expand → s.bidx = 64 → (s.pend = false ∨ sinkReady px fb s = true) →
      ∃ t, step s = .next t ∧ t.regs.done = true ∧ t.seq = .idle
        ∧ t.regs.errCmd = (if d.getLsbD 2 then false else s.regs.errCmd)
        ∧ t.regs.errBusy = (if d.getLsbD 3 then false else s.regs.errBusy)
        ∧ t.regs.errAlign = (if d.getLsbD 4 then false else s.regs.errAlign))

/-- R72, R78, R91: a transaction that is not a word access, or whose offset is misaligned, gets the bus error and
changes nothing, a CMD write and a STATUS read among them. -/
def Obligations.BusErrorsChangeNothing : Prop :=
  (∀ (s : State) (t : HT) (rest : List Input), s.rst = false → s.inputs = .host t :: rest →
    (htSz t ≠ 2 ∨ (htOff t).getLsbD 0 = true ∨ (htOff t).getLsbD 1 = true) →
      step s = .next { s with inputs := rest, hRdata := 0, hErr := true })
  ∧ (∀ (s : State) (off : BitVec 7) (d : Word), s.rst = false →
      (off.getLsbD 0 = true ∨ off.getLsbD 1 = true) →
      exec (.wr off d) s = .next { s with hRdata := 0, hErr := true }
        ∧ exec (.rd off) s = .next { s with hRdata := 0, hErr := true })

/-! ### Commands -/

/-- R183: the order of the checks of one CMD write; each refusal sets one bit and changes nothing else; a bus error
comes before them and sets none. -/
def Obligations.CmdChecksRunInOrder : Prop :=
  (∀ (s : State) (w : Word), s.rst = false → s.seq ≠ .idle →
    exec (.wr 0x0C w) s = .next { s with regs := { s.regs with errBusy := true }, hRdata := 0, hErr := false })
  ∧ (∀ (s : State) (w : Word) (why : Reject), s.rst = false → s.seq = .idle → decodeCommand w = .rejected why →
    exec (.wr 0x0C w) s = .next { s with regs := { s.regs with errCmd := true }, hRdata := 0, hErr := false })
  ∧ (∀ (s : State) (w : Word), s.rst = false → s.seq = .idle → (w = 0x4 ∨ w = 0x14) → s.regs.fbBase.toNat % 2 = 1 →
    exec (.wr 0x0C w) s = .next { s with regs := { s.regs with errAlign := true }, hRdata := 0, hErr := false })
  ∧ (∀ (s : State) (sz : BitVec 2) (w : Word) (rest : List Input), s.rst = false → sz ≠ 2 →
    s.inputs = .host (packHt true sz 0x0C w) :: rest →
    step s = .next { s with inputs := rest, hRdata := 0, hErr := true })

/-- R99, R206: every command presented while BUSY is discarded, and sets ERR_BUSY only. -/
def Obligations.CommandsWhileBusyAreDiscarded : Prop :=
  ∀ (s : State) (i : Instr), s.rst = false → s.seq = .expand →
    i ∈ [Instr.nop, .lookup, .drawCb, .drawCbG, .drawMono, .drawMonoG, .draw565, .draw565G] →
    exec i s = .next { s with regs := { s.regs with errBusy := true }, hRdata := 0, hErr := false }

/-- R115. -/
def Obligations.NopCompletesAtOnce : Prop :=
  (∀ s : State, s.rst = false → s.seq = .idle →
    exec .nop s = .next
      { s with regs := { s.regs with done := true, emitCount := 0 }, hRdata := 0, hErr := false })
  ∧ (∀ s : State, s.rst = false → s.seq = .expand →
    exec .nop s = .next { s with regs := { s.regs with errBusy := true }, hRdata := 0, hErr := false })
  ∧ (∀ s : State, s.rst = false → s.seq = .idle →
    exec (.wr 0x0C 0x10) s = .next { s with regs := { s.regs with errCmd := true }, hRdata := 0, hErr := false })

/-- R116, with R112 and R117: LOOKUP writes the eight rows of the glyph of CODE, the bytes of FONT_ROM at its normalised
code, and completes in the same step; for CODE = 126 they are FONT_ROM[94*8 + r]. -/
def Obligations.LookupLoadsTheGlyphOfCode : Prop :=
  (∀ s : State, s.rst = false → s.seq = .idle →
    ∃ g : Glyph,
      (∀ r, r < 8 → g.row r = Config.fontRom
        (((if 32 ≤ s.regs.code.toNat ∧ s.regs.code.toNat ≤ 126 then s.regs.code.toNat else 32) - 32) * 8 + r))
      ∧ (s.regs.code = 126 → ∀ r, r < 8 → g.row r = Config.fontRom (94 * 8 + r))
      ∧ exec .lookup s = .next
        { s with regs := { s.regs with done := true, emitCount := 0, glyph := g }, hRdata := 0, hErr := false })
  ∧ (∀ s : State, s.rst = false → s.seq = .expand →
    exec .lookup s = .next { s with regs := { s.regs with errBusy := true }, hRdata := 0, hErr := false })
  ∧ (∀ s : State, s.rst = false → s.seq = .idle →
    exec (.wr 0x0C 0x11) s = .next { s with regs := { s.regs with errCmd := true }, hRdata := 0, hErr := false })

/-- R99, R117, R125: the accept of each DRAW command, whole. -/
def Obligations.DrawCommandsAreAccepted : Prop :=
  ∀ s : State, s.rst = false → s.seq = .idle →
    exec .drawCb s = .next (acceptedDraw .cb false s)
    ∧ exec .drawCbG s = .next (acceptedDraw .cb true s)
    ∧ exec .drawMono s = .next (acceptedDraw .mono false s)
    ∧ exec .drawMonoG s = .next (acceptedDraw .mono true s)
    ∧ (s.regs.fbBase.toNat % 2 = 0 →
        exec .draw565 s = .next (acceptedDraw .rgb565 false s)
        ∧ exec .draw565G s = .next (acceptedDraw .rgb565 true s))

/-- R155: DRAW_565 on an odd FB_BASE is refused with ERR_ALIGN, and neither looks up nor starts. -/
def Obligations.Draw565OnOddBaseIsRefused : Prop :=
  ∀ s : State, s.rst = false → s.seq = .idle → s.regs.fbBase.toNat % 2 = 1 →
    exec .draw565 s = .next { s with regs := { s.regs with errAlign := true }, hRdata := 0, hErr := false }
    ∧ exec .draw565G s = .next { s with regs := { s.regs with errAlign := true }, hRdata := 0, hErr := false }

/-- The frame of every instruction's own step: no byte of memory, no history entry, no held payload and no platform
field changes, and the next inputs are kept (R91 to R99). -/
def Obligations.NoInstructionStoresByItself : Prop :=
  ∀ (i : Instr) (s t : State), exec i s = .next t →
    (∀ a, t.mem.read a = s.mem.read a) ∧ t.mem = s.mem ∧ t.stream = s.stream ∧ t.fbLog = s.fbLog
      ∧ t.px = s.px ∧ t.fb = s.fb ∧ t.rst = s.rst ∧ t.inputs = s.inputs ∧ t.agentData = s.agentData
      ∧ t.freeCount = s.freeCount

/-! ### Lookup -/

/-- R111: the normalised code, the same for the signed and the unsigned reading, and always in [32, 126]. -/
def Obligations.NormUsesAllBitsOfCode : Prop :=
  ∀ c : Word,
    (32 ≤ c.toNat → c.toNat ≤ 126 → norm c = c.toNat)
    ∧ (¬ (32 ≤ c.toNat ∧ c.toNat ≤ 126) → norm c = 32)
    ∧ (32 ≤ c.toInt → c.toInt ≤ 126 → (norm c : Int) = c.toInt)
    ∧ (¬ (32 ≤ c.toInt ∧ c.toInt ≤ 126) → norm c = 32)

/-- R112 and R114: the rows of the glyph of every code are the bytes of FONT_ROM at its normalised code, and every code
outside [32, 126] has the space glyph, whose rows are 0. -/
def Obligations.OutOfRangeCodesAreSpace : Prop :=
  (∀ (c : Word) (r : Nat), r < 8 →
    glyphRow c r = Config.fontRom ((norm c - 32) * 8 + r) ∧ (lookupGlyph c).row r = glyphRow c r
      ∧ ∀ k, k < 8 → (lookupGlyph c).bit r k = (Config.fontRom ((norm c - 32) * 8 + r)).getLsbD (7 - k))
  ∧ (∀ (c : Word) (r : Nat), r < 8 → 32 ≤ c.toNat → c.toNat ≤ 126 →
    glyphRow c r = Config.fontRom ((c.toNat - 32) * 8 + r))
  ∧ (∀ (c : Word) (r : Nat), r < 8 → (c.toNat < 32 ∨ 126 < c.toNat) →
    glyphRow c r = glyphRow 32 r ∧ glyphRow 32 r = 0)

/-! ### Clip, index and payload -/

/-- R145: the origin check, that no origin passes when FB_W or FB_H is 0 or less, that nothing is written when it fails, and
that the accept holds it in L.OK. -/
def Obligations.OriginCheckOnIntegers : Prop :=
  (∀ ox oy w h : Word, originOk ox oy w h = true ↔
    0 ≤ ox.toInt ∧ ox.toInt < w.toInt ∧ 0 ≤ oy.toInt ∧ oy.toInt < h.toInt)
  ∧ (∀ ox oy w h : Word, (w.toInt ≤ 0 ∨ h.toInt ≤ 0) → originOk ox oy w h = false)
  ∧ (∀ l : Latch, l.sink ≠ .cb → l.ok = false → (∀ r k, inClip l r k = false) ∧ drawWrites l = [])
  ∧ (∀ (s : State) (i : Instr), s.rst = false → s.seq = .idle →
      (i ∈ [Instr.drawMono, .drawMonoG] ∨ (i ∈ [Instr.draw565, .draw565G] ∧ s.regs.fbBase.toNat % 2 = 0)) →
      ∃ t, exec i s = .next t ∧ t.seq = .expand
        ∧ t.latch.ok = originOk s.regs.orgX s.regs.orgY s.regs.fbW s.regs.fbH)

/-- R149, R150: the clip of either kind of sink; a bit of a buffer sink that passes it has coordinates inside the buffer, and
its index is in [0, W * H). -/
def Obligations.ClippedIndexIsInsideTheBuffer : Prop :=
  (∀ (l : Latch) (r k : Nat),
    (l.sink = .cb → inClip l r k = true)
    ∧ (l.sink ≠ .cb → (inClip l r k = true ↔
        l.ok = true ∧ l.oy.toInt + r < l.h.toInt ∧ l.ox.toInt + k < l.w.toInt))
    ∧ (l.sink ≠ .cb → latchOk l → l.ok = true → 0 ≤ pixelX l k ∧ 0 ≤ pixelY l r))
  ∧ ∀ (l : Latch) (r k : Nat), l.sink ≠ .cb → latchOk l → inClip l r k = true →
    0 ≤ pixelX l k ∧ pixelX l k < l.w.toInt ∧ 0 ≤ pixelY l r ∧ pixelY l r < l.h.toInt
      ∧ elementIndex l r k = (l.oy.toInt + r) * l.w.toInt + (l.ox.toInt + k)
      ∧ 0 ≤ elementIndex l r k ∧ elementIndex l r k < l.w.toInt * l.h.toInt

/-- R55: the address of an RGB565 element is even, so its second byte never wraps. -/
def Obligations.Rgb565AddressesAreEven : Prop :=
  ∀ (l : Latch) (r k : Nat), l.base.toNat % 2 = 0 →
    (rgb565Write l r k).addr.toNat % 2 = 0 ∧ (rgb565Write l r k).addr.toNat + 1 < 2 ^ 32

/-- R148: the source's stopping loop and the loop over all 64 bits make the same writes in the same order. -/
def Obligations.StoppingLoopMakesTheSameWrites : Prop :=
  ∀ l : Latch, l.sink ≠ .cb → stoppingWrites l = drawWrites l

/-! ### The block's own steps -/

/-- R131, with the payloads of R133, R151 and R152: the bit step, whole. -/
def Obligations.BitStepTestsOneBit : Prop :=
  ∀ (s : State) (rest : List Input), s.inputs = .block :: rest →
    s.seq = .expand → s.pend = false → s.bidx.toNat < 64 →
    let r := s.bidx.toNat / 8
    let k := s.bidx.toNat % 8
    let sh := if k = 0 then s.latch.gl.row r else s.rowsh
    let x : Int := s.latch.ox.toInt + k
    let y : Int := s.latch.oy.toInt + r
    let idx : Int := y * s.latch.w.toInt + x
    let moved : State := { s with inputs := rest, rowsh := sh <<< 1, bidx := s.bidx + 1 }
    (¬ (sh.getLsbD 7 = true ∧ inClip s.latch r k = true) → step s = .next moved)
    ∧ (sh.getLsbD 7 = true → inClip s.latch r k = true →
        (s.latch.sink = .cb → step s = .next
          { moved with pend := true, px := ⟨BitVec.ofInt 32 x, BitVec.ofInt 32 y, s.latch.color, s.latch.tag⟩ })
        ∧ (s.latch.sink = .mono → step s = .next
          { moved with pend := true,
                       fb := ⟨BitVec.ofInt 32 (s.latch.base.toNat + idx), 0,
                              lanes 0 (s.latch.color.extractLsb' 0 8)⟩ })
        ∧ (s.latch.sink = .rgb565 → step s = .next
          { moved with pend := true,
                       fb := ⟨BitVec.ofInt 32 (s.latch.base.toNat + 2 * idx), 1,
                              if Config.fbBigEndian then
                                lanes (s.latch.color.extractLsb' 0 8) (s.latch.color.extractLsb' 8 8)
                              else lanes (s.latch.color.extractLsb' 8 8) (s.latch.color.extractLsb' 0 8)⟩ }))

/-- R134: the take step, and that nothing else of the block moves while an output is pending. -/
def Obligations.TakeStepDeliversTheOffer : Prop :=
  (∀ (s : State) (rest : List Input), s.pend = true → s.latch.sink = .cb → s.inputs = .pxReady :: rest →
    step s = .next { s with
      inputs := rest, pend := false, regs := { s.regs with emitCount := s.regs.emitCount + 1 }
      stream := s.stream ++ [s.px] })
  ∧ (∀ (s : State) (rest : List Input), s.pend = true → s.latch.sink ≠ .cb → s.inputs = .fbReady :: rest →
    step s = .next { s with
      inputs := rest, pend := false, regs := { s.regs with emitCount := s.regs.emitCount + 1 }
      mem := memWrite s.fb s.mem, fbLog := s.fbLog ++ [s.fb] })
  ∧ (∀ (s : State) (rest : List Input), s.pend = true →
      (s.inputs = .block :: rest ∨ (s.latch.sink = .cb ∧ s.inputs = .fbReady :: rest)
        ∨ (s.latch.sink ≠ .cb ∧ s.inputs = .pxReady :: rest)) →
      step s = .next { s with inputs := rest })

/-- R135: the completion step, and that what it leaves is kept until the next accept: no step without a transaction changes
it, and a transaction that presents no legal command word keeps EMIT_COUNT, the latch and, unless it is a word write of one
of GLYPH0..7, the glyph. -/
def Obligations.CompletionSetsDone : Prop :=
  (∀ (s : State) (rest : List Input), s.inputs = .block :: rest → s.seq = .expand → s.pend = false → s.bidx = 64 →
    step s = .next { s with inputs := rest, seq := .idle, regs := { s.regs with done := true } })
  ∧ (∀ s t : State, s.seq = .idle → s.pend = false → headTxn s = none → headResets s = false → step s = .next t →
      t.regs = s.regs ∧ t.latch = s.latch ∧ t.seq = .idle ∧ t.bidx = s.bidx ∧ t.rowsh = s.rowsh ∧ t.pend = false
        ∧ t.stream = s.stream ∧ t.fbLog = s.fbLog)
  ∧ (∀ (s t : State) (x : HT), s.seq = .idle → s.pend = false → headTxn s = some x →
      ¬ (htW x = true ∧ htOff x = 0x0C ∧ htData x ∈ ([0x0, 0x1, 0x2, 0x12, 0x3, 0x13, 0x4, 0x14] : List Word)) →
      step s = .next t →
      t.regs.emitCount = s.regs.emitCount ∧ t.latch = s.latch ∧ t.seq = .idle ∧ t.stream = s.stream ∧ t.fbLog = s.fbLog
        ∧ (¬ (htW x = true ∧ htSz x = 2 ∧ ∃ r : Fin 8, htOff x = BitVec.ofNat 7 (0x40 + 4 * r.val)) →
            t.regs.glyph = s.regs.glyph))

/-- R53: the bytes one element write leaves, for either byte order, and no others. -/
def Obligations.MemWriteLaysOutTheBytes : Prop :=
  (∀ (m : Memory) (addr : Word) (v : Byte) (a : Nat),
    (memWrite ⟨addr, 0, lanes 0 v⟩ m).read a = if a = addr.toNat then some v else m.read a)
  ∧ (∀ (m : Memory) (addr color : Word) (a : Nat), addr.toNat % 2 = 0 →
    (memWrite ⟨addr, 1, rgb565Lanes false color⟩ m).read a =
        (if a = addr.toNat then some (color.extractLsb' 0 8)
         else if a = addr.toNat + 1 then some (color.extractLsb' 8 8) else m.read a)
    ∧ (memWrite ⟨addr, 1, rgb565Lanes true color⟩ m).read a =
        (if a = addr.toNat then some (color.extractLsb' 8 8)
         else if a = addr.toNat + 1 then some (color.extractLsb' 0 8) else m.read a))

/-- R57, R158, R159: after a list of writes every byte holds the last write to it, whatever it held before, and every
other byte is untouched; so writing the list again changes nothing. The last write is the one that covers the byte and has
no later one that does. -/
def Obligations.WritesAreIdempotent : Prop :=
  (∀ (ws : List FbWrite) (m : Memory) (a : Nat),
    (applyWrites ws m).read a = (match lastByte ws a with | some v => some v | none => m.read a))
  ∧ (∀ (ws : List FbWrite) (a : Nat), lastByte ws a = none ↔ ∀ w, w ∈ ws → w.covers a = false)
  ∧ (∀ (ws : List FbWrite) (w : FbWrite) (a : Nat),
    lastByte (ws ++ [w]) a =
      (if a = w.addr.toNat then some (w.data.extractLsb' 0 8)
       else if w.size = 1 ∧ a = (w.addr + 1).toNat then some (w.data.extractLsb' 8 8) else lastByte ws a))
  ∧ (∀ (ws : List FbWrite) (m : Memory), m.wf = true → applyWrites ws (applyWrites ws m) = applyWrites ws m)

/-! ### Whole runs -/

/-- R126, R132, R153, R154, R158, R213, R215: with no stalls a DRAW command takes exactly 65 edges from its accept to
its completion, whatever its glyph, code, origin, clip or sink; its outputs are those of the loop of R126 in order; the
memory is the start memory updated by its writes. -/
def Obligations.DrawRunsToCompletion : Prop :=
  ∀ (sink : Sink) (g : Bool) (s : State) (rest : List Input),
    s.rst = false → s.seq = .idle → (sink = .rgb565 → s.regs.fbBase.toNat % 2 = 0) →
    ∃ a t, exec (Command.draw sink g).toInstr s = .next a
      ∧ runSteps 65 { a with inputs := List.replicate 65 freeClock ++ rest } = .next t
      ∧ (∀ n, n < 65 → ∃ u, runSteps n { a with inputs := List.replicate 65 freeClock ++ rest } = .next u
          ∧ u.seq = .expand ∧ u.regs.done = false)
      ∧ t.seq = .idle ∧ t.pend = false ∧ t.inputs = rest ∧ t.latch = a.latch
      ∧ t.regs = { a.regs with done := true, emitCount := t.regs.emitCount }
      ∧ t.regs.emitCount.toNat = (drawEvents a.latch).length + (drawWrites a.latch).length
      ∧ t.stream = s.stream ++ drawEvents a.latch
      ∧ t.fbLog = s.fbLog ++ drawWrites a.latch
      ∧ t.mem = applyWrites (drawWrites a.latch) s.mem

/-- R211, R213: a running command whose offers are taken completes, from wherever it stands, in 65 edges less its BIDX; an
edge at which its pending offer is not taken leaves the block as it is. -/
def Obligations.ServedCommandsCompleteAndStalledOnesHold : Prop :=
  (∀ (s : State) (rest : List Input), Inv s → s.seq = .expand →
    ∃ t, runSteps (65 - s.bidx.toNat) { s with inputs := List.replicate (65 - s.bidx.toNat) freeClock ++ rest } = .next t
      ∧ t.seq = .idle ∧ t.regs.done = true ∧ t.pend = false ∧ t.inputs = rest)
  ∧ (∀ (s : State) (px fb : Bool) (rest : List Input),
    s.inputs = .clock { rst := false, txn := none, pxReady := px, fbReady := fb } :: rest →
    Inv s → s.pend = true → sinkReady px fb s = false → step s = .next { s with inputs := rest })

/-- R211 and R9's premise TAKE_LIVENESS: with that duty met, and the block's turns going on, a running command completes,
after at most 64 takes, in every environment without a reset, whatever the host does meanwhile; while its pending offer is
never taken it stays BUSY. -/
def Obligations.TakeLivenessMakesDrawsComplete : Prop :=
  (∀ (env : Environment) (s : State), Inv s → s.seq = .expand →
    (∀ n, (env n).resets = false) → (∀ n, ∃ u, envRun env n s = .next u) →
    BlockKeepsMoving env → TakeLiveness env s →
    ∃ n t, envRun env n s = .next t ∧ t.seq = .idle ∧ t.regs.done = true ∧ t.pend = false ∧ t.latch = s.latch
      ∧ t.regs.emitCount.toNat ≤ 64
      ∧ ∀ m u, m < n → envRun env m s = .next u → u.seq = .expand)
  ∧ (∀ (env : Environment) (s : State), Inv s → s.pend = true → (∀ n, (env n).resets = false) →
    (∀ n u, envRun env n s = .next u → (env n).readies u = false) →
    ∀ n t, envRun env n s = .next t →
      t.seq = .expand ∧ t.pend = true ∧ t.regs.done = false ∧ t.px = s.px ∧ t.fb = s.fb ∧ t.bidx = s.bidx)

/-- R126, R130, R136, R137 for every schedule: when a running command reaches its completion step, however its takes
and the host's transactions were interleaved, the outputs since its accept are exactly those of the loop of R126, in
order, and EMIT_COUNT is their number. -/
def Obligations.EveryScheduleGivesTheLoopsOutputs : Prop :=
  ∀ s : State, Inv s → s.completeEnabled = true →
    (∃ before logged, s.stream = before ++ drawEvents s.latch ∧ s.fbLog = logged ++ drawWrites s.latch)
      ∧ s.regs.emitCount.toNat = (drawEvents s.latch).length + (drawWrites s.latch).length
      ∧ s.regs.emitCount.toNat ≤ 64
      ∧ (s.latch.sink = .cb →
          s.regs.emitCount.toNat
            = ((List.range 64).filter fun i => (s.latch.gl.row (i / 8)).getLsbD (7 - i % 8)).length)
      ∧ (s.latch.sink ≠ .cb →
          s.regs.emitCount.toNat
            = ((List.range 64).filter fun i =>
                (s.latch.gl.row (i / 8)).getLsbD (7 - i % 8) && inClip s.latch (i / 8) (i % 8)).length)

/-- R127: in a running command the bit that the bit step tests is the bit of the latched glyph. -/
def Obligations.TestedBitIsTheGlyphBit : Prop :=
  ∀ s : State, Inv s → s.bitEnabled = true →
    s.shiftIn.getLsbD 7 = (s.latch.gl.row (s.bidx.toNat / 8)).getLsbD (7 - s.bidx.toNat % 8)

/-- The invariant at reset. -/
def Obligations.InvHoldsAtReset : Prop := Inv State.reset

/-- The invariant is kept by every step, of every agent. -/
def Obligations.EveryStepKeepsInv : Prop := ∀ s t : State, Inv s → step s = .next t → Inv t

/-! ### Rules over every step -/

/-- R15, R16, R201: a step that raises the ready of an offer takes it, at an edge with `rst` = 1 too; any other step delivers
nothing of it, leaves it as it is, and only a reset withdraws it. -/
def Obligations.OffersAreHeldUntilTaken : Prop :=
  (∀ s t : State, Inv s → s.pxValid = true → step s = .next t →
    (headReadies s = true → t.stream = s.stream ++ [s.px])
    ∧ (headReadies s = false → t.stream = s.stream
        ∧ (headResets s = false → t.pxValid = true ∧ t.px = s.px)))
  ∧ (∀ s t : State, Inv s → s.fbValid = true → step s = .next t →
    (headReadies s = true → t.fbLog = s.fbLog ++ [s.fb] ∧ t.mem = memWrite s.fb s.mem)
    ∧ (headReadies s = false → t.fbLog = s.fbLog
        ∧ (headResets s = false → t.fbValid = true ∧ t.fb = s.fb)))
  ∧ (∀ s t : State, headResets s = true → step s = .next t → t.pxValid = false ∧ t.fbValid = false)

/-- R34, R59, R101: while a command runs, no step but a reset changes its latch, whatever the host writes. -/
def Obligations.LatchIsConstantWhileBusy : Prop :=
  ∀ s t : State, s.seq = .expand → headResets s = false → step s = .next t → t.latch = s.latch

/-- R101, R207: what a running command does next does not depend on the host-visible registers. -/
def Obligations.RunningCommandReadsOnlyTheLatch : Prop :=
  ∀ (s : State) (r : Regs),
    (blockStep { s with regs := r }).seq = (blockStep s).seq
      ∧ (blockStep { s with regs := r }).bidx = (blockStep s).bidx
      ∧ (blockStep { s with regs := r }).rowsh = (blockStep s).rowsh
      ∧ (blockStep { s with regs := r }).pxOffer = (blockStep s).pxOffer
      ∧ (blockStep { s with regs := r }).fbOffer = (blockStep s).fbOffer
      ∧ (∀ px fb, (takeIfReady px fb { s with regs := r }).stream = (takeIfReady px fb s).stream
          ∧ (takeIfReady px fb { s with regs := r }).fbLog = (takeIfReady px fb s).fbLog
          ∧ (takeIfReady px fb { s with regs := r }).mem = (takeIfReady px fb s).mem)

/-- R100: CTRL and the parameter registers change only by a host write to their own offset and by reset; with no
transaction GLYPH0..7 do not change either. -/
def Obligations.ParametersChangeOnlyByHostWrites : Prop :=
  (∀ (s t : State) (r : Reg),
    r ∈ [Reg.ctrl, .code, .orgX, .orgY, .color, .tag, .fbBase, .fbW, .fbH] → headResets s = false →
    (∀ x, headTxn s = some x → ¬ (htW x = true ∧ htSz x = 2 ∧ htOff x = regOffset r)) → step s = .next t →
    readNamed r t = readNamed r s)
  ∧ (∀ s t : State, headResets s = false → headTxn s = none → step s = .next t → t.regs.glyph = s.regs.glyph)

/-- R51, R53: a framebuffer byte changes only by another agent's write to it or by a take of the pending write that
covers it; every other byte reads as before. -/
def Obligations.MemoryChangesOnlyByTakesAndAgents : Prop :=
  ∀ (s t : State) (a : Nat), step s = .next t → t.mem.read a ≠ s.mem.read a →
    (∃ w rest, s.inputs = .agentWrite w :: rest ∧ w.covers a = true)
      ∨ (s.fbValid = true ∧ s.fb.covers a = true ∧ t.fbLog = s.fbLog ++ [s.fb])

/-- R182: an error bit that is 1 stays 1 but for a reset or a host write of 1 to it, and a second error of the same cause
changes nothing. -/
def Obligations.ErrorBitsAreSticky : Prop :=
  (∀ s : State, (s.regs.errCmd = true → raise .cmd s = s) ∧ (s.regs.errBusy = true → raise .busy s = s)
    ∧ (s.regs.errAlign = true → raise .align s = s))
  ∧ ∀ s t : State, step s = .next t → headResets s = false →
    (s.regs.errCmd = true → t.regs.errCmd = true
      ∨ ∃ x, headTxn s = some x ∧ htW x = true ∧ htSz x = 2 ∧ htOff x = 0x08 ∧ (htData x).getLsbD 2 = true)
    ∧ (s.regs.errBusy = true → t.regs.errBusy = true
      ∨ ∃ x, headTxn s = some x ∧ htW x = true ∧ htSz x = 2 ∧ htOff x = 0x08 ∧ (htData x).getLsbD 3 = true)
    ∧ (s.regs.errAlign = true → t.regs.errAlign = true
      ∨ ∃ x, headTxn s = some x ∧ htW x = true ∧ htSz x = 2 ∧ htOff x = 0x08 ∧ (htData x).getLsbD 4 = true)

/-- R60, R201: BUSY falls only at a completion, with DONE set and every output taken, or at a reset, with DONE 0. -/
def Obligations.BusyFallsOnlyAtCompletionOrReset : Prop :=
  ∀ s t : State, s.seq = .expand → step s = .next t → t.seq = .idle →
    (headResets s = true ∧ t.regs.done = false)
      ∨ (t.regs.done = true ∧ t.pend = false ∧ t.bidx = 64 ∧ t.latch = s.latch)

/-! ### Interrupt and same-cycle events -/

/-- R184. -/
def Obligations.IrqIsTheLevelOfEnabledStatus : Prop :=
  ∀ s : State, s.irq = true ↔
    s.rst = false ∧
      ((s.regs.ctrl.getLsbD 0 = true ∧ s.regs.done = true)
        ∨ (s.regs.ctrl.getLsbD 1 = true
            ∧ (s.regs.errCmd = true ∨ s.regs.errBusy = true ∨ s.regs.errAlign = true)))

/-- R185, R187: a completion with IE_DONE raises irq; clearing every sticky bit lowers it; masking keeps what is
pending, and enabling a pending source raises irq at once. -/
def Obligations.InterruptsAreRaisedMaskedAndCleared : Prop :=
  (∀ s : State, s.rst = false → s.seq = .idle → s.regs.ctrl.getLsbD 0 = true →
    ∃ t, exec .nop s = .next t ∧ t.irq = true)
  ∧ (∀ s : State, s.rst = false → ∃ t, exec (.wr 0x08 0x1E) s = .next t ∧ t.irq = false ∧ t.seq = s.seq)
  ∧ (∀ (s : State) (d : Word), s.rst = false → ∃ t, exec (.wr 0x04 d) s = .next t
      ∧ t.regs.done = s.regs.done ∧ t.regs.errCmd = s.regs.errCmd ∧ t.regs.errBusy = s.regs.errBusy
      ∧ t.regs.errAlign = s.regs.errAlign
      ∧ (d.getLsbD 0 = true → s.regs.done = true → t.irq = true)
      ∧ (d.getLsbD 1 = true → s.regs.errCmd = true → t.irq = true)
      ∧ (d.getLsbD 0 = false → d.getLsbD 1 = false → t.irq = false))

/-- R188: a CMD write at the edge of the completion, with or without a take at that edge, finds BUSY and sets ERR_BUSY, and
DONE is set all the same; a read
of EMIT_COUNT at the edge of a take answers the count before it. -/
def Obligations.SameCycleEventsAreOrdered : Prop :=
  (∀ (s : State) (w : Word) (px fb : Bool) (rest : List Input),
    s.inputs = .clock { rst := false, txn := some (commandHt w), pxReady := px, fbReady := fb } :: rest →
    s.seq = .expand → s.pend = false → s.bidx = 64 →
    step s = .next { s with
      inputs := rest, rst := false, seq := .idle, hRdata := 0, hErr := false
      regs := { s.regs with done := true, errBusy := true } })
  ∧ (∀ (s : State) (w : Word) (px fb : Bool) (rest : List Input),
    s.inputs = .clock { rst := false, txn := some (commandHt w), pxReady := px, fbReady := fb } :: rest →
    s.seq = .expand → s.pend = true → sinkReady px fb s = true → s.bidx = 64 →
    ∃ t, step s = .next t ∧ t.seq = .idle ∧ t.pend = false ∧ t.latch = s.latch ∧ t.hErr = false
      ∧ t.regs = { s.regs with done := true, errBusy := true, emitCount := s.regs.emitCount + 1 })
  ∧ (∀ (s : State) (px fb : Bool) (rest : List Input),
    s.inputs = .clock { rst := false, txn := some (encode (.rd 0x30)), pxReady := px, fbReady := fb } :: rest →
    s.seq = .expand → s.pend = true → sinkReady px fb s = true →
    ∃ t, step s = .next t ∧ t.hRdata.toNat = s.regs.emitCount.toNat ∧ t.hErr = false
      ∧ t.regs.emitCount = s.regs.emitCount + 1)

/-! ### The platform -/

/-- R62: another agent's write of a byte of the buffer that a BUSY DRAW_MONO or DRAW_565 targets is refused; any other write
stores its bytes and changes nothing else. What counts as the buffer, its W * H elements from L.BASE, and the form of the
refusal are the model's choice [log 14]; so are the form of the access and its second address, modulo 2^32 [log 15]. -/
def Obligations.ConcurrentBufferWritesAreRefused : Prop :=
  ∀ (s : State) (w : FbWrite) (rest : List Input), s.inputs = .agentWrite w :: rest →
    (s.seq = .expand → s.latch.sink ≠ .cb → 0 < s.latch.w.toInt → 0 < s.latch.h.toInt →
      (∃ a : Nat, w.covers a = true ∧ ((a + 2 ^ 32 - s.latch.base.toNat) % 2 ^ 32 : Int)
        < s.latch.w.toInt * s.latch.h.toInt * (if s.latch.sink = .mono then 1 else 2)) →
      step s = .refused .concurrentBufferWrite)
    ∧ ((s.seq = .idle ∨ s.latch.sink = .cb ∨ s.latch.w.toInt ≤ 0 ∨ s.latch.h.toInt ≤ 0
          ∨ ∀ a : Nat, w.covers a = true → s.latch.w.toInt * s.latch.h.toInt * (if s.latch.sink = .mono then 1 else 2)
            ≤ ((a + 2 ^ 32 - s.latch.base.toNat) % 2 ^ 32 : Int)) →
      ∃ t, step s = .next t ∧ t = { s with inputs := rest, mem := t.mem }
        ∧ ∀ b, t.mem.read b =
            (if b = w.addr.toNat then some (w.data.extractLsb' 0 8)
             else if w.size = 1 ∧ b = (w.addr + 1).toNat then some (w.data.extractLsb' 8 8) else s.mem.read b))

/-- R56, R60, R64: an agent that reads the element of a pending write before its take sees all of the old bytes, and after
the take all of the bytes taken, never half of them, where FB_VISIBLE_ON_TAKE holds and the platform has memory there;
elsewhere it sees free values [log 11, 12, 13]. The form of an agent's read is the model's choice [log 15]. -/
def Obligations.TakenWritesAreVisible : Prop :=
  (∀ (s : State) (rest : List Input), s.fbValid = true →
    s.inputs = .fbReady :: .agentRead s.fb.addr s.fb.size :: rest →
    ∃ t u, step s = .next t ∧ step t = .next u ∧ t.fbLog = s.fbLog ++ [s.fb]
      ∧ u = { t with inputs := rest, agentData := u.agentData, freeCount := u.freeCount }
      ∧ (Config.fbVisibleOnTake = true → (∀ a, s.fb.covers a = true → Config.memExists a = true) →
          u.agentData = if s.fb.size = 0 then lanes 0 (s.fb.data.extractLsb' 0 8) else s.fb.data)
      ∧ (Config.fbVisibleOnTake = false ∨ Config.memExists s.fb.addr.toNat = false →
          u.agentData.extractLsb' 0 8 = Config.freeByte s.freeCount)
      ∧ (s.fb.size = 1 → Config.fbVisibleOnTake = false ∨ Config.memExists (s.fb.addr + 1).toNat = false →
          u.agentData.extractLsb' 8 8 = Config.freeByte (s.freeCount + 1)))
  ∧ (∀ (s : State) (rest : List Input), s.fbValid = true →
    s.inputs = .agentRead s.fb.addr s.fb.size :: rest →
    Config.fbVisibleOnTake = true → (∀ a, s.fb.covers a = true → Config.memExists a = true) →
    let before : Word → Byte := fun a => (s.mem.read a.toNat).getD (Config.fbInit a.toNat)
    ∃ t, step s = .next t
      ∧ t = { s with
          inputs := rest, freeCount := t.freeCount
          agentData := lanes (if s.fb.size = 0 then 0 else before (s.fb.addr + 1)) (before s.fb.addr) })

/-! ### The host software contract -/

/-- R169: `layout` returns GW times the number of characters after the last newline, so 0 after a trailing newline; a
NUL ends the text. -/
def Obligations.LayoutReturnsTheLastLineWidth : Prop :=
  (∀ (text tail : List Byte) (sx sy : Int), 0 ∉ text → 0 ∉ tail → newline ∉ tail →
    layoutReturn (text ++ newline :: tail) sx sy = 8 * tail.length)
  ∧ (∀ (tail : List Byte) (sx sy : Int), 0 ∉ tail → newline ∉ tail → layoutReturn tail sx sy = 8 * tail.length)
  ∧ (∀ (text more : List Byte) (sx sy : Int), layoutReturn (text ++ 0 :: more) sx sy = layoutReturn text sx sy)

/-- R170: `text_width` is the largest line width: the maximum over a newline, and GW for each character of a line; a NUL
ends the text. -/
def Obligations.TextWidthIsTheWidestLine : Prop :=
  (∀ line rest : List Byte, 0 ∉ line → newline ∉ line →
    textWidth (line ++ newline :: rest) = max (8 * line.length) (textWidth rest))
  ∧ (∀ line : List Byte, 0 ∉ line → newline ∉ line → textWidth line = 8 * line.length)
  ∧ (∀ text more : List Byte, textWidth (text ++ 0 :: more) = textWidth text)

/-- R166, R171, R172: `layout` calls `on_glyph` once for each character that is no newline, in order; each newline before a
character moves it one glyph height down, and the characters before it on its line move it right. -/
def Obligations.LayoutCallsFollowTheCursor : Prop :=
  (∀ (text : List Byte) (sx sy : Int), 0 ∉ text →
    (layoutCalls text sx sy).map (fun c => c.ch) = text.filter (fun c => c ≠ newline))
  ∧ (∀ (before after : List Byte) (c : Byte) (sx sy : Int), 0 ∉ before → c ≠ 0 → c ≠ newline →
    (layoutCalls (before ++ c :: after) sx sy)[(before.filter (fun c => c ≠ newline)).length]?
      = some ⟨c, sx + layoutReturn before sx sy, sy + 8 * (before.filter (fun c => c = newline)).length⟩)
  ∧ (∀ text : List Byte, 0 ∉ text → textHeight text = 8 * (1 + (text.filter (fun c => c = newline)).length))

/-- R174: a byte from 0x80 on, sign-extended or zero-extended into CODE, draws the space glyph. -/
def Obligations.HighBytesDrawSpace : Prop :=
  ∀ (ch : Byte) (signedChar : Bool), 0x80 ≤ ch.toNat →
    ((charCode signedChar ch).toNat < 32 ∨ 126 < (charCode signedChar ch).toNat)
    ∧ ((charCode false ch).toNat = ch.toNat ∧ (charCode true ch).toInt = ch.toInt)
    ∧ ∀ r, r < 8 → glyphRow (charCode signedChar ch) r = glyphRow 32 r ∧ glyphRow 32 r = 0

/-- R167, R168: the layout driver, in every schedule in which no one else writes the block's registers or resets it, never
meets BUSY with a CMD write; when its program has ended, the block is idle and has made exactly the outputs of one DRAW
command for each call of `on_glyph`, in order. Some schedule ends it. -/
def Obligations.LayoutDriverWaitsForEachCommand : Prop :=
  ∀ (sink : Sink) (signedChar : Bool) (text : List Byte) (sx sy : Int) (s : State),
    Inv s → s.rst = false → s.seq = .idle → s.regs.errBusy = false →
    (sink = .rgb565 → s.regs.fbBase.toNat % 2 = 0) →
    (∀ (turns : List Turn) (d : Driven), (∀ x, x ∈ turns → x.servesDriver = true) →
      drive turns ⟨layoutProgram sink signedChar text sx sy, s⟩ = .next d →
      d.machine.regs.errBusy = false ∧ d.machine.regs.errCmd = s.regs.errCmd
        ∧ d.machine.regs.errAlign = s.regs.errAlign
        ∧ (d.prog = [] → d.machine.seq = .idle
            ∧ d.machine.stream = s.stream
                ++ (layoutCalls text sx sy).flatMap (fun c => drawEvents (callLatch sink signedChar s.regs c))
            ∧ d.machine.fbLog = s.fbLog
                ++ (layoutCalls text sx sy).flatMap (fun c => drawWrites (callLatch sink signedChar s.regs c))))
    ∧ ∃ turns d, (∀ x, x ∈ turns → x.servesDriver = true)
        ∧ drive turns ⟨layoutProgram sink signedChar text sx sy, s⟩ = .next d ∧ d.prog = []
end

