-- ==== Sys2Proof/Laws/Decode.lean ====
section
/-! SUPPORT. Small lemmas of the decoder and the encoder. -/

namespace Sys2Proof

/-! ### The four fields of a packed transaction (R71) -/

/-- Each bit of a packed transaction (R71). -/
theorem packHt_getLsbD (w : Bool) (sz : BitVec 2) (off : BitVec 7) (d : Word) (i : Nat) :
    (packHt w sz off d).getLsbD i =
      if i < 32 then d.getLsbD i
      else if i - 32 < 7 then off.getLsbD (i - 32)
      else if i - 32 - 7 < 2 then sz.getLsbD (i - 32 - 7)
      else (decide (i - 32 - 7 - 2 = 0) && w) := by
  simp only [packHt, BitVec.getLsbD_cast, BitVec.getLsbD_append, BitVec.getLsbD_ofBool]

@[simp] theorem htW_packHt (w : Bool) (sz : BitVec 2) (off : BitVec 7) (d : Word) : htW (packHt w sz off d) = w := by
  unfold htW
  rw [packHt_getLsbD]
  simp

@[simp] theorem htSz_packHt (w : Bool) (sz : BitVec 2) (off : BitVec 7) (d : Word) : htSz (packHt w sz off d) = sz := by
  apply BitVec.eq_of_getLsbD_eq
  intro i hi
  simp only [htSz, BitVec.getLsbD_extractLsb', packHt_getLsbD, hi, show ¬ 39 + i < 32 by omega,
    show ¬ 39 + i - 32 < 7 by omega, show 39 + i - 32 - 7 = i by omega, decide_true, Bool.true_and, if_true, if_false]

@[simp] theorem htOff_packHt (w : Bool) (sz : BitVec 2) (off : BitVec 7) (d : Word) :
    htOff (packHt w sz off d) = off := by
  apply BitVec.eq_of_getLsbD_eq
  intro i hi
  simp only [htOff, BitVec.getLsbD_extractLsb', packHt_getLsbD, hi, show ¬ 32 + i < 32 by omega,
    show 32 + i - 32 = i by omega, decide_true, Bool.true_and, if_true, if_false]

@[simp] theorem htData_packHt (w : Bool) (sz : BitVec 2) (off : BitVec 7) (d : Word) :
    htData (packHt w sz off d) = d := by
  apply BitVec.eq_of_getLsbD_eq
  intro i hi
  simp only [htData, BitVec.getLsbD_extractLsb', packHt_getLsbD, Nat.zero_add, hi, decide_true, Bool.true_and, if_true]

/-- A transaction is the packing of its four fields (R71). -/
theorem packHt_fields (t : HT) : packHt (htW t) (htSz t) (htOff t) (htData t) = t := by
  apply BitVec.eq_of_getLsbD_eq
  intro i hi
  simp only [packHt_getLsbD, htW, htSz, htOff, htData, BitVec.getLsbD_extractLsb']
  split_ifs with h1 h2 h3
  · simp [h1]
  · simp [h2, show 32 + (i - 32) = i by omega]
  · simp [h3, show 39 + (i - 32 - 7) = i by omega]
  · simp [show i = 41 by omega]

/-! ### Transactions -/

/-- A word transaction always decodes (R72). -/
theorem decodeHt_word (t : HT) (h : htSz t = 2) :
    decodeHt t = .ok (if htW t then decodeWrite (htOff t) (htData t) else .rd (htOff t)) := by
  unfold decodeHt
  rw [h]
  rfl

/-- A transaction of another size is rejected (R72, R78). -/
theorem decodeHt_other (t : HT) (h : htSz t ≠ 2) : ∃ why, decodeHt t = .rejected why := by
  have hz : ∀ z : BitVec 2, z ≠ 2 → z = 0 ∨ z = 1 ∨ z = 3 := by decide
  unfold decodeHt
  rcases hz _ h with e | e | e <;> rw [e] <;> exact ⟨_, rfl⟩

/-- The encoding of a command is a word write to CMD (R70). -/
theorem encode_toInstr (c : Command) : encode c.toInstr = commandHt (encodeCommand c) := by
  rcases c with _ | _ | ⟨k, g⟩
  · rfl
  · rfl
  · cases k <;> cases g <;> rfl

/-- A command is read back from its word (R75). -/
theorem decodeCommand_encode (c : Command) : decodeCommand (encodeCommand c) = .ok c := by
  rcases c with _ | _ | ⟨k, g⟩
  · decide
  · decide
  · cases k <;> cases g <;> decide

/-- The three fields of a command word as numbers (R73). -/
theorem cw_fields (w : Word) :
    (cwOp w).toNat = w.toNat % 16 ∧ cwG w = decide (w.toNat / 16 % 2 = 1) ∧ (cwRsv w).toNat = w.toNat / 32 := by
  refine ⟨by simp [cwOp], ?_, ?_⟩
  · simp only [cwG, BitVec.getLsbD, Nat.testBit, Nat.shiftRight_eq_div_pow, Nat.one_and_eq_mod_two]
    rcases Nat.mod_two_eq_zero_or_one (w.toNat / 2 ^ 4) with h | h <;> simp_all
  · have := w.isLt
    simp only [cwRsv, BitVec.extractLsb'_toNat, Nat.shiftRight_eq_div_pow]
    omega

/-- Only the word of a command decodes to it (R75, R77). -/
theorem decodeCommand_eq_ok (w : Word) (c : Command) : decodeCommand w = .ok c ↔ w = encodeCommand c := by
  refine ⟨fun h => ?_, fun h => h ▸ decodeCommand_encode c⟩
  obtain ⟨hop, hg, hrsv⟩ := cw_fields w
  unfold decodeCommand at h
  split_ifs at h with h0
  have hr : (cwRsv w).toNat = 0 := by rw [not_ne_iff.mp h0]; rfl
  apply BitVec.eq_of_toNat_eq
  have hk : w.toNat = (cwOp w).toNat + 16 * (cwG w).toNat := by
    rw [hg, hop]
    rcases Nat.mod_two_eq_zero_or_one (w.toNat / 16) with e | e <;> simp only [e] <;> simp <;> omega
  have hn : (cwOp w).toNat < 16 := (cwOp w).isLt
  rw [hk]
  clear hk hg hop hrsv hr h0
  generalize (cwOp w).toNat = n at hn h ⊢
  generalize cwG w = g at h ⊢
  interval_cases n <;> cases g <;> simp only [Decoded.ok.injEq, reduceCtorEq] at h <;> subst h <;> rfl

/-- The word of a command is one of the eight (R75). -/
theorem encodeCommand_legal (c : Command) : encodeCommand c ∈ legalCommandWords := by
  rcases c with _ | _ | ⟨k, g⟩
  · decide
  · decide
  · cases k <;> cases g <;> decide

/-- The constructor of a command is well formed. -/
theorem toInstr_wf (c : Command) : c.toInstr.wf = true := by
  rcases c with _ | _ | ⟨k, g⟩
  · rfl
  · rfl
  · cases k <;> cases g <;> rfl

end Sys2Proof
end

