-- ==== Sys2Proof/Laws/State.lean ====
section
/-! SUPPORT. One lemma per field per named update of the state: no later proof unfolds a record update. -/

namespace Sys2Proof.Machine

@[simp] theorem lookupIntoGlyph_eq (c : Word) (s : State) : lookupIntoGlyph c s = storeGlyph (lookupGlyph c) s := rfl

/-! `respond` -/

@[simp] theorem respond_regs (d : Word) (e : Bool) (s : State) : (respond d e s).regs = s.regs := rfl
@[simp] theorem respond_latch (d : Word) (e : Bool) (s : State) : (respond d e s).latch = s.latch := rfl
@[simp] theorem respond_seq (d : Word) (e : Bool) (s : State) : (respond d e s).seq = s.seq := rfl
@[simp] theorem respond_bidx (d : Word) (e : Bool) (s : State) : (respond d e s).bidx = s.bidx := rfl
@[simp] theorem respond_rowsh (d : Word) (e : Bool) (s : State) : (respond d e s).rowsh = s.rowsh := rfl
@[simp] theorem respond_pend (d : Word) (e : Bool) (s : State) : (respond d e s).pend = s.pend := rfl
@[simp] theorem respond_px (d : Word) (e : Bool) (s : State) : (respond d e s).px = s.px := rfl
@[simp] theorem respond_fb (d : Word) (e : Bool) (s : State) : (respond d e s).fb = s.fb := rfl
@[simp] theorem respond_rst (d : Word) (e : Bool) (s : State) : (respond d e s).rst = s.rst := rfl
@[simp] theorem respond_hRdata (d : Word) (e : Bool) (s : State) : (respond d e s).hRdata = d := rfl
@[simp] theorem respond_hErr (d : Word) (e : Bool) (s : State) : (respond d e s).hErr = e := rfl
@[simp] theorem respond_mem (d : Word) (e : Bool) (s : State) : (respond d e s).mem = s.mem := rfl
@[simp] theorem respond_stream (d : Word) (e : Bool) (s : State) : (respond d e s).stream = s.stream := rfl
@[simp] theorem respond_fbLog (d : Word) (e : Bool) (s : State) : (respond d e s).fbLog = s.fbLog := rfl
@[simp] theorem respond_inputs (d : Word) (e : Bool) (s : State) : (respond d e s).inputs = s.inputs := rfl
@[simp] theorem respond_agentData (d : Word) (e : Bool) (s : State) : (respond d e s).agentData = s.agentData := rfl
@[simp] theorem respond_freeCount (d : Word) (e : Bool) (s : State) : (respond d e s).freeCount = s.freeCount := rfl

/-! `nextInputs` -/

@[simp] theorem nextInputs_regs (l : List Input) (s : State) : (nextInputs l s).regs = s.regs := rfl
@[simp] theorem nextInputs_latch (l : List Input) (s : State) : (nextInputs l s).latch = s.latch := rfl
@[simp] theorem nextInputs_seq (l : List Input) (s : State) : (nextInputs l s).seq = s.seq := rfl
@[simp] theorem nextInputs_bidx (l : List Input) (s : State) : (nextInputs l s).bidx = s.bidx := rfl
@[simp] theorem nextInputs_rowsh (l : List Input) (s : State) : (nextInputs l s).rowsh = s.rowsh := rfl
@[simp] theorem nextInputs_pend (l : List Input) (s : State) : (nextInputs l s).pend = s.pend := rfl
@[simp] theorem nextInputs_px (l : List Input) (s : State) : (nextInputs l s).px = s.px := rfl
@[simp] theorem nextInputs_fb (l : List Input) (s : State) : (nextInputs l s).fb = s.fb := rfl
@[simp] theorem nextInputs_rst (l : List Input) (s : State) : (nextInputs l s).rst = s.rst := rfl
@[simp] theorem nextInputs_hRdata (l : List Input) (s : State) : (nextInputs l s).hRdata = s.hRdata := rfl
@[simp] theorem nextInputs_hErr (l : List Input) (s : State) : (nextInputs l s).hErr = s.hErr := rfl
@[simp] theorem nextInputs_mem (l : List Input) (s : State) : (nextInputs l s).mem = s.mem := rfl
@[simp] theorem nextInputs_stream (l : List Input) (s : State) : (nextInputs l s).stream = s.stream := rfl
@[simp] theorem nextInputs_fbLog (l : List Input) (s : State) : (nextInputs l s).fbLog = s.fbLog := rfl
@[simp] theorem nextInputs_inputs (l : List Input) (s : State) : (nextInputs l s).inputs = l := rfl
@[simp] theorem nextInputs_agentData (l : List Input) (s : State) : (nextInputs l s).agentData = s.agentData := rfl
@[simp] theorem nextInputs_freeCount (l : List Input) (s : State) : (nextInputs l s).freeCount = s.freeCount := rfl

/-! `presentInput` -/

@[simp] theorem presentNext_eq (t : HT) (s : State) : presentNext t s = presentInput (.host t) s := rfl

@[simp] theorem presentInput_regs (i : Input) (s : State) : (presentInput i s).regs = s.regs := rfl
@[simp] theorem presentInput_latch (i : Input) (s : State) : (presentInput i s).latch = s.latch := rfl
@[simp] theorem presentInput_seq (i : Input) (s : State) : (presentInput i s).seq = s.seq := rfl
@[simp] theorem presentInput_bidx (i : Input) (s : State) : (presentInput i s).bidx = s.bidx := rfl
@[simp] theorem presentInput_rowsh (i : Input) (s : State) : (presentInput i s).rowsh = s.rowsh := rfl
@[simp] theorem presentInput_pend (i : Input) (s : State) : (presentInput i s).pend = s.pend := rfl
@[simp] theorem presentInput_px (i : Input) (s : State) : (presentInput i s).px = s.px := rfl
@[simp] theorem presentInput_fb (i : Input) (s : State) : (presentInput i s).fb = s.fb := rfl
@[simp] theorem presentInput_rst (i : Input) (s : State) : (presentInput i s).rst = s.rst := rfl
@[simp] theorem presentInput_hRdata (i : Input) (s : State) : (presentInput i s).hRdata = s.hRdata := rfl
@[simp] theorem presentInput_hErr (i : Input) (s : State) : (presentInput i s).hErr = s.hErr := rfl
@[simp] theorem presentInput_mem (i : Input) (s : State) : (presentInput i s).mem = s.mem := rfl
@[simp] theorem presentInput_stream (i : Input) (s : State) : (presentInput i s).stream = s.stream := rfl
@[simp] theorem presentInput_fbLog (i : Input) (s : State) : (presentInput i s).fbLog = s.fbLog := rfl
@[simp] theorem presentInput_inputs (i : Input) (s : State) : (presentInput i s).inputs = i :: s.inputs := rfl
@[simp] theorem presentInput_agentData (i : Input) (s : State) : (presentInput i s).agentData = s.agentData := rfl
@[simp] theorem presentInput_freeCount (i : Input) (s : State) : (presentInput i s).freeCount = s.freeCount := rfl

/-! `agentRead` -/

@[simp] theorem agentRead_regs (a : Word) (z : BitVec 1) (s : State) : (agentRead a z s).regs = s.regs := rfl
@[simp] theorem agentRead_latch (a : Word) (z : BitVec 1) (s : State) : (agentRead a z s).latch = s.latch := rfl
@[simp] theorem agentRead_seq (a : Word) (z : BitVec 1) (s : State) : (agentRead a z s).seq = s.seq := rfl
@[simp] theorem agentRead_bidx (a : Word) (z : BitVec 1) (s : State) : (agentRead a z s).bidx = s.bidx := rfl
@[simp] theorem agentRead_rowsh (a : Word) (z : BitVec 1) (s : State) : (agentRead a z s).rowsh = s.rowsh := rfl
@[simp] theorem agentRead_pend (a : Word) (z : BitVec 1) (s : State) : (agentRead a z s).pend = s.pend := rfl
@[simp] theorem agentRead_px (a : Word) (z : BitVec 1) (s : State) : (agentRead a z s).px = s.px := rfl
@[simp] theorem agentRead_fb (a : Word) (z : BitVec 1) (s : State) : (agentRead a z s).fb = s.fb := rfl
@[simp] theorem agentRead_rst (a : Word) (z : BitVec 1) (s : State) : (agentRead a z s).rst = s.rst := rfl
@[simp] theorem agentRead_hRdata (a : Word) (z : BitVec 1) (s : State) : (agentRead a z s).hRdata = s.hRdata := rfl
@[simp] theorem agentRead_hErr (a : Word) (z : BitVec 1) (s : State) : (agentRead a z s).hErr = s.hErr := rfl
@[simp] theorem agentRead_mem (a : Word) (z : BitVec 1) (s : State) : (agentRead a z s).mem = s.mem := rfl
@[simp] theorem agentRead_stream (a : Word) (z : BitVec 1) (s : State) : (agentRead a z s).stream = s.stream := rfl
@[simp] theorem agentRead_fbLog (a : Word) (z : BitVec 1) (s : State) : (agentRead a z s).fbLog = s.fbLog := rfl
@[simp] theorem agentRead_inputs (a : Word) (z : BitVec 1) (s : State) : (agentRead a z s).inputs = s.inputs := rfl
@[simp] theorem agentRead_freeCount (a : Word) (z : BitVec 1) (s : State) : (agentRead a z s).freeCount = s.freeCount + 2 := rfl

/-! `onNext` -/

@[simp] theorem onNext_next {α β : Type} (a : α) (f : α → Host.Outcome β Fault Refusal) : onNext (.next a) f = f a := rfl
@[simp] theorem onNext_fault {α β : Type} (e : Fault) (f : α → Host.Outcome β Fault Refusal) :
    onNext (.fault e) f = .fault e := rfl
@[simp] theorem onNext_refused {α β : Type} (e : Refusal) (f : α → Host.Outcome β Fault Refusal) :
    onNext (.refused e) f = .refused e := rfl
/-- A next state after `onNext` comes from a next state before it. -/
theorem onNext_eq_next {α β : Type} (r : Host.Outcome α Fault Refusal) (f : α → Host.Outcome β Fault Refusal) (b : β) :
    onNext r f = .next b ↔ ∃ a, r = .next a ∧ f a = .next b := by
  cases r <;> simp [onNext]

/-! `beginCommand` -/

@[simp] theorem beginCommand_ctrl (s : State) : (beginCommand s).regs.ctrl = s.regs.ctrl := rfl
@[simp] theorem beginCommand_done (s : State) : (beginCommand s).regs.done = false := rfl
@[simp] theorem beginCommand_errCmd (s : State) : (beginCommand s).regs.errCmd = s.regs.errCmd := rfl
@[simp] theorem beginCommand_errBusy (s : State) : (beginCommand s).regs.errBusy = s.regs.errBusy := rfl
@[simp] theorem beginCommand_errAlign (s : State) : (beginCommand s).regs.errAlign = s.regs.errAlign := rfl
@[simp] theorem beginCommand_code (s : State) : (beginCommand s).regs.code = s.regs.code := rfl
@[simp] theorem beginCommand_orgX (s : State) : (beginCommand s).regs.orgX = s.regs.orgX := rfl
@[simp] theorem beginCommand_orgY (s : State) : (beginCommand s).regs.orgY = s.regs.orgY := rfl
@[simp] theorem beginCommand_color (s : State) : (beginCommand s).regs.color = s.regs.color := rfl
@[simp] theorem beginCommand_tag (s : State) : (beginCommand s).regs.tag = s.regs.tag := rfl
@[simp] theorem beginCommand_fbBase (s : State) : (beginCommand s).regs.fbBase = s.regs.fbBase := rfl
@[simp] theorem beginCommand_fbW (s : State) : (beginCommand s).regs.fbW = s.regs.fbW := rfl
@[simp] theorem beginCommand_fbH (s : State) : (beginCommand s).regs.fbH = s.regs.fbH := rfl
@[simp] theorem beginCommand_emitCount (s : State) : (beginCommand s).regs.emitCount = 0 := rfl
@[simp] theorem beginCommand_glyph (s : State) : (beginCommand s).regs.glyph = s.regs.glyph := rfl
@[simp] theorem beginCommand_latch (s : State) : (beginCommand s).latch = s.latch := rfl
@[simp] theorem beginCommand_seq (s : State) : (beginCommand s).seq = s.seq := rfl
@[simp] theorem beginCommand_bidx (s : State) : (beginCommand s).bidx = s.bidx := rfl
@[simp] theorem beginCommand_rowsh (s : State) : (beginCommand s).rowsh = s.rowsh := rfl
@[simp] theorem beginCommand_pend (s : State) : (beginCommand s).pend = s.pend := rfl
@[simp] theorem beginCommand_px (s : State) : (beginCommand s).px = s.px := rfl
@[simp] theorem beginCommand_fb (s : State) : (beginCommand s).fb = s.fb := rfl
@[simp] theorem beginCommand_rst (s : State) : (beginCommand s).rst = s.rst := rfl
@[simp] theorem beginCommand_hRdata (s : State) : (beginCommand s).hRdata = s.hRdata := rfl
@[simp] theorem beginCommand_hErr (s : State) : (beginCommand s).hErr = s.hErr := rfl
@[simp] theorem beginCommand_mem (s : State) : (beginCommand s).mem = s.mem := rfl
@[simp] theorem beginCommand_stream (s : State) : (beginCommand s).stream = s.stream := rfl
@[simp] theorem beginCommand_fbLog (s : State) : (beginCommand s).fbLog = s.fbLog := rfl
@[simp] theorem beginCommand_inputs (s : State) : (beginCommand s).inputs = s.inputs := rfl
@[simp] theorem beginCommand_agentData (s : State) : (beginCommand s).agentData = s.agentData := rfl
@[simp] theorem beginCommand_freeCount (s : State) : (beginCommand s).freeCount = s.freeCount := rfl

/-! `storeGlyph` -/

@[simp] theorem storeGlyph_ctrl (g : Glyph) (s : State) : (storeGlyph g s).regs.ctrl = s.regs.ctrl := rfl
@[simp] theorem storeGlyph_done (g : Glyph) (s : State) : (storeGlyph g s).regs.done = s.regs.done := rfl
@[simp] theorem storeGlyph_errCmd (g : Glyph) (s : State) : (storeGlyph g s).regs.errCmd = s.regs.errCmd := rfl
@[simp] theorem storeGlyph_errBusy (g : Glyph) (s : State) : (storeGlyph g s).regs.errBusy = s.regs.errBusy := rfl
@[simp] theorem storeGlyph_errAlign (g : Glyph) (s : State) : (storeGlyph g s).regs.errAlign = s.regs.errAlign := rfl
@[simp] theorem storeGlyph_code (g : Glyph) (s : State) : (storeGlyph g s).regs.code = s.regs.code := rfl
@[simp] theorem storeGlyph_orgX (g : Glyph) (s : State) : (storeGlyph g s).regs.orgX = s.regs.orgX := rfl
@[simp] theorem storeGlyph_orgY (g : Glyph) (s : State) : (storeGlyph g s).regs.orgY = s.regs.orgY := rfl
@[simp] theorem storeGlyph_color (g : Glyph) (s : State) : (storeGlyph g s).regs.color = s.regs.color := rfl
@[simp] theorem storeGlyph_tag (g : Glyph) (s : State) : (storeGlyph g s).regs.tag = s.regs.tag := rfl
@[simp] theorem storeGlyph_fbBase (g : Glyph) (s : State) : (storeGlyph g s).regs.fbBase = s.regs.fbBase := rfl
@[simp] theorem storeGlyph_fbW (g : Glyph) (s : State) : (storeGlyph g s).regs.fbW = s.regs.fbW := rfl
@[simp] theorem storeGlyph_fbH (g : Glyph) (s : State) : (storeGlyph g s).regs.fbH = s.regs.fbH := rfl
@[simp] theorem storeGlyph_emitCount (g : Glyph) (s : State) : (storeGlyph g s).regs.emitCount = s.regs.emitCount := rfl
@[simp] theorem storeGlyph_glyph (g : Glyph) (s : State) : (storeGlyph g s).regs.glyph = g := rfl
@[simp] theorem storeGlyph_latch (g : Glyph) (s : State) : (storeGlyph g s).latch = s.latch := rfl
@[simp] theorem storeGlyph_seq (g : Glyph) (s : State) : (storeGlyph g s).seq = s.seq := rfl
@[simp] theorem storeGlyph_bidx (g : Glyph) (s : State) : (storeGlyph g s).bidx = s.bidx := rfl
@[simp] theorem storeGlyph_rowsh (g : Glyph) (s : State) : (storeGlyph g s).rowsh = s.rowsh := rfl
@[simp] theorem storeGlyph_pend (g : Glyph) (s : State) : (storeGlyph g s).pend = s.pend := rfl
@[simp] theorem storeGlyph_px (g : Glyph) (s : State) : (storeGlyph g s).px = s.px := rfl
@[simp] theorem storeGlyph_fb (g : Glyph) (s : State) : (storeGlyph g s).fb = s.fb := rfl
@[simp] theorem storeGlyph_rst (g : Glyph) (s : State) : (storeGlyph g s).rst = s.rst := rfl
@[simp] theorem storeGlyph_hRdata (g : Glyph) (s : State) : (storeGlyph g s).hRdata = s.hRdata := rfl
@[simp] theorem storeGlyph_hErr (g : Glyph) (s : State) : (storeGlyph g s).hErr = s.hErr := rfl
@[simp] theorem storeGlyph_mem (g : Glyph) (s : State) : (storeGlyph g s).mem = s.mem := rfl
@[simp] theorem storeGlyph_stream (g : Glyph) (s : State) : (storeGlyph g s).stream = s.stream := rfl
@[simp] theorem storeGlyph_fbLog (g : Glyph) (s : State) : (storeGlyph g s).fbLog = s.fbLog := rfl
@[simp] theorem storeGlyph_inputs (g : Glyph) (s : State) : (storeGlyph g s).inputs = s.inputs := rfl
@[simp] theorem storeGlyph_agentData (g : Glyph) (s : State) : (storeGlyph g s).agentData = s.agentData := rfl
@[simp] theorem storeGlyph_freeCount (g : Glyph) (s : State) : (storeGlyph g s).freeCount = s.freeCount := rfl

/-! `finishAtOnce` -/

@[simp] theorem finishAtOnce_ctrl (s : State) : (finishAtOnce s).regs.ctrl = s.regs.ctrl := rfl
@[simp] theorem finishAtOnce_done (s : State) : (finishAtOnce s).regs.done = true := rfl
@[simp] theorem finishAtOnce_errCmd (s : State) : (finishAtOnce s).regs.errCmd = s.regs.errCmd := rfl
@[simp] theorem finishAtOnce_errBusy (s : State) : (finishAtOnce s).regs.errBusy = s.regs.errBusy := rfl
@[simp] theorem finishAtOnce_errAlign (s : State) : (finishAtOnce s).regs.errAlign = s.regs.errAlign := rfl
@[simp] theorem finishAtOnce_code (s : State) : (finishAtOnce s).regs.code = s.regs.code := rfl
@[simp] theorem finishAtOnce_orgX (s : State) : (finishAtOnce s).regs.orgX = s.regs.orgX := rfl
@[simp] theorem finishAtOnce_orgY (s : State) : (finishAtOnce s).regs.orgY = s.regs.orgY := rfl
@[simp] theorem finishAtOnce_color (s : State) : (finishAtOnce s).regs.color = s.regs.color := rfl
@[simp] theorem finishAtOnce_tag (s : State) : (finishAtOnce s).regs.tag = s.regs.tag := rfl
@[simp] theorem finishAtOnce_fbBase (s : State) : (finishAtOnce s).regs.fbBase = s.regs.fbBase := rfl
@[simp] theorem finishAtOnce_fbW (s : State) : (finishAtOnce s).regs.fbW = s.regs.fbW := rfl
@[simp] theorem finishAtOnce_fbH (s : State) : (finishAtOnce s).regs.fbH = s.regs.fbH := rfl
@[simp] theorem finishAtOnce_emitCount (s : State) : (finishAtOnce s).regs.emitCount = s.regs.emitCount := rfl
@[simp] theorem finishAtOnce_glyph (s : State) : (finishAtOnce s).regs.glyph = s.regs.glyph := rfl
@[simp] theorem finishAtOnce_latch (s : State) : (finishAtOnce s).latch = s.latch := rfl
@[simp] theorem finishAtOnce_seq (s : State) : (finishAtOnce s).seq = s.seq := rfl
@[simp] theorem finishAtOnce_bidx (s : State) : (finishAtOnce s).bidx = s.bidx := rfl
@[simp] theorem finishAtOnce_rowsh (s : State) : (finishAtOnce s).rowsh = s.rowsh := rfl
@[simp] theorem finishAtOnce_pend (s : State) : (finishAtOnce s).pend = s.pend := rfl
@[simp] theorem finishAtOnce_px (s : State) : (finishAtOnce s).px = s.px := rfl
@[simp] theorem finishAtOnce_fb (s : State) : (finishAtOnce s).fb = s.fb := rfl
@[simp] theorem finishAtOnce_rst (s : State) : (finishAtOnce s).rst = s.rst := rfl
@[simp] theorem finishAtOnce_hRdata (s : State) : (finishAtOnce s).hRdata = s.hRdata := rfl
@[simp] theorem finishAtOnce_hErr (s : State) : (finishAtOnce s).hErr = s.hErr := rfl
@[simp] theorem finishAtOnce_mem (s : State) : (finishAtOnce s).mem = s.mem := rfl
@[simp] theorem finishAtOnce_stream (s : State) : (finishAtOnce s).stream = s.stream := rfl
@[simp] theorem finishAtOnce_fbLog (s : State) : (finishAtOnce s).fbLog = s.fbLog := rfl
@[simp] theorem finishAtOnce_inputs (s : State) : (finishAtOnce s).inputs = s.inputs := rfl
@[simp] theorem finishAtOnce_agentData (s : State) : (finishAtOnce s).agentData = s.agentData := rfl
@[simp] theorem finishAtOnce_freeCount (s : State) : (finishAtOnce s).freeCount = s.freeCount := rfl

/-! `startDraw` -/

@[simp] theorem startDraw_regs (k : Sink) (s : State) : (startDraw k s).regs = s.regs := rfl
@[simp] theorem startDraw_latch (k : Sink) (s : State) : (startDraw k s).latch = sampleLatch k s.regs := rfl
@[simp] theorem startDraw_seq (k : Sink) (s : State) : (startDraw k s).seq = .expand := rfl
@[simp] theorem startDraw_bidx (k : Sink) (s : State) : (startDraw k s).bidx = 0 := rfl
@[simp] theorem startDraw_rowsh (k : Sink) (s : State) : (startDraw k s).rowsh = 0 := rfl
@[simp] theorem startDraw_pend (k : Sink) (s : State) : (startDraw k s).pend = false := rfl
@[simp] theorem startDraw_px (k : Sink) (s : State) : (startDraw k s).px = s.px := rfl
@[simp] theorem startDraw_fb (k : Sink) (s : State) : (startDraw k s).fb = s.fb := rfl
@[simp] theorem startDraw_rst (k : Sink) (s : State) : (startDraw k s).rst = s.rst := rfl
@[simp] theorem startDraw_hRdata (k : Sink) (s : State) : (startDraw k s).hRdata = s.hRdata := rfl
@[simp] theorem startDraw_hErr (k : Sink) (s : State) : (startDraw k s).hErr = s.hErr := rfl
@[simp] theorem startDraw_mem (k : Sink) (s : State) : (startDraw k s).mem = s.mem := rfl
@[simp] theorem startDraw_stream (k : Sink) (s : State) : (startDraw k s).stream = s.stream := rfl
@[simp] theorem startDraw_fbLog (k : Sink) (s : State) : (startDraw k s).fbLog = s.fbLog := rfl
@[simp] theorem startDraw_inputs (k : Sink) (s : State) : (startDraw k s).inputs = s.inputs := rfl
@[simp] theorem startDraw_agentData (k : Sink) (s : State) : (startDraw k s).agentData = s.agentData := rfl
@[simp] theorem startDraw_freeCount (k : Sink) (s : State) : (startDraw k s).freeCount = s.freeCount := rfl

/-! `clearStatus` -/

@[simp] theorem clearStatus_ctrl (d : Word) (s : State) : (clearStatus d s).regs.ctrl = s.regs.ctrl := rfl
@[simp] theorem clearStatus_done (d : Word) (s : State) : (clearStatus d s).regs.done = (s.regs.done && !d.getLsbD 1) := rfl
@[simp] theorem clearStatus_errCmd (d : Word) (s : State) : (clearStatus d s).regs.errCmd = (s.regs.errCmd && !d.getLsbD 2) := rfl
@[simp] theorem clearStatus_errBusy (d : Word) (s : State) : (clearStatus d s).regs.errBusy = (s.regs.errBusy && !d.getLsbD 3) := rfl
@[simp] theorem clearStatus_errAlign (d : Word) (s : State) : (clearStatus d s).regs.errAlign = (s.regs.errAlign && !d.getLsbD 4) := rfl
@[simp] theorem clearStatus_code (d : Word) (s : State) : (clearStatus d s).regs.code = s.regs.code := rfl
@[simp] theorem clearStatus_orgX (d : Word) (s : State) : (clearStatus d s).regs.orgX = s.regs.orgX := rfl
@[simp] theorem clearStatus_orgY (d : Word) (s : State) : (clearStatus d s).regs.orgY = s.regs.orgY := rfl
@[simp] theorem clearStatus_color (d : Word) (s : State) : (clearStatus d s).regs.color = s.regs.color := rfl
@[simp] theorem clearStatus_tag (d : Word) (s : State) : (clearStatus d s).regs.tag = s.regs.tag := rfl
@[simp] theorem clearStatus_fbBase (d : Word) (s : State) : (clearStatus d s).regs.fbBase = s.regs.fbBase := rfl
@[simp] theorem clearStatus_fbW (d : Word) (s : State) : (clearStatus d s).regs.fbW = s.regs.fbW := rfl
@[simp] theorem clearStatus_fbH (d : Word) (s : State) : (clearStatus d s).regs.fbH = s.regs.fbH := rfl
@[simp] theorem clearStatus_emitCount (d : Word) (s : State) : (clearStatus d s).regs.emitCount = s.regs.emitCount := rfl
@[simp] theorem clearStatus_glyph (d : Word) (s : State) : (clearStatus d s).regs.glyph = s.regs.glyph := rfl
@[simp] theorem clearStatus_latch (d : Word) (s : State) : (clearStatus d s).latch = s.latch := rfl
@[simp] theorem clearStatus_seq (d : Word) (s : State) : (clearStatus d s).seq = s.seq := rfl
@[simp] theorem clearStatus_bidx (d : Word) (s : State) : (clearStatus d s).bidx = s.bidx := rfl
@[simp] theorem clearStatus_rowsh (d : Word) (s : State) : (clearStatus d s).rowsh = s.rowsh := rfl
@[simp] theorem clearStatus_pend (d : Word) (s : State) : (clearStatus d s).pend = s.pend := rfl
@[simp] theorem clearStatus_px (d : Word) (s : State) : (clearStatus d s).px = s.px := rfl
@[simp] theorem clearStatus_fb (d : Word) (s : State) : (clearStatus d s).fb = s.fb := rfl
@[simp] theorem clearStatus_rst (d : Word) (s : State) : (clearStatus d s).rst = s.rst := rfl
@[simp] theorem clearStatus_hRdata (d : Word) (s : State) : (clearStatus d s).hRdata = s.hRdata := rfl
@[simp] theorem clearStatus_hErr (d : Word) (s : State) : (clearStatus d s).hErr = s.hErr := rfl
@[simp] theorem clearStatus_mem (d : Word) (s : State) : (clearStatus d s).mem = s.mem := rfl
@[simp] theorem clearStatus_stream (d : Word) (s : State) : (clearStatus d s).stream = s.stream := rfl
@[simp] theorem clearStatus_fbLog (d : Word) (s : State) : (clearStatus d s).fbLog = s.fbLog := rfl
@[simp] theorem clearStatus_inputs (d : Word) (s : State) : (clearStatus d s).inputs = s.inputs := rfl
@[simp] theorem clearStatus_agentData (d : Word) (s : State) : (clearStatus d s).agentData = s.agentData := rfl
@[simp] theorem clearStatus_freeCount (d : Word) (s : State) : (clearStatus d s).freeCount = s.freeCount := rfl

/-! `shiftBit` -/

@[simp] theorem shiftBit_regs (s : State) : (shiftBit s).regs = s.regs := rfl
@[simp] theorem shiftBit_latch (s : State) : (shiftBit s).latch = s.latch := rfl
@[simp] theorem shiftBit_seq (s : State) : (shiftBit s).seq = s.seq := rfl
@[simp] theorem shiftBit_bidx (s : State) : (shiftBit s).bidx = s.bidx + 1 := rfl
@[simp] theorem shiftBit_rowsh (s : State) : (shiftBit s).rowsh = s.shiftIn <<< 1 := rfl
@[simp] theorem shiftBit_pend (s : State) : (shiftBit s).pend = s.pend := rfl
@[simp] theorem shiftBit_px (s : State) : (shiftBit s).px = s.px := rfl
@[simp] theorem shiftBit_fb (s : State) : (shiftBit s).fb = s.fb := rfl
@[simp] theorem shiftBit_rst (s : State) : (shiftBit s).rst = s.rst := rfl
@[simp] theorem shiftBit_hRdata (s : State) : (shiftBit s).hRdata = s.hRdata := rfl
@[simp] theorem shiftBit_hErr (s : State) : (shiftBit s).hErr = s.hErr := rfl
@[simp] theorem shiftBit_mem (s : State) : (shiftBit s).mem = s.mem := rfl
@[simp] theorem shiftBit_stream (s : State) : (shiftBit s).stream = s.stream := rfl
@[simp] theorem shiftBit_fbLog (s : State) : (shiftBit s).fbLog = s.fbLog := rfl
@[simp] theorem shiftBit_inputs (s : State) : (shiftBit s).inputs = s.inputs := rfl
@[simp] theorem shiftBit_agentData (s : State) : (shiftBit s).agentData = s.agentData := rfl
@[simp] theorem shiftBit_freeCount (s : State) : (shiftBit s).freeCount = s.freeCount := rfl

/-! `completeStep` -/

@[simp] theorem completeStep_ctrl (s : State) : (completeStep s).regs.ctrl = s.regs.ctrl := rfl
@[simp] theorem completeStep_done (s : State) : (completeStep s).regs.done = true := rfl
@[simp] theorem completeStep_errCmd (s : State) : (completeStep s).regs.errCmd = s.regs.errCmd := rfl
@[simp] theorem completeStep_errBusy (s : State) : (completeStep s).regs.errBusy = s.regs.errBusy := rfl
@[simp] theorem completeStep_errAlign (s : State) : (completeStep s).regs.errAlign = s.regs.errAlign := rfl
@[simp] theorem completeStep_code (s : State) : (completeStep s).regs.code = s.regs.code := rfl
@[simp] theorem completeStep_orgX (s : State) : (completeStep s).regs.orgX = s.regs.orgX := rfl
@[simp] theorem completeStep_orgY (s : State) : (completeStep s).regs.orgY = s.regs.orgY := rfl
@[simp] theorem completeStep_color (s : State) : (completeStep s).regs.color = s.regs.color := rfl
@[simp] theorem completeStep_tag (s : State) : (completeStep s).regs.tag = s.regs.tag := rfl
@[simp] theorem completeStep_fbBase (s : State) : (completeStep s).regs.fbBase = s.regs.fbBase := rfl
@[simp] theorem completeStep_fbW (s : State) : (completeStep s).regs.fbW = s.regs.fbW := rfl
@[simp] theorem completeStep_fbH (s : State) : (completeStep s).regs.fbH = s.regs.fbH := rfl
@[simp] theorem completeStep_emitCount (s : State) : (completeStep s).regs.emitCount = s.regs.emitCount := rfl
@[simp] theorem completeStep_glyph (s : State) : (completeStep s).regs.glyph = s.regs.glyph := rfl
@[simp] theorem completeStep_latch (s : State) : (completeStep s).latch = s.latch := rfl
@[simp] theorem completeStep_seq (s : State) : (completeStep s).seq = .idle := rfl
@[simp] theorem completeStep_bidx (s : State) : (completeStep s).bidx = s.bidx := rfl
@[simp] theorem completeStep_rowsh (s : State) : (completeStep s).rowsh = s.rowsh := rfl
@[simp] theorem completeStep_pend (s : State) : (completeStep s).pend = s.pend := rfl
@[simp] theorem completeStep_px (s : State) : (completeStep s).px = s.px := rfl
@[simp] theorem completeStep_fb (s : State) : (completeStep s).fb = s.fb := rfl
@[simp] theorem completeStep_rst (s : State) : (completeStep s).rst = s.rst := rfl
@[simp] theorem completeStep_hRdata (s : State) : (completeStep s).hRdata = s.hRdata := rfl
@[simp] theorem completeStep_hErr (s : State) : (completeStep s).hErr = s.hErr := rfl
@[simp] theorem completeStep_mem (s : State) : (completeStep s).mem = s.mem := rfl
@[simp] theorem completeStep_stream (s : State) : (completeStep s).stream = s.stream := rfl
@[simp] theorem completeStep_fbLog (s : State) : (completeStep s).fbLog = s.fbLog := rfl
@[simp] theorem completeStep_inputs (s : State) : (completeStep s).inputs = s.inputs := rfl
@[simp] theorem completeStep_agentData (s : State) : (completeStep s).agentData = s.agentData := rfl
@[simp] theorem completeStep_freeCount (s : State) : (completeStep s).freeCount = s.freeCount := rfl

/-! `countTake` -/

@[simp] theorem countTake_ctrl (s : State) : (countTake s).regs.ctrl = s.regs.ctrl := rfl
@[simp] theorem countTake_done (s : State) : (countTake s).regs.done = s.regs.done := rfl
@[simp] theorem countTake_errCmd (s : State) : (countTake s).regs.errCmd = s.regs.errCmd := rfl
@[simp] theorem countTake_errBusy (s : State) : (countTake s).regs.errBusy = s.regs.errBusy := rfl
@[simp] theorem countTake_errAlign (s : State) : (countTake s).regs.errAlign = s.regs.errAlign := rfl
@[simp] theorem countTake_code (s : State) : (countTake s).regs.code = s.regs.code := rfl
@[simp] theorem countTake_orgX (s : State) : (countTake s).regs.orgX = s.regs.orgX := rfl
@[simp] theorem countTake_orgY (s : State) : (countTake s).regs.orgY = s.regs.orgY := rfl
@[simp] theorem countTake_color (s : State) : (countTake s).regs.color = s.regs.color := rfl
@[simp] theorem countTake_tag (s : State) : (countTake s).regs.tag = s.regs.tag := rfl
@[simp] theorem countTake_fbBase (s : State) : (countTake s).regs.fbBase = s.regs.fbBase := rfl
@[simp] theorem countTake_fbW (s : State) : (countTake s).regs.fbW = s.regs.fbW := rfl
@[simp] theorem countTake_fbH (s : State) : (countTake s).regs.fbH = s.regs.fbH := rfl
@[simp] theorem countTake_emitCount (s : State) : (countTake s).regs.emitCount = s.regs.emitCount + 1 := rfl
@[simp] theorem countTake_glyph (s : State) : (countTake s).regs.glyph = s.regs.glyph := rfl
@[simp] theorem countTake_latch (s : State) : (countTake s).latch = s.latch := rfl
@[simp] theorem countTake_seq (s : State) : (countTake s).seq = s.seq := rfl
@[simp] theorem countTake_bidx (s : State) : (countTake s).bidx = s.bidx := rfl
@[simp] theorem countTake_rowsh (s : State) : (countTake s).rowsh = s.rowsh := rfl
@[simp] theorem countTake_pend (s : State) : (countTake s).pend = false := rfl
@[simp] theorem countTake_px (s : State) : (countTake s).px = s.px := rfl
@[simp] theorem countTake_fb (s : State) : (countTake s).fb = s.fb := rfl
@[simp] theorem countTake_rst (s : State) : (countTake s).rst = s.rst := rfl
@[simp] theorem countTake_hRdata (s : State) : (countTake s).hRdata = s.hRdata := rfl
@[simp] theorem countTake_hErr (s : State) : (countTake s).hErr = s.hErr := rfl
@[simp] theorem countTake_mem (s : State) : (countTake s).mem = s.mem := rfl
@[simp] theorem countTake_stream (s : State) : (countTake s).stream = s.stream := rfl
@[simp] theorem countTake_fbLog (s : State) : (countTake s).fbLog = s.fbLog := rfl
@[simp] theorem countTake_inputs (s : State) : (countTake s).inputs = s.inputs := rfl
@[simp] theorem countTake_agentData (s : State) : (countTake s).agentData = s.agentData := rfl
@[simp] theorem countTake_freeCount (s : State) : (countTake s).freeCount = s.freeCount := rfl

/-! `resetEdge` -/

@[simp] theorem resetEdge_regs (s : State) : (resetEdge s).regs = Regs.reset := rfl
@[simp] theorem resetEdge_latch (s : State) : (resetEdge s).latch = Latch.reset := rfl
@[simp] theorem resetEdge_seq (s : State) : (resetEdge s).seq = .idle := rfl
@[simp] theorem resetEdge_bidx (s : State) : (resetEdge s).bidx = 0 := rfl
@[simp] theorem resetEdge_rowsh (s : State) : (resetEdge s).rowsh = 0 := rfl
@[simp] theorem resetEdge_pend (s : State) : (resetEdge s).pend = false := rfl
@[simp] theorem resetEdge_px (s : State) : (resetEdge s).px = ⟨0, 0, 0, 0⟩ := rfl
@[simp] theorem resetEdge_fb (s : State) : (resetEdge s).fb = ⟨0, 0, 0⟩ := rfl
@[simp] theorem resetEdge_rst (s : State) : (resetEdge s).rst = true := rfl
@[simp] theorem resetEdge_hRdata (s : State) : (resetEdge s).hRdata = 0 := rfl
@[simp] theorem resetEdge_hErr (s : State) : (resetEdge s).hErr = false := rfl
@[simp] theorem resetEdge_mem (s : State) : (resetEdge s).mem = s.mem := rfl
@[simp] theorem resetEdge_stream (s : State) : (resetEdge s).stream = s.stream := rfl
@[simp] theorem resetEdge_fbLog (s : State) : (resetEdge s).fbLog = s.fbLog := rfl
@[simp] theorem resetEdge_inputs (s : State) : (resetEdge s).inputs = s.inputs := rfl
@[simp] theorem resetEdge_agentData (s : State) : (resetEdge s).agentData = s.agentData := rfl
@[simp] theorem resetEdge_freeCount (s : State) : (resetEdge s).freeCount = s.freeCount := rfl

/-! `resetClock`: what it delivers is `resetClock_cases` -/

@[simp] theorem resetClock_regs (px fb : Bool) (s : State) : (resetClock px fb s).regs = Regs.reset := rfl
@[simp] theorem resetClock_latch (px fb : Bool) (s : State) : (resetClock px fb s).latch = Latch.reset := rfl
@[simp] theorem resetClock_seq (px fb : Bool) (s : State) : (resetClock px fb s).seq = .idle := rfl
@[simp] theorem resetClock_bidx (px fb : Bool) (s : State) : (resetClock px fb s).bidx = 0 := rfl
@[simp] theorem resetClock_rowsh (px fb : Bool) (s : State) : (resetClock px fb s).rowsh = 0 := rfl
@[simp] theorem resetClock_pend (px fb : Bool) (s : State) : (resetClock px fb s).pend = false := rfl
@[simp] theorem resetClock_px (px fb : Bool) (s : State) : (resetClock px fb s).px = ⟨0, 0, 0, 0⟩ := rfl
@[simp] theorem resetClock_fb (px fb : Bool) (s : State) : (resetClock px fb s).fb = ⟨0, 0, 0⟩ := rfl
@[simp] theorem resetClock_rst (px fb : Bool) (s : State) : (resetClock px fb s).rst = true := rfl
@[simp] theorem resetClock_hRdata (px fb : Bool) (s : State) : (resetClock px fb s).hRdata = 0 := rfl
@[simp] theorem resetClock_hErr (px fb : Bool) (s : State) : (resetClock px fb s).hErr = false := rfl
@[simp] theorem resetClock_inputs (px fb : Bool) (s : State) : (resetClock px fb s).inputs = s.inputs := by
  unfold resetClock takeIfReady takeStep; split <;> [split <;> rfl; rfl]
@[simp] theorem resetClock_agentData (px fb : Bool) (s : State) : (resetClock px fb s).agentData = s.agentData := by
  unfold resetClock takeIfReady takeStep; split <;> [split <;> rfl; rfl]
@[simp] theorem resetClock_freeCount (px fb : Bool) (s : State) : (resetClock px fb s).freeCount = s.freeCount := by
  unfold resetClock takeIfReady takeStep; split <;> [split <;> rfl; rfl]

/-! `raise_cmd` -/

@[simp] theorem raise_cmd_ctrl (s : State) : (raise .cmd s).regs.ctrl = s.regs.ctrl := rfl
@[simp] theorem raise_cmd_done (s : State) : (raise .cmd s).regs.done = s.regs.done := rfl
@[simp] theorem raise_cmd_errCmd (s : State) : (raise .cmd s).regs.errCmd = true := rfl
@[simp] theorem raise_cmd_errBusy (s : State) : (raise .cmd s).regs.errBusy = s.regs.errBusy := rfl
@[simp] theorem raise_cmd_errAlign (s : State) : (raise .cmd s).regs.errAlign = s.regs.errAlign := rfl
@[simp] theorem raise_cmd_code (s : State) : (raise .cmd s).regs.code = s.regs.code := rfl
@[simp] theorem raise_cmd_orgX (s : State) : (raise .cmd s).regs.orgX = s.regs.orgX := rfl
@[simp] theorem raise_cmd_orgY (s : State) : (raise .cmd s).regs.orgY = s.regs.orgY := rfl
@[simp] theorem raise_cmd_color (s : State) : (raise .cmd s).regs.color = s.regs.color := rfl
@[simp] theorem raise_cmd_tag (s : State) : (raise .cmd s).regs.tag = s.regs.tag := rfl
@[simp] theorem raise_cmd_fbBase (s : State) : (raise .cmd s).regs.fbBase = s.regs.fbBase := rfl
@[simp] theorem raise_cmd_fbW (s : State) : (raise .cmd s).regs.fbW = s.regs.fbW := rfl
@[simp] theorem raise_cmd_fbH (s : State) : (raise .cmd s).regs.fbH = s.regs.fbH := rfl
@[simp] theorem raise_cmd_emitCount (s : State) : (raise .cmd s).regs.emitCount = s.regs.emitCount := rfl
@[simp] theorem raise_cmd_glyph (s : State) : (raise .cmd s).regs.glyph = s.regs.glyph := rfl
@[simp] theorem raise_cmd_latch (s : State) : (raise .cmd s).latch = s.latch := rfl
@[simp] theorem raise_cmd_seq (s : State) : (raise .cmd s).seq = s.seq := rfl
@[simp] theorem raise_cmd_bidx (s : State) : (raise .cmd s).bidx = s.bidx := rfl
@[simp] theorem raise_cmd_rowsh (s : State) : (raise .cmd s).rowsh = s.rowsh := rfl
@[simp] theorem raise_cmd_pend (s : State) : (raise .cmd s).pend = s.pend := rfl
@[simp] theorem raise_cmd_px (s : State) : (raise .cmd s).px = s.px := rfl
@[simp] theorem raise_cmd_fb (s : State) : (raise .cmd s).fb = s.fb := rfl
@[simp] theorem raise_cmd_rst (s : State) : (raise .cmd s).rst = s.rst := rfl
@[simp] theorem raise_cmd_hRdata (s : State) : (raise .cmd s).hRdata = s.hRdata := rfl
@[simp] theorem raise_cmd_hErr (s : State) : (raise .cmd s).hErr = s.hErr := rfl
@[simp] theorem raise_cmd_mem (s : State) : (raise .cmd s).mem = s.mem := rfl
@[simp] theorem raise_cmd_stream (s : State) : (raise .cmd s).stream = s.stream := rfl
@[simp] theorem raise_cmd_fbLog (s : State) : (raise .cmd s).fbLog = s.fbLog := rfl
@[simp] theorem raise_cmd_inputs (s : State) : (raise .cmd s).inputs = s.inputs := rfl
@[simp] theorem raise_cmd_agentData (s : State) : (raise .cmd s).agentData = s.agentData := rfl
@[simp] theorem raise_cmd_freeCount (s : State) : (raise .cmd s).freeCount = s.freeCount := rfl

/-! `raise_busy` -/

@[simp] theorem raise_busy_ctrl (s : State) : (raise .busy s).regs.ctrl = s.regs.ctrl := rfl
@[simp] theorem raise_busy_done (s : State) : (raise .busy s).regs.done = s.regs.done := rfl
@[simp] theorem raise_busy_errCmd (s : State) : (raise .busy s).regs.errCmd = s.regs.errCmd := rfl
@[simp] theorem raise_busy_errBusy (s : State) : (raise .busy s).regs.errBusy = true := rfl
@[simp] theorem raise_busy_errAlign (s : State) : (raise .busy s).regs.errAlign = s.regs.errAlign := rfl
@[simp] theorem raise_busy_code (s : State) : (raise .busy s).regs.code = s.regs.code := rfl
@[simp] theorem raise_busy_orgX (s : State) : (raise .busy s).regs.orgX = s.regs.orgX := rfl
@[simp] theorem raise_busy_orgY (s : State) : (raise .busy s).regs.orgY = s.regs.orgY := rfl
@[simp] theorem raise_busy_color (s : State) : (raise .busy s).regs.color = s.regs.color := rfl
@[simp] theorem raise_busy_tag (s : State) : (raise .busy s).regs.tag = s.regs.tag := rfl
@[simp] theorem raise_busy_fbBase (s : State) : (raise .busy s).regs.fbBase = s.regs.fbBase := rfl
@[simp] theorem raise_busy_fbW (s : State) : (raise .busy s).regs.fbW = s.regs.fbW := rfl
@[simp] theorem raise_busy_fbH (s : State) : (raise .busy s).regs.fbH = s.regs.fbH := rfl
@[simp] theorem raise_busy_emitCount (s : State) : (raise .busy s).regs.emitCount = s.regs.emitCount := rfl
@[simp] theorem raise_busy_glyph (s : State) : (raise .busy s).regs.glyph = s.regs.glyph := rfl
@[simp] theorem raise_busy_latch (s : State) : (raise .busy s).latch = s.latch := rfl
@[simp] theorem raise_busy_seq (s : State) : (raise .busy s).seq = s.seq := rfl
@[simp] theorem raise_busy_bidx (s : State) : (raise .busy s).bidx = s.bidx := rfl
@[simp] theorem raise_busy_rowsh (s : State) : (raise .busy s).rowsh = s.rowsh := rfl
@[simp] theorem raise_busy_pend (s : State) : (raise .busy s).pend = s.pend := rfl
@[simp] theorem raise_busy_px (s : State) : (raise .busy s).px = s.px := rfl
@[simp] theorem raise_busy_fb (s : State) : (raise .busy s).fb = s.fb := rfl
@[simp] theorem raise_busy_rst (s : State) : (raise .busy s).rst = s.rst := rfl
@[simp] theorem raise_busy_hRdata (s : State) : (raise .busy s).hRdata = s.hRdata := rfl
@[simp] theorem raise_busy_hErr (s : State) : (raise .busy s).hErr = s.hErr := rfl
@[simp] theorem raise_busy_mem (s : State) : (raise .busy s).mem = s.mem := rfl
@[simp] theorem raise_busy_stream (s : State) : (raise .busy s).stream = s.stream := rfl
@[simp] theorem raise_busy_fbLog (s : State) : (raise .busy s).fbLog = s.fbLog := rfl
@[simp] theorem raise_busy_inputs (s : State) : (raise .busy s).inputs = s.inputs := rfl
@[simp] theorem raise_busy_agentData (s : State) : (raise .busy s).agentData = s.agentData := rfl
@[simp] theorem raise_busy_freeCount (s : State) : (raise .busy s).freeCount = s.freeCount := rfl

/-! `raise_align` -/

@[simp] theorem raise_align_ctrl (s : State) : (raise .align s).regs.ctrl = s.regs.ctrl := rfl
@[simp] theorem raise_align_done (s : State) : (raise .align s).regs.done = s.regs.done := rfl
@[simp] theorem raise_align_errCmd (s : State) : (raise .align s).regs.errCmd = s.regs.errCmd := rfl
@[simp] theorem raise_align_errBusy (s : State) : (raise .align s).regs.errBusy = s.regs.errBusy := rfl
@[simp] theorem raise_align_errAlign (s : State) : (raise .align s).regs.errAlign = true := rfl
@[simp] theorem raise_align_code (s : State) : (raise .align s).regs.code = s.regs.code := rfl
@[simp] theorem raise_align_orgX (s : State) : (raise .align s).regs.orgX = s.regs.orgX := rfl
@[simp] theorem raise_align_orgY (s : State) : (raise .align s).regs.orgY = s.regs.orgY := rfl
@[simp] theorem raise_align_color (s : State) : (raise .align s).regs.color = s.regs.color := rfl
@[simp] theorem raise_align_tag (s : State) : (raise .align s).regs.tag = s.regs.tag := rfl
@[simp] theorem raise_align_fbBase (s : State) : (raise .align s).regs.fbBase = s.regs.fbBase := rfl
@[simp] theorem raise_align_fbW (s : State) : (raise .align s).regs.fbW = s.regs.fbW := rfl
@[simp] theorem raise_align_fbH (s : State) : (raise .align s).regs.fbH = s.regs.fbH := rfl
@[simp] theorem raise_align_emitCount (s : State) : (raise .align s).regs.emitCount = s.regs.emitCount := rfl
@[simp] theorem raise_align_glyph (s : State) : (raise .align s).regs.glyph = s.regs.glyph := rfl
@[simp] theorem raise_align_latch (s : State) : (raise .align s).latch = s.latch := rfl
@[simp] theorem raise_align_seq (s : State) : (raise .align s).seq = s.seq := rfl
@[simp] theorem raise_align_bidx (s : State) : (raise .align s).bidx = s.bidx := rfl
@[simp] theorem raise_align_rowsh (s : State) : (raise .align s).rowsh = s.rowsh := rfl
@[simp] theorem raise_align_pend (s : State) : (raise .align s).pend = s.pend := rfl
@[simp] theorem raise_align_px (s : State) : (raise .align s).px = s.px := rfl
@[simp] theorem raise_align_fb (s : State) : (raise .align s).fb = s.fb := rfl
@[simp] theorem raise_align_rst (s : State) : (raise .align s).rst = s.rst := rfl
@[simp] theorem raise_align_hRdata (s : State) : (raise .align s).hRdata = s.hRdata := rfl
@[simp] theorem raise_align_hErr (s : State) : (raise .align s).hErr = s.hErr := rfl
@[simp] theorem raise_align_mem (s : State) : (raise .align s).mem = s.mem := rfl
@[simp] theorem raise_align_stream (s : State) : (raise .align s).stream = s.stream := rfl
@[simp] theorem raise_align_fbLog (s : State) : (raise .align s).fbLog = s.fbLog := rfl
@[simp] theorem raise_align_inputs (s : State) : (raise .align s).inputs = s.inputs := rfl
@[simp] theorem raise_align_agentData (s : State) : (raise .align s).agentData = s.agentData := rfl
@[simp] theorem raise_align_freeCount (s : State) : (raise .align s).freeCount = s.freeCount := rfl

@[simp] theorem driveRst_true (s : State) : driveRst true s = resetEdge s := rfl
@[simp] theorem driveRst_false (s : State) : driveRst false s = { s with rst := false } := rfl

/-! `Memory` at the two list forms -/

@[simp] theorem memory_read_nil (a : Nat) : Memory.read [] a = none := rfl
@[simp] theorem memory_read_cons (b : Nat) (x : Byte) (m : Memory) (a : Nat) :
    Memory.read ((b, x) :: m) a = if a = b then some x else Memory.read m a := rfl

end Sys2Proof.Machine
end

