-- ==== Sys2Proof/Laws/Memory.lean ====
section
/-! SUPPORT. The laws of the framebuffer memory: a read after a write, the canonical form and that every operation
keeps it, and that two canonical memories with the same bytes are equal. -/

namespace Sys2Proof.Machine

/-- A write leaves its value at its address and every other address alone. -/
theorem memory_read_write (m : Memory) (a : Nat) (v : Byte) (b : Nat) :
    (m.write a v).read b = if b = a then some v else m.read b := by
  induction m with
  | nil => simp [Memory.write]
  | cons c rest ih =>
    obtain ⟨x, y⟩ := c
    unfold Memory.write
    split_ifs <;> simp only [memory_read_cons, ih] <;> split_ifs <;> simp_all

/-- Writing keeps the canonical form above a bound. -/
theorem memory_write_wfFrom (m : Memory) (lo a : Nat) (v : Byte) (hm : m.wfFrom lo = true) (hlo : lo ≤ a)
    (ha : a < 2 ^ 32) : (m.write a v).wfFrom lo = true := by
  induction m generalizing lo with
  | nil => simp [Memory.write, Memory.wfFrom, hlo]; omega
  | cons c rest ih =>
    obtain ⟨x, y⟩ := c
    simp only [Memory.wfFrom, Bool.and_eq_true, decide_eq_true_eq] at hm
    obtain ⟨⟨h1, h2⟩, h3⟩ := hm
    unfold Memory.write
    split_ifs with hlt heq
    · simp only [Memory.wfFrom, Bool.and_eq_true, decide_eq_true_eq]
      exact ⟨⟨hlo, ha⟩, ⟨by omega, h2⟩, h3⟩
    · subst heq
      simp only [Memory.wfFrom, Bool.and_eq_true, decide_eq_true_eq]
      exact ⟨⟨hlo, ha⟩, h3⟩
    · simp only [Memory.wfFrom, Bool.and_eq_true, decide_eq_true_eq]
      exact ⟨⟨h1, h2⟩, ih (x + 1) h3 (by omega)⟩

/-- Writing keeps the canonical form. -/
theorem memory_write_wf (m : Memory) (a : Nat) (v : Byte) (hm : m.wf = true) (ha : a < 2 ^ 32) :
    (m.write a v).wf = true := memory_write_wfFrom m 0 a v hm (Nat.zero_le a) ha

/-- A canonical memory above a bound has no byte below it. -/
theorem memory_read_below (m : Memory) (lo a : Nat) (hm : m.wfFrom lo = true) (ha : a < lo) : m.read a = none := by
  induction m generalizing lo with
  | nil => rfl
  | cons c rest ih =>
    obtain ⟨x, y⟩ := c
    simp only [Memory.wfFrom, Bool.and_eq_true, decide_eq_true_eq] at hm
    rw [memory_read_cons, if_neg (by omega)]
    exact ih (x + 1) hm.2 (by omega)

/-- Two canonical memories that read the same everywhere are the same list. -/
theorem memory_ext_from (m n : Memory) (lo lo' : Nat) (hm : m.wfFrom lo = true) (hn : n.wfFrom lo' = true)
    (h : ∀ a, m.read a = n.read a) : m = n := by
  induction m generalizing n lo lo' with
  | nil =>
    cases n with
    | nil => rfl
    | cons d rest =>
      obtain ⟨z, w⟩ := d
      simpa using h z
  | cons c rest ih =>
    obtain ⟨x, y⟩ := c
    cases n with
    | nil => simpa using h x
    | cons d rest' =>
      obtain ⟨z, w⟩ := d
      simp only [Memory.wfFrom, Bool.and_eq_true, decide_eq_true_eq] at hm hn
      have hxz : x = z := by
        rcases Nat.lt_trichotomy x z with hlt | heq | hgt
        · have hx := h x
          rw [memory_read_cons, if_pos rfl, memory_read_cons, if_neg (by omega),
            memory_read_below rest' (z + 1) x hn.2 (by omega)] at hx
          simp at hx
        · exact heq
        · have hz := h z
          rw [memory_read_cons, if_neg (by omega), memory_read_cons, if_pos rfl,
            memory_read_below rest (x + 1) z hm.2 (by omega)] at hz
          simp at hz
      subst hxz
      have hyw : y = w := by simpa using h x
      subst hyw
      have hrest : rest = rest' := by
        refine ih rest' (x + 1) (x + 1) hm.2 hn.2 fun a => ?_
        by_cases hax : a = x
        · subst hax
          rw [memory_read_below rest _ a hm.2 (by omega), memory_read_below rest' _ a hn.2 (by omega)]
        · simpa [hax] using h a
      rw [hrest]

/-- Two canonical memories that read the same everywhere are equal. -/
theorem memory_ext (m n : Memory) (hm : m.wf = true) (hn : n.wf = true) (h : ∀ a, m.read a = n.read a) : m = n :=
  memory_ext_from m n 0 0 hm hn h

/-- A one-byte element write. -/
theorem memWrite_one (w : FbWrite) (m : Memory) (h : w.size = 0) :
    memWrite w m = m.write w.addr.toNat (w.data.extractLsb' 0 8) := by
  unfold memWrite
  exact if_pos h

/-- A two-byte element write. -/
theorem memWrite_two (w : FbWrite) (m : Memory) (h : w.size ≠ 0) :
    memWrite w m =
      (m.write w.addr.toNat (w.data.extractLsb' 0 8)).write (w.addr + 1).toNat (w.data.extractLsb' 8 8) := by
  unfold memWrite
  exact if_neg h

/-- What one element write leaves at each address (R53). -/
theorem memWrite_read (w : FbWrite) (m : Memory) (a : Nat) :
    (memWrite w m).read a =
      if w.size ≠ 0 ∧ a = (w.addr + 1).toNat then some (w.data.extractLsb' 8 8)
      else if a = w.addr.toNat then some (w.data.extractLsb' 0 8) else m.read a := by
  by_cases h : w.size = 0
  · simp only [memWrite_one w m h, memory_read_write, h, ne_eq, not_true_eq_false, false_and, if_false]
  · rw [memWrite_two w m h, memory_read_write, memory_read_write]
    simp only [ne_eq, h, not_false_eq_true, true_and]

/-- The same, the low lane first: the two addresses of an element differ. -/
theorem memWrite_read_lanes (w : FbWrite) (m : Memory) (a : Nat) :
    (memWrite w m).read a =
      if a = w.addr.toNat then some (w.data.extractLsb' 0 8)
      else if w.size = 1 ∧ a = (w.addr + 1).toNat then some (w.data.extractLsb' 8 8) else m.read a := by
  have hs : ∀ x : BitVec 1, x ≠ 0 ↔ x = 1 := by decide
  have hne : w.addr.toNat ≠ (w.addr + 1).toNat := by bv_omega
  rw [memWrite_read]
  simp only [hs]
  by_cases h1 : a = w.addr.toNat
  · rw [if_neg (fun h => hne (h1 ▸ h.2)), if_pos h1, if_pos h1]
  · simp only [if_neg h1]

/-- An element write leaves every byte it does not cover. -/
theorem memWrite_read_frame (w : FbWrite) (m : Memory) (a : Nat) (h : w.covers a = false) :
    (memWrite w m).read a = m.read a := by
  simp only [FbWrite.covers, Bool.or_eq_false_iff, beq_eq_false_iff_ne, Bool.and_eq_false_imp, bne_iff_ne] at h
  rw [memWrite_read, if_neg (fun hc => h.2 hc.1 hc.2), if_neg h.1]

/-- An element write leaves the same byte at an address it covers, whatever the memory held. -/
theorem memWrite_read_covered (w : FbWrite) (m n : Memory) (a : Nat) (h : w.covers a = true) :
    (memWrite w m).read a = (memWrite w n).read a := by
  simp only [FbWrite.covers, Bool.or_eq_true, beq_iff_eq, Bool.and_eq_true, bne_iff_ne] at h
  rw [memWrite_read, memWrite_read]
  split_ifs with h1 h2
  · rfl
  · rfl
  · exact absurd h (by tauto)

/-- An element write keeps the canonical form. -/
theorem memWrite_wf (w : FbWrite) (m : Memory) (hm : m.wf = true) : (memWrite w m).wf = true := by
  have h1 := memory_write_wf m _ (w.data.extractLsb' 0 8) hm w.addr.isLt
  by_cases h : w.size = 0
  · rwa [memWrite_one w m h]
  · rw [memWrite_two w m h]
    exact memory_write_wf _ _ _ h1 (w.addr + 1).isLt

/-- A list of element writes keeps the canonical form. -/
theorem applyWrites_wf (ws : List FbWrite) (m : Memory) (hm : m.wf = true) : (applyWrites ws m).wf = true := by
  induction ws generalizing m with
  | nil => exact hm
  | cons w rest ih => exact ih _ (memWrite_wf w m hm)

@[simp] theorem applyWrites_nil (m : Memory) : applyWrites [] m = m := rfl
@[simp] theorem applyWrites_cons (w : FbWrite) (ws : List FbWrite) (m : Memory) :
    applyWrites (w :: ws) m = applyWrites ws (memWrite w m) := rfl
theorem applyWrites_append (ws vs : List FbWrite) (m : Memory) :
    applyWrites (ws ++ vs) m = applyWrites vs (applyWrites ws m) := by
  simp [applyWrites, List.foldl_append]

end Sys2Proof.Machine
end

