-- ==== Sys2Proof/Laws/Ops.lean ====
section
/-! SUPPORT. One lemma per shared operation that says once everything it can do. Provers cite these instead of unfolding
the operation. -/

namespace Sys2Proof.Machine

/-! ### The CMD write -/

/-- What presenting a legal command can do (R99, R183). -/
theorem presentCommand_cases (c : Command) (s : State) :
    (s.seq = .expand ∧ presentCommand c s = raise .busy s)
      ∨ (s.seq = .idle ∧ misaligned565 c s = true ∧ presentCommand c s = raise .align s)
      ∨ (s.seq = .idle ∧ misaligned565 c s = false ∧ presentCommand c s = accept c s) := by
  unfold presentCommand
  cases hs : s.seq <;> cases hm : misaligned565 c s <;> simp

/-- What a write to CMD can do (R99, R183). -/
theorem writeCmd_cases (w : Word) (s : State) :
    (s.seq = .expand ∧ writeCmd w s = raise .busy s)
      ∨ (s.seq = .idle ∧ (∃ why, decodeCommand w = .rejected why) ∧ writeCmd w s = raise .cmd s)
      ∨ (s.seq = .idle ∧ ∃ c, decodeCommand w = .ok c ∧ misaligned565 c s = true ∧ writeCmd w s = raise .align s)
      ∨ (s.seq = .idle ∧ ∃ c, decodeCommand w = .ok c ∧ misaligned565 c s = false ∧ writeCmd w s = accept c s) := by
  unfold writeCmd
  cases hs : s.seq
  · cases hd : decodeCommand w with
    | rejected why => simp
    | ok c =>
      rcases presentCommand_cases c s with ⟨h, _⟩ | ⟨_, h, e⟩ | ⟨_, h, e⟩
      · simp [hs] at h
      · simp [h, e]
      · simp [h, e]
  · simp

/-- A word whose command is known is presented as that command. -/
theorem writeCmd_of_decode (w : Word) (c : Command) (s : State) (h : decodeCommand w = .ok c) :
    writeCmd w s = presentCommand c s := by
  unfold writeCmd
  rw [h]
  unfold presentCommand
  split <;> rfl

/-- Every command word written while BUSY is discarded with ERR_BUSY (R99). -/
theorem writeCmd_busy (w : Word) (s : State) (h : s.seq ≠ .idle) : writeCmd w s = raise .busy s := if_pos h

/-- Every command presented while BUSY is discarded with ERR_BUSY (R99). -/
theorem presentCommand_busy (c : Command) (s : State) (h : s.seq ≠ .idle) : presentCommand c s = raise .busy s := if_pos h

/-- A misaligned DRAW_565 of an idle block sets ERR_ALIGN (R155). -/
theorem presentCommand_align (c : Command) (s : State) (h : s.seq = .idle) (hm : misaligned565 c s = true) :
    presentCommand c s = raise .align s := by
  rcases presentCommand_cases c s with ⟨e, _⟩ | ⟨_, _, e⟩ | ⟨_, e, _⟩
  · rw [h] at e
    cases e
  · exact e
  · rw [hm] at e
    cases e

/-- Every other legal command of an idle block is accepted (R99). -/
theorem presentCommand_accept (c : Command) (s : State) (h : s.seq = .idle) (hm : misaligned565 c s = false) :
    presentCommand c s = accept c s := by
  rcases presentCommand_cases c s with ⟨e, _⟩ | ⟨_, e, _⟩ | ⟨_, _, e⟩
  · rw [h] at e
    cases e
  · rw [hm] at e
    cases e
  · exact e

/-- An illegal word written to an idle block sets ERR_CMD (R77, R99). -/
theorem writeCmd_illegal (w : Word) (why : Reject) (s : State) (h : s.seq = .idle)
    (hw : decodeCommand w = .rejected why) : writeCmd w s = raise .cmd s := by
  rcases writeCmd_cases w s with ⟨e, _⟩ | ⟨_, _, e⟩ | ⟨_, c, e, _⟩ | ⟨_, c, e, _⟩
  · rw [h] at e
    cases e
  · exact e
  · rw [hw] at e
    cases e
  · rw [hw] at e
    cases e

/-- The accept of a command ends in one of four states (R99). -/
theorem accept_cases (c : Command) (s : State) :
    (c = .nop ∧ accept c s = finishAtOnce (beginCommand s))
      ∨ (c = .lookup ∧ accept c s = finishAtOnce (storeGlyph (lookupGlyph s.regs.code) (beginCommand s)))
      ∨ (∃ k, c = .draw k false ∧ accept c s = startDraw k (storeGlyph (lookupGlyph s.regs.code) (beginCommand s)))
      ∨ (∃ k, c = .draw k true ∧ accept c s = startDraw k (beginCommand s)) := by
  cases c with
  | nop => exact .inl ⟨rfl, rfl⟩
  | lookup => exact .inr (.inl ⟨rfl, rfl⟩)
  | draw k g =>
    cases g
    · exact .inr (.inr (.inl ⟨k, rfl, rfl⟩))
    · exact .inr (.inr (.inr ⟨k, rfl, rfl⟩))

/-! ### Host access -/

/-- What a host access can do (R91, R202). -/
theorem hostAccess_cases (w : Bool) (sz : BitVec 2) (off : BitVec 7) (d : Word) (s : State) :
    (s.rst = true ∧ hostAccess w sz off d s = respond 0 false s)
      ∨ (s.rst = false ∧ admitted sz off = false ∧ hostAccess w sz off d s = respond 0 true s)
      ∨ (s.rst = false ∧ admitted sz off = true ∧ w = false
          ∧ hostAccess w sz off d s = respond (readReg (regNumber off) s) false s)
      ∨ (s.rst = false ∧ admitted sz off = true ∧ w = true
          ∧ hostAccess w sz off d s = respond 0 false (writeReg (regNumber off) d s)) := by
  unfold hostAccess
  cases s.rst <;> cases admitted sz off <;> cases w <;> simp

/-- The transaction of a legal command (R91, R99, R202). -/
theorem commandTransaction_eq (c : Command) (s : State) :
    commandTransaction c s = respond 0 false (if s.rst then s else presentCommand c s) := by
  unfold commandTransaction
  cases s.rst <;> rfl

/-- A write to a register either leaves the state, clears STATUS bits, presents a command word, or replaces one
read-write register (R95 to R99). -/
theorem writeReg_cases (n : BitVec 5) (d : Word) (s : State) :
    (regAt n = none ∧ writeReg n d s = s) ∨ ∃ r, regAt n = some r ∧ writeReg n d s = writeNamed r d s := by
  unfold writeReg
  cases h : regAt n with
  | none => exact .inl ⟨rfl, rfl⟩
  | some r => exact .inr ⟨r, rfl, rfl⟩

/-! ### The block's own steps -/

/-- The offered payload in the two kinds of sink (R131). -/
theorem offer_cases (r k : Nat) (s : State) :
    (s.latch.sink = .cb ∧ offer r k s = { s with pend := true, px := pxEvent s.latch r k })
      ∨ (s.latch.sink ≠ .cb ∧ ∃ w, fbPayload s.latch r k = some w ∧ offer r k s = { s with pend := true, fb := w }) := by
  unfold offer fbPayload
  cases s.latch.sink <;> simp

/-- What a bit step can do (R131). -/
theorem bitStep_cases (s : State) :
    (s.shiftIn.getLsbD 7 = true ∧ inClip s.latch s.row s.col = true
        ∧ bitStep s = offer s.row s.col (shiftBit s))
      ∨ ((s.shiftIn.getLsbD 7 && inClip s.latch s.row s.col) = false ∧ bitStep s = shiftBit s) := by
  unfold bitStep
  cases h : (s.shiftIn.getLsbD 7 && inClip s.latch s.row s.col)
  · exact .inr ⟨rfl, rfl⟩
  · rw [Bool.and_eq_true] at h
    exact .inl ⟨h.1, h.2, rfl⟩

/-- What the block's own step can do (R131, R135). -/
theorem blockStep_cases (s : State) :
    (s.bitEnabled = true ∧ blockStep s = bitStep s)
      ∨ (s.bitEnabled = false ∧ s.completeEnabled = true ∧ blockStep s = completeStep s)
      ∨ (s.bitEnabled = false ∧ s.completeEnabled = false ∧ blockStep s = s) := by
  unfold blockStep
  cases s.bitEnabled <;> cases s.completeEnabled <;> simp

/-- When a bit step is enabled (R131). -/
theorem bitEnabled_iff (s : State) :
    s.bitEnabled = true ↔ s.seq = .expand ∧ s.pend = false ∧ s.bidx.toNat < 64 := by
  simp [State.bitEnabled, and_assoc]

/-- When the completion is enabled (R135). -/
theorem completeEnabled_iff (s : State) :
    s.completeEnabled = true ↔ s.seq = .expand ∧ s.pend = false ∧ s.bidx = 64 := by
  simp [State.completeEnabled, and_assoc]

/-- What a take step does in the two kinds of sink (R134). -/
theorem takeStep_cases (s : State) :
    (s.latch.sink = .cb ∧ takeStep s = { countTake s with stream := s.stream ++ [s.px] })
      ∨ (s.latch.sink ≠ .cb
          ∧ takeStep s = { countTake s with mem := memWrite s.fb s.mem, fbLog := s.fbLog ++ [s.fb] }) := by
  unfold takeStep
  cases s.latch.sink <;> simp

/-- A ready input takes the offer or changes nothing (R15, R16, R134). -/
theorem takeIfReady_cases (px fb : Bool) (s : State) :
    (s.pend = true ∧ sinkReady px fb s = true ∧ takeIfReady px fb s = takeStep s)
      ∨ ((s.pend = false ∨ sinkReady px fb s = false) ∧ takeIfReady px fb s = s) := by
  unfold takeIfReady
  cases s.pend <;> cases sinkReady px fb s <;> simp

/-! ### Instructions, transactions and steps -/

/-- Every instruction answers a next state: its host access, or its command's transaction. -/
theorem exec_cases (i : Instr) (s : State) :
    (∃ c : Command, i = c.toInstr ∧ exec i s = .next (commandTransaction c s))
      ∨ (∃ w off d, exec i s = .next (hostAccess w 2 off d s)) := by
  cases i with
  | nop => exact .inl ⟨.nop, rfl, rfl⟩
  | lookup => exact .inl ⟨.lookup, rfl, rfl⟩
  | drawCb => exact .inl ⟨.draw .cb false, rfl, rfl⟩
  | drawCbG => exact .inl ⟨.draw .cb true, rfl, rfl⟩
  | drawMono => exact .inl ⟨.draw .mono false, rfl, rfl⟩
  | drawMonoG => exact .inl ⟨.draw .mono true, rfl, rfl⟩
  | draw565 => exact .inl ⟨.draw .rgb565 false, rfl, rfl⟩
  | draw565G => exact .inl ⟨.draw .rgb565 true, rfl, rfl⟩
  | wr off d => exact .inr ⟨true, off, d, rfl⟩
  | rd off => exact .inr ⟨false, off, 0, rfl⟩

/-- A command's instruction runs that command's transaction. -/
theorem exec_toInstr (c : Command) (s : State) : exec c.toInstr s = .next (commandTransaction c s) := by
  rcases c with _ | _ | ⟨k, g⟩
  · rfl
  · rfl
  · cases k <;> cases g <;> rfl

/-- A word write to CMD presents its data as a command word (R99). -/
theorem hostAccess_cmd (w : Word) (s : State) :
    hostAccess true 2 cmdOffset w s = respond 0 false (if s.rst then s else writeCmd w s) := by
  have hr : regAt (regNumber cmdOffset) = some .cmd := by decide
  have ha : admitted 2 cmdOffset = true := by decide
  unfold hostAccess writeReg
  rw [ha, hr]
  cases s.rst <;> rfl

/-- A command's instruction outside reset (R91, R99). -/
theorem exec_command (c : Command) (s : State) (h : s.rst = false) :
    exec c.toInstr s = .next (respond 0 false (presentCommand c s)) := by
  rw [exec_toInstr, commandTransaction_eq, if_neg (by simp [h])]

/-- A word write to CMD outside reset (R91, R99). -/
theorem exec_wr_cmd (w : Word) (s : State) (h : s.rst = false) :
    exec (.wr cmdOffset w) s = .next (respond 0 false (writeCmd w s)) := by
  show Host.Outcome.next (hostAccess true 2 cmdOffset w s) = _
  rw [hostAccess_cmd, if_neg (by simp [h])]

/-- A transaction that decodes does what the host access of its four fields does (R70, R91). -/
theorem hostTransaction_eq (t : HT) (s : State) :
    hostTransaction t s = .next (hostAccess (htW t) (htSz t) (htOff t) (htData t) s) := by
  unfold hostTransaction
  by_cases h : htSz t = 2
  · rw [decodeHt_word t h, h]
    cases hw : htW t
    · rfl
    · by_cases ho : htOff t = cmdOffset
      · cases hd : decodeCommand (htData t) with
        | rejected why => simp [decodeWrite, ho, hd, exec, execWr]
        | ok c =>
          simp only [decodeWrite, ho, hd, if_true]
          rw [exec_toInstr, hostAccess_cmd, commandTransaction_eq, writeCmd_of_decode _ c s hd]
      · simp [decodeWrite, ho, exec, execWr]
  · obtain ⟨why, hr⟩ := decodeHt_other t h
    rw [hr]

/-- What one step can do, by its next input. -/
theorem step_nil (s : State) (h : s.inputs = []) : step s = .next (blockStep s) := by
  unfold step
  rw [h]

theorem step_cons (s : State) (i : Input) (rest : List Input) (h : s.inputs = i :: rest) :
    step s = runInput i (nextInputs rest s) := by
  unfold step
  rw [h]

/-- A step on an input presented to a state runs that input at that state. -/
@[simp] theorem step_presentInput (i : Input) (s : State) : step (presentInput i s) = runInput i s := rfl

/-- What an edge with `rst` = 1 delivers: the pending output where its ready is 1, and nothing otherwise (R15, R16, R201).
The rest is the reset (R200). -/
theorem resetClock_cases (px fb : Bool) (s : State) :
    (s.pend = true ∧ sinkReady px fb s = true ∧ s.latch.sink = .cb
        ∧ resetClock px fb s = resetEdge { s with stream := s.stream ++ [s.px] })
      ∨ (s.pend = true ∧ sinkReady px fb s = true ∧ s.latch.sink ≠ .cb
        ∧ resetClock px fb s = resetEdge { s with mem := memWrite s.fb s.mem, fbLog := s.fbLog ++ [s.fb] })
      ∨ ((s.pend = false ∨ sinkReady px fb s = false) ∧ resetClock px fb s = resetEdge s) := by
  unfold resetClock
  rcases takeIfReady_cases px fb s with ⟨hp, hr, e⟩ | ⟨h, e⟩ <;> rw [e]
  · rcases takeStep_cases s with ⟨hs, e⟩ | ⟨hs, e⟩ <;> rw [e]
    · exact .inl ⟨hp, hr, hs, rfl⟩
    · exact .inr (.inl ⟨hp, hr, hs, rfl⟩)
  · exact .inr (.inr ⟨h, rfl⟩)

/-- An edge with `rst` = 1 at which nothing is ready is the reset alone (R200). -/
@[simp] theorem resetClock_idle (s : State) : resetClock false false s = resetEdge s := by
  rcases resetClock_cases false false s with ⟨_, h, _⟩ | ⟨_, h, _⟩ | ⟨_, e⟩
  · cases hs : s.latch.sink <;> simp [sinkReady, hs] at h
  · cases hs : s.latch.sink <;> simp [sinkReady, hs] at h
  · exact e

/-- A rising edge: with `rst` = 1 the take and the reset, otherwise the transaction, then the block's part (R90, R200, R213). -/
theorem clockEdge_eq (p : Pins) (s : State) :
    clockEdge p s = .next
      (if p.rst then resetClock p.pxReady p.fbReady s
       else blockEdge s.busy p.pxReady p.fbReady
        (match p.txn with
          | none => driveRst false s
          | some t => hostAccess (htW t) (htSz t) (htOff t) (htData t) (driveRst false s))) := by
  unfold clockEdge
  cases hp : p.rst
  · cases ht : p.txn with
    | none => simp
    | some t => simp [hostTransaction_eq, onNext]
  · simp

/-- What a step that answers a next state has done, by its input. -/
theorem step_next_cases (s t : State) (h : step s = .next t) :
    (s.inputs = [] ∧ t = blockStep s)
      ∨ ∃ i rest, s.inputs = i :: rest ∧
        ((∃ x, i = .host x ∧ t = hostAccess (htW x) (htSz x) (htOff x) (htData x) (nextInputs rest s))
          ∨ (i = .block ∧ t = blockStep (nextInputs rest s))
          ∨ (∃ px fb, (i = .pxReady ∧ px = true ∧ fb = false ∨ i = .fbReady ∧ px = false ∧ fb = true)
              ∧ t = takeIfReady px fb (nextInputs rest s))
          ∨ (∃ l, i = .rst l ∧ t = driveRst l (nextInputs rest s))
          ∨ (∃ p, i = .clock p ∧ clockEdge p (nextInputs rest s) = .next t)
          ∨ (∃ w, i = .agentWrite w ∧ writeTargets w s = false ∧ t = { nextInputs rest s with mem := memWrite w s.mem })
          ∨ (∃ a size, i = .agentRead a size ∧ t = agentRead a size (nextInputs rest s))) := by
  cases hin : s.inputs with
  | nil =>
    rw [step_nil s hin] at h
    exact .inl ⟨rfl, by simpa using h.symm⟩
  | cons i rest =>
    rw [step_cons s i rest hin] at h
    refine .inr ⟨i, rest, rfl, ?_⟩
    cases i with
    | host x =>
      rw [show runInput (.host x) (nextInputs rest s) = hostTransaction x (nextInputs rest s) from rfl,
        hostTransaction_eq] at h
      exact .inl ⟨x, rfl, by simpa using h.symm⟩
    | block => exact .inr (.inl ⟨rfl, by simpa [runInput] using h.symm⟩)
    | pxReady =>
      exact .inr (.inr (.inl ⟨true, false, .inl ⟨rfl, rfl, rfl⟩, by simpa [runInput] using h.symm⟩))
    | fbReady =>
      exact .inr (.inr (.inl ⟨false, true, .inr ⟨rfl, rfl, rfl⟩, by simpa [runInput] using h.symm⟩))
    | rst l => exact .inr (.inr (.inr (.inl ⟨l, rfl, by simpa [runInput] using h.symm⟩)))
    | clock p => exact .inr (.inr (.inr (.inr (.inl ⟨p, rfl, h⟩))))
    | agentWrite w =>
      refine .inr (.inr (.inr (.inr (.inr (.inl ⟨w, rfl, ?_⟩)))))
      simp only [runInput, agentWrite] at h
      have hd : writeTargets w (nextInputs rest s) = writeTargets w s := rfl
      rw [hd] at h
      cases hb : writeTargets w s
      · rw [hb] at h
        exact ⟨rfl, by simpa using h.symm⟩
      · rw [hb] at h
        simp at h
    | agentRead a size =>
      exact .inr (.inr (.inr (.inr (.inr (.inr ⟨a, size, rfl, by simpa [runInput] using h.symm⟩)))))

end Sys2Proof.Machine
end

