-- ==== Sys2Proof/Laws/Operands.lean ====
section
/-! SUPPORT. Small lemmas of the operand forms: rows and columns, the register window, byte lanes, the loop of R126. -/

namespace Sys2Proof.Machine

/-! ### Rows and columns of BIDX (R36) -/

theorem row_eq (s : State) (h : s.bidx.toNat < 64) : s.row = s.bidx.toNat / 8 := by
  simp only [State.row, BitVec.extractLsb'_toNat, Nat.shiftRight_eq_div_pow]
  omega

theorem col_eq (s : State) : s.col = s.bidx.toNat % 8 := by
  simp only [State.col, BitVec.extractLsb'_toNat, Nat.shiftRight_eq_div_pow]
  omega

theorem bidx_succ (b : BitVec 7) (h : b.toNat < 64) : (b + 1).toNat = b.toNat + 1 := by
  rw [BitVec.toNat_add, show (1 : BitVec 7).toNat = 1 from rfl]
  omega

theorem emit_succ (b : BitVec 7) (h : b.toNat < 127) : (b + 1).toNat = b.toNat + 1 := by
  rw [BitVec.toNat_add, show (1 : BitVec 7).toNat = 1 from rfl]
  omega

/-! ### Glyph rows -/

/-- Replacing a row leaves the new value in it. -/
theorem setRow_row_same (g : Glyph) (r : Fin 8) (v : Byte) : (g.setRow r v).row r.val = v := by
  fin_cases r <;> rfl

/-- Replacing a row leaves every other row. -/
theorem setRow_row_other (g : Glyph) (r q : Fin 8) (v : Byte) (h : q ≠ r) : (g.setRow r v).row q.val = g.row q.val := by
  fin_cases r <;> fin_cases q <;> first | rfl | exact absurd rfl h

/-- The rows of a looked-up glyph (R117). -/
theorem lookupGlyph_row (c : Word) (r : Nat) (h : r < 8) : (lookupGlyph c).row r = glyphRow c r := by
  interval_cases r <;> rfl

/-! ### The register window (R21, R72, R83) -/

/-- The register number of the offset of word `n`. -/
theorem regNumber_ofNat (n : Nat) (h : n < 32) : regNumber (BitVec.ofNat 7 (4 * n)) = BitVec.ofNat 5 n := by
  interval_cases n <;> decide

/-- Every word offset is admitted (R72). -/
theorem admitted_ofNat (n : Nat) (h : n < 32) : admitted 2 (BitVec.ofNat 7 (4 * n)) = true := by
  interval_cases n <;> decide

/-- OFF[6:2] as a number. -/
theorem regNumber_div (off : BitVec 7) : regNumber off = BitVec.ofNat 5 (off.toNat / 4) := by
  apply BitVec.eq_of_toNat_eq
  simp only [regNumber, BitVec.extractLsb'_toNat, Nat.shiftRight_eq_div_pow, BitVec.toNat_ofNat]

/-- The admission test as numbers (R72). -/
theorem admitted_iff (sz : BitVec 2) (off : BitVec 7) : admitted sz off = true ↔ sz = 2 ∧ off.toNat % 4 = 0 := by
  simp only [admitted, Bool.and_eq_true, beq_iff_eq]
  refine and_congr_right fun _ => ?_
  rw [← BitVec.toNat_inj]
  rw [BitVec.extractLsb'_toNat, Nat.shiftRight_zero, show (0 : BitVec 2).toNat = 0 from rfl]

/-- A register sits at its offset (R21, R83). -/
theorem regAt_offset (r : Reg) : regAt (regNumber (regOffset r)) = some r := by
  cases r with
  | glyph q => fin_cases q <;> decide
  | _ => decide

/-- A register's offset is admitted. -/
theorem admitted_offset (r : Reg) : admitted 2 (regOffset r) = true := by
  cases r with
  | glyph q => fin_cases q <;> decide
  | _ => decide

/-- Only its own register number selects a register. -/
theorem regAt_inj (n : BitVec 5) (r : Reg) (h : regAt n = some r) : n = regNumber (regOffset r) := by
  have key : ∀ m : BitVec 5, ∀ q, regAt m = some q → m = regNumber (regOffset q) := by
    intro m q hq
    have hm : ∀ m : BitVec 5, (match regAt m with | some q => decide (m = regNumber (regOffset q)) | none => true) = true := by
      decide
    have := hm m
    rw [hq] at this
    simpa using this
  exact key n r h

/-- Reading a register through its offset (R92). -/
theorem readReg_offset (r : Reg) (s : State) : readReg (regNumber (regOffset r)) s = readNamed r s := by
  unfold readReg
  rw [regAt_offset]

/-- Writing a register through its offset (R95 to R99). -/
theorem writeReg_offset (r : Reg) (d : Word) (s : State) :
    writeReg (regNumber (regOffset r)) d s = writeNamed r d s := by
  unfold writeReg
  rw [regAt_offset]

/-- `rd` of a named register outside reset (R92). -/
theorem exec_rd_named (r : Reg) (s : State) (h : s.rst = false) :
    exec (.rd (regOffset r)) s = .next (respond (readNamed r s) false s) := by
  show Host.Outcome.next (hostAccess false 2 (regOffset r) 0 s) = _
  unfold hostAccess
  rw [h, admitted_offset, readReg_offset]
  rfl

/-- `wr` of a named register outside reset (R95 to R99). -/
theorem exec_wr_named (r : Reg) (d : Word) (s : State) (h : s.rst = false) :
    exec (.wr (regOffset r) d) s = .next (respond 0 false (writeNamed r d s)) := by
  show Host.Outcome.next (hostAccess true 2 (regOffset r) d s) = _
  unfold hostAccess
  rw [h, admitted_offset, writeReg_offset]
  rfl

/-- Each bit of the STATUS word (R24, R92). -/
theorem statusWord_getLsbD (s : State) (j : Nat) :
    (statusWord s).getLsbD j =
      (match j with
        | 0 => s.busy
        | 1 => s.regs.done
        | 2 => s.regs.errCmd
        | 3 => s.regs.errBusy
        | 4 => s.regs.errAlign
        | _ => false) := by
  unfold statusWord
  generalize s.busy = a
  generalize s.regs.done = b
  generalize s.regs.errCmd = c
  generalize s.regs.errBusy = d
  generalize s.regs.errAlign = e
  by_cases h : j < 32
  · revert a b c d e
    interval_cases j <;> decide
  · rw [BitVec.getLsbD_of_ge _ _ (by omega)]
    split <;> first | rfl | omega

/-- A command is busy-blocked exactly while SEQ is EXPAND (R24). -/
theorem busy_iff (s : State) : s.busy = true ↔ s.seq = .expand := by
  unfold State.busy
  cases s.seq <;> decide

/-! ### Byte lanes (R16) -/

@[simp] theorem lanes_low (hi lo : Byte) : (lanes hi lo).extractLsb' 0 8 = lo := by
  apply BitVec.eq_of_getLsbD_eq
  intro i hi
  simp only [lanes, BitVec.getLsbD_extractLsb', BitVec.getLsbD_cast, BitVec.getLsbD_append, Nat.zero_add, hi, decide_true,
    Bool.true_and, if_true]

@[simp] theorem lanes_high (hi lo : Byte) : (lanes hi lo).extractLsb' 8 8 = hi := by
  apply BitVec.eq_of_getLsbD_eq
  intro i h
  simp only [lanes, BitVec.getLsbD_extractLsb', BitVec.getLsbD_cast, BitVec.getLsbD_append, h, decide_true, Bool.true_and,
    show ¬ 8 + i < 8 by omega, if_false, show 8 + i - 8 = i by omega]
/-- Two lanes put together again. -/
theorem lanes_of_halves (d : BitVec 16) : lanes (d.extractLsb' 8 8) (d.extractLsb' 0 8) = d := by
  apply BitVec.eq_of_getLsbD_eq
  intro i hi
  simp only [lanes, BitVec.getLsbD_cast, BitVec.getLsbD_append, BitVec.getLsbD_extractLsb']
  by_cases h : i < 8
  · simp [h]
  · simp [h, show i - 8 < 8 by omega, show 8 + (i - 8) = i by omega]

/-! ### The loop of R126, one bit at a time -/

@[simp] theorem firstBits_zero {α : Type} (payload : Nat → Nat → Option α) (l : Latch) : firstBits payload l 0 = [] := rfl

/-- One more bit of the loop. -/
theorem firstBits_succ {α : Type} (payload : Nat → Nat → Option α) (l : Latch) (n : Nat) :
    firstBits payload l (n + 1) =
      firstBits payload l n
        ++ (if passes l (n / 8) (n % 8) then payload (n / 8) (n % 8) else none).toList := by
  simp only [firstBits, List.range_succ, List.filterMap_append, List.filterMap_cons, List.filterMap_nil]
  cases (if passes l (n / 8) (n % 8) then payload (n / 8) (n % 8) else none) <;> rfl

/-- The 64 bits of the loop, row by row (R36, R126). -/
theorem drawLoop_eq_firstBits {α : Type} (payload : Nat → Nat → Option α) (l : Latch) :
    drawLoop payload l = firstBits payload l 64 := by
  have h : List.range 64 = (List.range 8).flatMap fun r => (List.range 8).map fun k => 8 * r + k := by decide
  unfold drawLoop firstBits
  rw [h, List.filterMap_flatMap]
  congr 1
  funext r
  rw [List.filterMap_map]
  apply List.filterMap_congr
  intro k hk
  have hk : k < 8 := List.mem_range.mp hk
  simp only [Function.comp, show (8 * r + k) / 8 = r by omega, show (8 * r + k) % 8 = k by omega]

/-- A stream command has no framebuffer writes. -/
theorem fbPayload_cb (l : Latch) (h : l.sink = .cb) (r k : Nat) : fbPayload l r k = none := by
  simp [fbPayload, h]

/-- A buffer command has no stream events. -/
theorem pxPayload_fb (l : Latch) (h : l.sink ≠ .cb) (r k : Nat) : pxPayload l r k = none := by
  unfold pxPayload
  cases hs : l.sink <;> simp_all

/-- An output list whose payloads are all none is empty. -/
theorem firstBits_none {α : Type} (payload : Nat → Nat → Option α) (l : Latch) (n : Nat)
    (h : ∀ r k, payload r k = none) : firstBits payload l n = [] := by
  simp [firstBits, h]

end Sys2Proof.Machine
end

