-- ==== Sys2Proof/Laws/Steps.lean ====
section
/-! SUPPORT. What one step of the machine is made of, what each part leaves alone, and runs of several steps. -/

namespace Sys2Proof.Machine

/-- One step without reset, as its parts in order: the input used up, at most one host access, at most one take, and
then the block's own step or another agent's access (R90, R213). -/
theorem step_shape (s t : State) (h : step s = .next t) (hr : headResets s = false) :
    ∃ u v w, u = { s with inputs := u.inputs, rst := u.rst }
      ∧ ((v = u ∧ headTxn s = none)
          ∨ ∃ x, headTxn s = some x ∧ v = hostAccess (htW x) (htSz x) (htOff x) (htData x) u)
      ∧ (w = v ∨ ∃ px fb, w = takeIfReady px fb v)
      ∧ (w = v ∨ headTxn s = none ∨ s.busy = true)
      ∧ (t = w ∨ (t = blockStep w)
          ∨ (w = u ∧ ∃ x rest, s.inputs = .agentWrite x :: rest ∧ t = { w with mem := memWrite x s.mem })
          ∨ (w = u ∧ ∃ a size, t = agentRead a size w)) := by
  rcases step_next_cases s t h with ⟨hi, e⟩ | ⟨i, rest, hi, h⟩
  · exact ⟨s, s, s, rfl, .inl ⟨rfl, by simp [headTxn, hi]⟩, .inl rfl, .inl rfl, .inr (.inl e)⟩
  · rcases h with ⟨x, rfl, e⟩ | ⟨rfl, e⟩ | ⟨px, fb, hh, e⟩ | ⟨l, rfl, e⟩ | ⟨p, rfl, e⟩ | ⟨a, rfl, _, e⟩ | ⟨a, z, rfl, e⟩
    · exact ⟨nextInputs rest s, _, _, rfl, .inr ⟨x, by simp [headTxn, hi], rfl⟩, .inl rfl, .inl rfl, .inl e⟩
    · exact ⟨nextInputs rest s, _, _, rfl, .inl ⟨rfl, by simp [headTxn, hi]⟩, .inl rfl, .inl rfl, .inr (.inl e)⟩
    · have hn : headTxn s = none := by rcases hh with ⟨rfl, _⟩ | ⟨rfl, _⟩ <;> simp [headTxn, hi]
      refine ⟨nextInputs rest s, _, _, rfl, .inl ⟨rfl, hn⟩, .inr ⟨px, fb, rfl⟩, .inr (.inl hn), .inl e⟩
    · have : l = false := by simpa [headResets, hi] using hr
      subst this
      exact ⟨t, t, t, by rw [e]; rfl, .inl ⟨rfl, by simp [headTxn, hi]⟩, .inl rfl, .inl rfl, .inl rfl⟩
    · have hp : p.rst = false := by simpa [headResets, hi] using hr
      rw [clockEdge_eq, hp] at e
      simp only [Bool.false_eq_true, if_false] at e
      injection e with e
      cases hx : p.txn with
      | none =>
        rw [hx] at e
        unfold blockEdge at e
        split at e
        · exact ⟨driveRst false (nextInputs rest s), _, _, rfl, .inl ⟨rfl, by simp [headTxn, hi, hx]⟩,
              .inr ⟨p.pxReady, p.fbReady, rfl⟩, .inr (.inr (by assumption)), .inr (.inl e.symm)⟩
        · exact ⟨driveRst false (nextInputs rest s), _, _, rfl, .inl ⟨rfl, by simp [headTxn, hi, hx]⟩, .inl rfl,
              .inl rfl, .inl e.symm⟩
      | some x =>
        rw [hx] at e
        unfold blockEdge at e
        split at e
        · exact ⟨driveRst false (nextInputs rest s), _, _, rfl, .inr ⟨x, by simp [headTxn, hi, hx, hp], rfl⟩,
              .inr ⟨p.pxReady, p.fbReady, rfl⟩, .inr (.inr (by assumption)), .inr (.inl e.symm)⟩
        · exact ⟨driveRst false (nextInputs rest s), _, _, rfl, .inr ⟨x, by simp [headTxn, hi, hx, hp], rfl⟩,
              .inl rfl, .inl rfl, .inl e.symm⟩
    · exact ⟨nextInputs rest s, _, _, rfl, .inl ⟨rfl, by simp [headTxn, hi]⟩, .inl rfl, .inl rfl,
          .inr (.inr (.inl ⟨rfl, a, rest, hi, e⟩))⟩
    · exact ⟨nextInputs rest s, _, _, rfl, .inl ⟨rfl, by simp [headTxn, hi]⟩, .inl rfl, .inl rfl,
          .inr (.inr (.inr ⟨rfl, a, z, e⟩))⟩

/-- One step that is a reset edge: the readies of the input, then the reset (R15, R16, R200). -/
theorem step_resets (s t : State) (h : step s = .next t) (hr : headResets s = true) :
    ∃ u px fb, u = { s with inputs := u.inputs } ∧ sinkReady px fb s = headReadies s ∧ t = resetClock px fb u := by
  rcases step_next_cases s t h with ⟨hi, e⟩ | ⟨i, rest, hi, h⟩
  · simp [headResets, hi] at hr
  · rcases h with ⟨x, rfl, e⟩ | ⟨rfl, e⟩ | ⟨px, fb, hh, e⟩ | ⟨l, rfl, e⟩ | ⟨p, rfl, e⟩ | ⟨a, rfl, _, e⟩ | ⟨a, z, rfl, e⟩
    · simp [headResets, hi] at hr
    · simp [headResets, hi] at hr
    · rcases hh with ⟨rfl, _⟩ | ⟨rfl, _⟩ <;> simp [headResets, hi] at hr
    · simp [headResets, hi] at hr
      subst hr
      refine ⟨nextInputs rest s, false, false, rfl, ?_, by rw [e, resetClock_idle]; rfl⟩
      cases hs : s.latch.sink <;> simp [headReadies, hi, Input.readies, sinkReady, hs]
    · simp [headResets, hi] at hr
      rw [clockEdge_eq, hr] at e; injection e with e
      exact ⟨nextInputs rest s, p.pxReady, p.fbReady, rfl, by simp [headReadies, hi, Input.readies], e.symm⟩
    · simp [headResets, hi] at hr
    · simp [headResets, hi] at hr

/-- What a host access leaves alone while a command runs (R95 to R99). -/
structure HostBusy (s t : State) : Prop where
  latch : t.latch = s.latch
  seq : t.seq = s.seq
  bidx : t.bidx = s.bidx
  rowsh : t.rowsh = s.rowsh
  pend : t.pend = s.pend
  px : t.px = s.px
  fb : t.fb = s.fb
  stream : t.stream = s.stream
  fbLog : t.fbLog = s.fbLog
  mem : t.mem = s.mem
  rst : t.rst = s.rst
  emit : t.regs.emitCount = s.regs.emitCount
  done : t.regs.done = true → s.regs.done = true

/-- A write of a named register while a command runs. -/
theorem hostBusy_writeNamed (r d s) (h : s.seq = .expand) : HostBusy s (writeNamed r d s) := by
  cases r <;> first | (exact ⟨rfl, rfl, rfl, rfl, rfl, rfl, rfl, rfl, rfl, rfl, rfl, rfl, id⟩) | skip
  · exact ⟨rfl, rfl, rfl, rfl, rfl, rfl, rfl, rfl, rfl, rfl, rfl, rfl, by simp [writeNamed]; tauto⟩
  · show HostBusy s (writeCmd d s)
    rw [writeCmd_busy d s (by simp [h])]
    exact ⟨rfl, rfl, rfl, rfl, rfl, rfl, rfl, rfl, rfl, rfl, rfl, rfl, id⟩

/-- Any host access while a command runs. -/
theorem hostBusy (w sz off d s) (h : s.seq = .expand) : HostBusy s (hostAccess w sz off d s) := by
  rcases hostAccess_cases w sz off d s with ⟨_, e⟩ | ⟨_, _, e⟩ | ⟨_, _, _, e⟩ | ⟨_, _, _, e⟩ <;> rw [e]
  · exact ⟨rfl, rfl, rfl, rfl, rfl, rfl, rfl, rfl, rfl, rfl, rfl, rfl, id⟩
  · exact ⟨rfl, rfl, rfl, rfl, rfl, rfl, rfl, rfl, rfl, rfl, rfl, rfl, id⟩
  · exact ⟨rfl, rfl, rfl, rfl, rfl, rfl, rfl, rfl, rfl, rfl, rfl, rfl, id⟩
  · rcases writeReg_cases (regNumber off) d s with ⟨_, e⟩ | ⟨r, _, e⟩ <;> rw [e]
    · exact ⟨rfl, rfl, rfl, rfl, rfl, rfl, rfl, rfl, rfl, rfl, rfl, rfl, id⟩
    · obtain ⟨a1, a2, a3, a4, a5, a6, a7, a8, a9, a10, a11, a12, a13⟩ := hostBusy_writeNamed r d s h
      exact ⟨a1, a2, a3, a4, a5, a6, a7, a8, a9, a10, a11, a12, a13⟩

/-- A take keeps the latch. -/
theorem take_latch (px fb s) : (takeIfReady px fb s).latch = s.latch := by
  rcases takeIfReady_cases px fb s with ⟨_, _, e⟩ | ⟨_, e⟩ <;> rw [e]
  rcases takeStep_cases s with ⟨_, e⟩ | ⟨_, e⟩ <;> rw [e] <;> rfl
/-- A take keeps SEQ. -/
theorem take_seq (px fb s) : (takeIfReady px fb s).seq = s.seq := by
  rcases takeIfReady_cases px fb s with ⟨_, _, e⟩ | ⟨_, e⟩ <;> rw [e]
  rcases takeStep_cases s with ⟨_, e⟩ | ⟨_, e⟩ <;> rw [e] <;> rfl
/-- A take keeps BIDX. -/
theorem take_bidx (px fb s) : (takeIfReady px fb s).bidx = s.bidx := by
  rcases takeIfReady_cases px fb s with ⟨_, _, e⟩ | ⟨_, e⟩ <;> rw [e]
  rcases takeStep_cases s with ⟨_, e⟩ | ⟨_, e⟩ <;> rw [e] <;> rfl
/-- A take changes only EMIT_COUNT of the registers (R134). -/
theorem take_regs (px fb s) : ∃ n, (takeIfReady px fb s).regs = { s.regs with emitCount := n } := by
  rcases takeIfReady_cases px fb s with ⟨_, _, e⟩ | ⟨_, e⟩ <;> rw [e]
  · rcases takeStep_cases s with ⟨_, e⟩ | ⟨_, e⟩ <;> rw [e] <;> exact ⟨_, rfl⟩
  · exact ⟨_, rfl⟩
/-- The block's own step keeps the latch. -/
theorem block_latch (s) : (blockStep s).latch = s.latch := by
  rcases blockStep_cases s with ⟨_, e⟩ | ⟨_, _, e⟩ | ⟨_, _, e⟩ <;> rw [e]
  · unfold bitStep; split
    · unfold offer; split <;> rfl
    · rfl
  · rfl
/-- The block's own step changes only DONE of the registers, and never clears it (R131, R135). -/
theorem block_regs (s) : ∃ d, (blockStep s).regs = { s.regs with done := d } ∧ (s.regs.done = true → d = true) := by
  rcases blockStep_cases s with ⟨_, e⟩ | ⟨_, _, e⟩ | ⟨_, _, e⟩ <;> rw [e]
  · refine ⟨s.regs.done, ?_, id⟩
    unfold bitStep; split
    · unfold offer; split <;> rfl
    · rfl
  · exact ⟨true, rfl, fun _ => rfl⟩
  · exact ⟨_, rfl, id⟩
/-- The block's own step delivers nothing (R131, R135). -/
theorem block_out (s) : (blockStep s).stream = s.stream ∧ (blockStep s).fbLog = s.fbLog ∧ (blockStep s).mem = s.mem := by
  rcases blockStep_cases s with ⟨_, e⟩ | ⟨_, _, e⟩ | ⟨_, _, e⟩ <;> rw [e]
  · unfold bitStep; split
    · unfold offer; split <;> exact ⟨rfl, rfl, rfl⟩
    · exact ⟨rfl, rfl, rfl⟩
  · exact ⟨rfl, rfl, rfl⟩
  · exact ⟨rfl, rfl, rfl⟩
/-- With an output pending the block holds (R134). -/
theorem block_pend (s) (h : s.pend = true) : blockStep s = s := by
  simp [blockStep, State.bitEnabled, State.completeEnabled, h]
/-- Another agent's read changes only what it read and the counter of free values. -/
theorem agentRead_same (a z s) : ∃ x y, agentRead a z s = { s with agentData := x, freeCount := y } := ⟨_, _, rfl⟩

/-- What becomes of a pending output in one step: exactly a raised ready delivers it, at an edge with `rst` = 1 too, and
otherwise only a reset edge takes it back (R15, R16, R134, R201). -/
def OfferStep (s t : State) : Prop :=
  (headReadies s = true ∧ t.stream = (takeStep s).stream ∧ t.fbLog = (takeStep s).fbLog ∧ t.mem = (takeStep s).mem)
    ∨ (headReadies s = false ∧ t.stream = s.stream ∧ t.fbLog = s.fbLog
        ∧ (headResets s = true ∨ (t.pend = true ∧ t.latch = s.latch ∧ t.px = s.px ∧ t.fb = s.fb)))

/-- A ready in a state with the same pending output and the same histories. -/
theorem take_offer (px fb : Bool) (s u : State) (h1 : u.pend = true) (h2 : u.latch = s.latch) (h3 : u.px = s.px)
    (h4 : u.fb = s.fb) (h5 : u.stream = s.stream) (h6 : u.fbLog = s.fbLog) (h7 : u.mem = s.mem) :
    (sinkReady px fb s = true ∧ (takeIfReady px fb u).stream = (takeStep s).stream
        ∧ (takeIfReady px fb u).fbLog = (takeStep s).fbLog ∧ (takeIfReady px fb u).mem = (takeStep s).mem)
      ∨ (sinkReady px fb s = false ∧ takeIfReady px fb u = u) := by
  have hs : sinkReady px fb u = sinkReady px fb s := by unfold sinkReady; rw [h2]
  rcases takeIfReady_cases px fb u with ⟨_, hr, e⟩ | ⟨hr, e⟩
  · refine .inl ⟨hs ▸ hr, ?_⟩
    rw [e]
    rcases takeStep_cases u with ⟨hk, e⟩ | ⟨hk, e⟩ <;> rcases takeStep_cases s with ⟨hk', e'⟩ | ⟨hk', e'⟩ <;> rw [e, e']
    · exact ⟨by simp [h3, h5], h6, h7⟩
    · exact absurd (h2 ▸ hk) hk'
    · exact absurd (h2.symm ▸ hk') hk
    · exact ⟨h5, by simp [h4, h6], by simp [h4, h7]⟩
  · exact .inr ⟨hs ▸ hr.resolve_left (by simp [h1]), e⟩

/-- Every step of a running command treats its pending output so. -/
theorem step_offer (s t : State) (h : step s = .next t) (hp : s.pend = true) (he : s.seq = .expand) : OfferStep s t := by
  have still : headReadies s = false → t.stream = s.stream → t.fbLog = s.fbLog → t.pend = s.pend → t.latch = s.latch →
      t.px = s.px → t.fb = s.fb → OfferStep s t :=
    fun a b c d e f g => .inr ⟨a, b, c, .inr ⟨d.trans hp, e, f, g⟩⟩
  rcases step_next_cases s t h with ⟨hi, e⟩ | ⟨i, rest, hi, h⟩
  · rw [block_pend s hp] at e
    subst e
    exact still (by simp [headReadies, hi]) rfl rfl rfl rfl rfl rfl
  rcases h with ⟨x, rfl, e⟩ | ⟨rfl, e⟩ | ⟨px, fb, hh, e⟩ | ⟨l, rfl, e⟩ | ⟨p, rfl, e⟩ | ⟨a, rfl, _, e⟩ | ⟨a, z, rfl, e⟩
  · have b := hostBusy (htW x) (htSz x) (htOff x) (htData x) (nextInputs rest s) he
    subst e
    exact still (by simp [headReadies, hi, Input.readies]) b.stream b.fbLog b.pend b.latch b.px b.fb
  · rw [block_pend _ (show (nextInputs rest s).pend = true from hp)] at e
    subst e
    exact still (by simp [headReadies, hi, Input.readies]) rfl rfl rfl rfl rfl rfl
  · have hr : headReadies s = sinkReady px fb s := by
      rcases hh with ⟨rfl, rfl, rfl⟩ | ⟨rfl, rfl, rfl⟩ <;> simp [headReadies, hi, Input.readies]
    rcases take_offer px fb s (nextInputs rest s) hp rfl rfl rfl rfl rfl rfl with ⟨a, b⟩ | ⟨a, b⟩
    · exact .inl ⟨hr.trans a, e ▸ b⟩
    · rw [b] at e
      subst e
      exact still (hr.trans a) rfl rfl rfl rfl rfl rfl
  · have hr : headReadies s = false := by simp [headReadies, hi, Input.readies]
    cases l
    · subst e
      exact still hr rfl rfl rfl rfl rfl rfl
    · subst e
      exact .inr ⟨hr, rfl, rfl, .inl (by simp [headResets, hi])⟩
  · have hr : headReadies s = sinkReady p.pxReady p.fbReady s := by simp [headReadies, hi, Input.readies]
    rw [clockEdge_eq] at e
    injection e with e
    cases hp' : p.rst
    · have hb : (nextInputs rest s).busy = true := by simp [State.busy, he]
      simp only [hp', Bool.false_eq_true, if_false, hb, blockEdge, if_true] at e
      have edge : ∀ u : State, u.pend = true → u.latch = s.latch → u.px = s.px → u.fb = s.fb → u.stream = s.stream →
          u.fbLog = s.fbLog → u.mem = s.mem → blockStep (takeIfReady p.pxReady p.fbReady u) = t → OfferStep s t := by
        intro u h1 h2 h3 h4 h5 h6 h7 e
        rcases take_offer p.pxReady p.fbReady s u h1 h2 h3 h4 h5 h6 h7 with ⟨a, b⟩ | ⟨a, b⟩
        · obtain ⟨o1, o2, o3⟩ := block_out (takeIfReady p.pxReady p.fbReady u)
          rw [e] at o1 o2 o3
          exact Or.inl ⟨hr.trans a, o1.trans b.1, o2.trans b.2.1, o3.trans b.2.2⟩
        · rw [b, block_pend u h1] at e
          subst e
          exact still (hr.trans a) h5 h6 (h1.trans hp.symm) h2 h3 h4
      cases hx : p.txn with
      | none =>
        rw [hx] at e
        exact edge (driveRst false (nextInputs rest s)) hp rfl rfl rfl rfl rfl rfl e
      | some x =>
        rw [hx] at e
        have b := hostBusy (htW x) (htSz x) (htOff x) (htData x) (driveRst false (nextInputs rest s)) he
        exact edge _ (b.pend.trans hp) b.latch b.px b.fb b.stream b.fbLog b.mem e
    · simp only [hp', if_true] at e
      rcases take_offer p.pxReady p.fbReady s (nextInputs rest s) hp rfl rfl rfl rfl rfl rfl with ⟨a, b⟩ | ⟨a, b⟩
      · exact .inl ⟨hr.trans a, e ▸ b⟩
      · rw [resetClock, b] at e
        subst e
        exact .inr ⟨hr.trans a, rfl, rfl, .inl (by simp [headResets, hi, hp'])⟩
  · subst e
    exact still (by simp [headReadies, hi, Input.readies]) rfl rfl rfl rfl rfl rfl
  · subst e
    exact still (by simp [headReadies, hi, Input.readies]) rfl rfl rfl rfl rfl rfl

/-- What another agent reads where the platform's duties hold: the byte before anything wrote it, or the last one recorded
(R60, R64). -/
theorem agentByte_fixed (a : Word) (n : Nat) (s : State) (hv : Config.fbVisibleOnTake = true)
    (hm : Config.memExists a.toNat = true) : agentByte a n s = (s.mem.read a.toNat).getD (Config.fbInit a.toNat) := by
  simp [agentByte, readFixed, hv, hm]
/-- What another agent reads where a duty fails, at a byte the block has written: a free value (S3, S5 of 93). -/
theorem agentByte_free (a : Word) (n : Nat) (s : State) (hw : blockWrote a.toNat s = true)
    (h : Config.fbVisibleOnTake = false ∨ Config.memExists a.toNat = false) : agentByte a n s = Config.freeByte n := by
  rcases h with h | h <;> simp [agentByte, readFixed, h, hw]

/-! ### Runs -/

/-- A run goes on from the next state. -/
theorem core_run_next (M : Host.Core) (n : Nat) (s x : M.State) (h : M.step s = .next x) :
    M.run (n + 1) s = M.run n x := by
  simp [Host.Core.run, h]
/-- A run that ends in a next state started with one. -/
theorem core_run_cases (M : Host.Core) (n : Nat) (s u : M.State) (h : M.run (n + 1) s = .next u) :
    ∃ x, M.step s = .next x ∧ M.run n x = .next u := by
  cases hs : M.step s <;> simp [Host.Core.run, hs] at h
  exact ⟨_, rfl, h⟩
/-- The same for `runSteps`. -/
theorem run_succ (n : Nat) (s u : State) (h : step s = .next u) :
    runSteps (n + 1) s = runSteps n u := core_run_next Sys2Proof.core n s u h

/-- The same for `runSteps`. -/
theorem run_succ_cases (n : Nat) (s u : State) (h : runSteps (n+1) s = .next u) :
    ∃ v, step s = .next v ∧ runSteps n v = .next u := core_run_cases Sys2Proof.core n s u h

/-- A run of `n + m` steps is a run of `n` and then one of `m`. -/
theorem run_add (n m : Nat) (s u : State) (h : runSteps n s = .next u) : runSteps (n+m) s = runSteps m u := by
  induction n generalizing s with
  | zero =>
    have : s = u := by injection h
    subst this
    rw [Nat.zero_add]
  | succ n ih =>
    obtain ⟨v, e, h⟩ := run_succ_cases n s u h
    rw [show n + 1 + m = (n + m) + 1 by omega, run_succ _ s v e]
    exact ih v h

end Sys2Proof.Machine
end

