-- ==== Sys2Proof/Laws/Driver.lean ====
section
/-! SUPPORT. Laws of a host program beside the machine: its lines, one turn, and runs of turns. -/

namespace Sys2Proof.Machine

@[simp] theorem nextTxn_nil : nextTxn [] = none := rfl
@[simp] theorem nextTxn_send (t : HT) (p : HostProgram) : nextTxn (.send t :: p) = some t := rfl
@[simp] theorem nextTxn_waitIdle (p : HostProgram) : nextTxn (.waitIdle :: p) = some asmWaitIdle := rfl
@[simp] theorem advance_nil (s : State) : advance s [] = [] := rfl
@[simp] theorem advance_send (t : HT) (p : HostProgram) (s : State) : advance s (.send t :: p) = p := rfl
@[simp] theorem advance_waitIdle (p : HostProgram) (s : State) :
    advance s (.waitIdle :: p) = if waitIdleDone s then p else .waitIdle :: p := rfl

/-- A word write of the assembler, outside reset (R80, R91). -/
theorem hostAccess_asmWr (r : Reg) (d : Word) (s : State) (h : s.rst = false) :
    hostAccess (htW (asmWr r d)) (htSz (asmWr r d)) (htOff (asmWr r d)) (htData (asmWr r d)) s
      = respond 0 false (writeNamed r d s) := by
  unfold hostAccess asmWr
  simp only [htW_packHt, htSz_packHt, htOff_packHt, htData_packHt, h, admitted_offset, writeReg_offset]
  rfl

/-- The read of `wait_idle`, outside reset (R82, R91). -/
theorem hostAccess_asmWaitIdle (s : State) (h : s.rst = false) :
    hostAccess (htW asmWaitIdle) (htSz asmWaitIdle) (htOff asmWaitIdle) (htData asmWaitIdle) s
      = respond (statusWord s) false s := by
  unfold hostAccess asmWaitIdle asmRd
  simp only [htW_packHt, htSz_packHt, htOff_packHt, htData_packHt, h, admitted_offset, readReg_offset]
  rfl

/-- `wait_idle` ends exactly where the read finds the block idle (R82, R92). -/
theorem waitIdleDone_status (s t : State) (h : t.hRdata = statusWord s) : waitIdleDone t = true ↔ s.seq = .idle := by
  unfold waitIdleDone
  rw [h, statusWord_getLsbD]
  cases hs : s.seq <;> simp [State.busy, hs]

/-- One turn of the host by itself: the access, and the program goes on. -/
theorem driverTurn_host (p : HostProgram) (t : HT) (s : State) (h : nextTxn p = some t) :
    driverTurn .host ⟨p, s⟩
      = .next ⟨advance (hostAccess (htW t) (htSz t) (htOff t) (htData t) s) p,
          hostAccess (htW t) (htSz t) (htOff t) (htData t) s⟩ := by
  unfold driverTurn
  simp only [h, presentNext_eq, step_presentInput]
  rw [show runInput (.host t) s = hostTransaction t s from rfl, hostTransaction_eq]
  rfl

/-- Runs of turns put together. -/
theorem drive_append (a b : List Turn) (d : Driven) : drive (a ++ b) d = onNext (drive a d) (drive b) := by
  induction a generalizing d with
  | nil => rfl
  | cons x a ih =>
    simp only [List.cons_append, drive]
    cases driverTurn x d with
    | next e => exact ih e
    | fault e => rfl
    | refused e => rfl

end Sys2Proof.Machine
end

