-- ==== Sys2Proof/Laws/PerInstr.lean ====
section
/-! SUPPORT. The per-instruction families of LAWS.json. -/

namespace Sys2Proof.Laws.EncodedForm

/-- R70, R71: every instruction is one word transaction; a command is a write to CMD of a legal command word. -/
def Statement (i : Instr) : Prop :=
  htSz (encode i) = 2 ∧
    match i with
    | .nop => htW (encode i) = true ∧ htOff (encode i) = cmdOffset ∧ htData (encode i) ∈ legalCommandWords
    | .lookup => htW (encode i) = true ∧ htOff (encode i) = cmdOffset ∧ htData (encode i) ∈ legalCommandWords
    | .drawCb => htW (encode i) = true ∧ htOff (encode i) = cmdOffset ∧ htData (encode i) ∈ legalCommandWords
    | .drawCbG => htW (encode i) = true ∧ htOff (encode i) = cmdOffset ∧ htData (encode i) ∈ legalCommandWords
    | .drawMono => htW (encode i) = true ∧ htOff (encode i) = cmdOffset ∧ htData (encode i) ∈ legalCommandWords
    | .drawMonoG => htW (encode i) = true ∧ htOff (encode i) = cmdOffset ∧ htData (encode i) ∈ legalCommandWords
    | .draw565 => htW (encode i) = true ∧ htOff (encode i) = cmdOffset ∧ htData (encode i) ∈ legalCommandWords
    | .draw565G => htW (encode i) = true ∧ htOff (encode i) = cmdOffset ∧ htData (encode i) ∈ legalCommandWords
    | .wr off data => htW (encode i) = true ∧ htOff (encode i) = off ∧ htData (encode i) = data
    | .rd off => htW (encode i) = false ∧ htOff (encode i) = off

/-- The fields of a command's transaction. -/
theorem command_fields (c : Command) :
    htSz (commandHt (encodeCommand c)) = 2 ∧ htW (commandHt (encodeCommand c)) = true
      ∧ htOff (commandHt (encodeCommand c)) = cmdOffset
      ∧ htData (commandHt (encodeCommand c)) ∈ legalCommandWords := by
  simp only [commandHt, htSz_packHt, htW_packHt, htOff_packHt, htData_packHt, true_and]
  exact encodeCommand_legal c

theorem nop : Statement .nop := command_fields .nop
theorem lookup : Statement .lookup := command_fields .lookup
theorem drawCb : Statement .drawCb := command_fields (.draw .cb false)
theorem drawCbG : Statement .drawCbG := command_fields (.draw .cb true)
theorem drawMono : Statement .drawMono := command_fields (.draw .mono false)
theorem drawMonoG : Statement .drawMonoG := command_fields (.draw .mono true)
theorem draw565 : Statement .draw565 := command_fields (.draw .rgb565 false)
theorem draw565G : Statement .draw565G := command_fields (.draw .rgb565 true)
theorem wr (off : BitVec 7) (data : Word) : Statement (.wr off data) :=
  ⟨htSz_packHt _ _ _ _, htW_packHt _ _ _ _, htOff_packHt _ _ _ _, htData_packHt _ _ _ _⟩
theorem rd (off : BitVec 7) : Statement (.rd off) :=
  ⟨htSz_packHt _ _ _ _, htW_packHt _ _ _ _, htOff_packHt _ _ _ _⟩

end Sys2Proof.Laws.EncodedForm
end

