-- ==== Sys2Proof/Tests/Slice0.lean ====
section
/-! SUPPORT. The model's own tests: expected values are the spec's (95_test_vectors.md and the rules named), and for every
obligation with hypotheses a witness that meets them. -/

namespace Sys2Proof.Tests

open Sys2Proof.Machine

/-! ### Helpers -/

/-- The next state of a step, if it has one. -/
def nextOf : StepResult → Option State
  | .next s => some s
  | .fault _ => none
  | .refused _ => none

/-- Reset, with other registers. -/
def withRegs (r : Regs) : State := { State.reset with regs := r }

/-- Reset, with inputs waiting. -/
def withInputs (l : List Input) : State := { State.reset with inputs := l }

/-- Bits (0, 0), (0, 7) and (7, 7) set. -/
def cornerGlyph : Glyph := ⟨0x81, 0, 0, 0, 0, 0, 0, 0x01⟩

/-- A latch at the origin (10, 20) of a 32 x 32 buffer at 0x1000. -/
def someLatch (sink : Sink) : Latch :=
  { sink := sink, ox := 10, oy := 20, color := 7, tag := 9, base := 0x1000, w := 32, h := 32, gl := cornerGlyph, ok := true }

/-- A command running before bit `n`, nothing pending. -/
def running (sink : Sink) (n : BitVec 7) (row : Byte) (l : List Input) : State :=
  { State.reset with latch := someLatch sink, seq := .expand, bidx := n, rowsh := row, inputs := l }

/-- A stream command with bit (0, 0) offered. -/
def offeredPx (l : List Input) : State :=
  { running .cb 1 0x02 l with pend := true, px := ⟨10, 20, 7, 9⟩ }

/-- A monochrome command with bit (0, 0) offered: element 20 * 32 + 10. -/
def offeredFb (l : List Input) : State :=
  { running .mono 1 0x02 l with pend := true, fb := ⟨0x128A, 0, 0x0007⟩ }

/-- A stream command before its completion step, its three events taken. -/
def complete (l : List Input) : State :=
  { running .cb 64 0 l with
    regs := { Regs.reset with emitCount := 3 }
    stream := [⟨10, 20, 7, 9⟩, ⟨17, 20, 7, 9⟩, ⟨17, 27, 7, 9⟩] }

/-- A stream command with its last event offered, all bits tested. -/
def offeredLast (l : List Input) : State := { running .cb 64 0 l with pend := true, px := ⟨17, 27, 7, 9⟩ }

/-- A rising edge that presents a transaction and raises both readies. -/
def edge (t : Option HT) : Input := .clock { rst := false, txn := t, pxReady := true, fbReady := true }

/-! ### Well-formedness -/

/-- R70: a write of a legal command word to CMD is spelled as that command. -/
theorem test_wf_refuses_command_words :
    Instr.wf (.wr 0x0C 0x0) = false ∧ Instr.wf (.wr 0x0C 0x1) = false ∧ Instr.wf (.wr 0x0C 0x2) = false
      ∧ Instr.wf (.wr 0x0C 0x12) = false ∧ Instr.wf (.wr 0x0C 0x3) = false ∧ Instr.wf (.wr 0x0C 0x13) = false
      ∧ Instr.wf (.wr 0x0C 0x4) = false ∧ Instr.wf (.wr 0x0C 0x14) = false := by decide

/-- Every other term is well formed. -/
theorem test_wf_accepts :
    Instr.wf (.wr 0x0C 0x10) = true ∧ Instr.wf (.wr 0x10 0x0) = true ∧ Instr.wf (.wr 0x7F 0xFFFFFFFF) = true
      ∧ Instr.wf (.rd 0x0C) = true ∧ Instr.wf .draw565G = true := by decide

/-! ### Decoding: words written out bit by bit from R71 and R75 -/

theorem test_decode_nop : decodeHt 0b1100001100_00000000000000000000000000000000#42 = .ok .nop := by decide
theorem test_decode_lookup : decodeHt 0b1100001100_00000000000000000000000000000001#42 = .ok .lookup := by decide
theorem test_decode_drawCb : decodeHt 0b1100001100_00000000000000000000000000000010#42 = .ok .drawCb := by decide
theorem test_decode_drawCbG : decodeHt 0b1100001100_00000000000000000000000000010010#42 = .ok .drawCbG := by decide
theorem test_decode_drawMono : decodeHt 0b1100001100_00000000000000000000000000000011#42 = .ok .drawMono := by decide
theorem test_decode_drawMonoG : decodeHt 0b1100001100_00000000000000000000000000010011#42 = .ok .drawMonoG := by decide
theorem test_decode_draw565 : decodeHt 0b1100001100_00000000000000000000000000000100#42 = .ok .draw565 := by decide
theorem test_decode_draw565G : decodeHt 0b1100001100_00000000000000000000000000010100#42 = .ok .draw565G := by decide
/-- The word of 30_encoding.md for a write of 0x41 to CODE. -/
theorem test_decode_wr : decodeHt 0b1100010000_00000000000000000000000001000001#42 = .ok (.wr 0x10 0x41) := by decide
theorem test_decode_rd : decodeHt 0b0100001000_00000000000000000000000000000000#42 = .ok (.rd 0x08) := by decide

/-- SZ = 0, 1 and 3 are rejected by name (R72, R78). -/
theorem test_decode_rejects_sizes :
    decodeHt 0x21000000041#42 = .rejected .byteSize ∧ decodeHt 0x28C00000001#42 = .rejected .halfwordSize
      ∧ decodeHt 0x39000000005#42 = .rejected .reservedSize := by decide

/-- The illegal command words of V-CD-1. -/
theorem test_decode_rejects_commands :
    decodeCommand 0x5 = .rejected .reservedOp ∧ decodeCommand 0xF = .rejected .reservedOp
      ∧ decodeCommand 0x10 = .rejected .gNotAllowed ∧ decodeCommand 0x11 = .rejected .gNotAllowed
      ∧ decodeCommand 0x15 = .rejected .reservedOp ∧ decodeCommand 0x20 = .rejected .reservedBits
      ∧ decodeCommand 0x80000002 = .rejected .reservedBits ∧ decodeCommand 0xFFFFFFFF = .rejected .reservedBits := by
  decide

/-- Words as the opcode table numbers them. -/
theorem test_table_words :
    decodeTableWord 32 0x13 = some .drawMonoG ∧ decodeTableWord 32 0x5 = none
      ∧ decodeTableWord 48 0x31000000041 = some (.wr 0x10 0x41) ∧ decodeTableWord 42 0x10800000000 = some (.rd 0x08)
      ∧ decodeTableWord 32 0x100000000 = none := by decide

/-- A table word presented next is what the next step runs: V-CD-1's 0x5 written to CMD. -/
theorem test_fetch :
    (nextOf (step (State.reset.withFetchWord 42 0x30C00000005))).map (fun s => statusWord s) = some 0x4 := by decide

/-! ### One step of each instruction -/

/-- V-CD-8. -/
theorem test_nop :
    (nextOf (exec .nop (withRegs { Regs.reset with done := true, emitCount := 5 }))).map
      (fun s => (s.regs.emitCount, statusWord s)) = some (0, 0x2) := by decide

/-- V-LK-13. -/
theorem test_nop_keeps_glyph :
    (nextOf (exec .nop (withRegs { Regs.reset with glyph := ⟨0xAA, 0xAA, 0xAA, 0xAA, 0xAA, 0xAA, 0xAA, 0xAA⟩ }))).map
      (fun s => s.regs.glyph) = some ⟨0xAA, 0xAA, 0xAA, 0xAA, 0xAA, 0xAA, 0xAA, 0xAA⟩ := by decide

/-- V-LK-12. -/
theorem test_lookup_overwrites :
    (nextOf (exec .lookup (withRegs { Regs.reset with
        code := 0x141, glyph := ⟨0xAA, 0xAA, 0xAA, 0xAA, 0xAA, 0xAA, 0xAA, 0xAA⟩ }))).map
      (fun s => (s.regs.glyph, statusWord s)) = some (Glyph.zero, 0x2) := by decide

/-- V-LK-10: the eight rows of code 0x41 are FONT_ROM[264 + r]. -/
theorem test_lookup_A :
    (nextOf (exec .lookup (withRegs { Regs.reset with code := 0x41 }))).map (fun s => (s.regs.glyph.row 0, s.regs.glyph.row 7))
      = some (Config.fontData 264, Config.fontData 271) := by rfl

/-- The accept of R99: BUSY, and the origin sampled. -/
theorem test_drawCb :
    (nextOf (exec .drawCb (withRegs { Regs.reset with orgX := 5, orgY := 6, code := 32 }))).map
      (fun s => (statusWord s, s.latch.ox, s.latch.oy, s.latch.sink, s.regs.glyph)) = some (0x1, 5, 6, .cb, Glyph.zero) := by
  decide

/-- V-LK-14: G = 1 uses GLYPH0..7 as they stand. -/
theorem test_drawCbG :
    (nextOf (exec .drawCbG (withRegs { Regs.reset with glyph := cornerGlyph, emitCount := 9, done := true }))).map
      (fun s => (s.latch.gl, s.regs.glyph, s.regs.emitCount, statusWord s)) = some (cornerGlyph, cornerGlyph, 0, 0x1) := by
  decide

/-- V-FB-23: the glyph is the one looked up. -/
theorem test_drawMono :
    (nextOf (exec .drawMono (withRegs { Regs.reset with code := 0x141, glyph := cornerGlyph, fbW := 4, fbH := 3 }))).map
      (fun s => (s.latch.gl, s.latch.sink, s.latch.ok)) = some (Glyph.zero, .mono, true) := by decide

/-- V-FB-2: a negative origin fails the check. -/
theorem test_drawMonoG :
    (nextOf (exec .drawMonoG (withRegs { Regs.reset with orgX := 0xFFFFFFFF, fbW := 4, fbH := 3, fbBase := 0x1001 }))).map
      (fun s => (s.latch.ok, statusWord s)) = some (false, 0x1) := by decide

/-- V-CD-4. -/
theorem test_draw565_odd :
    (nextOf (exec .draw565 (withRegs { Regs.reset with code := 0x41, fbBase := 0x1001 }))).map
      (fun s => (statusWord s, s.regs.glyph, s.regs.done)) = some (0x10, Glyph.zero, false) := by decide

/-- The even base is accepted (R155). -/
theorem test_draw565_even :
    (nextOf (exec .draw565 (withRegs { Regs.reset with code := 0x20, fbBase := 0x1000 }))).map
      (fun s => (statusWord s, s.latch.base)) = some (0x1, 0x1000) := by decide

/-- V-CD-5. -/
theorem test_draw565G_odd :
    (nextOf (exec .draw565G (withRegs { Regs.reset with fbBase := 0x1001 }))).map (fun s => statusWord s) = some 0x10 := by
  decide

/-- V-FB-17's set-up: the accept with G = 1. -/
theorem test_draw565G_even :
    (nextOf (exec .draw565G (withRegs { Regs.reset with fbBase := 0x2000, fbW := 4, fbH := 3, orgX := 2, orgY := 1 }))).map
      (fun s => (statusWord s, s.latch.sink, s.latch.ok)) = some (0x1, .rgb565, true) := by decide

/-- V-HB-2 and V-HB-3. -/
theorem test_wr :
    (nextOf (exec (.wr 0x04 0xFFFFFFFF) State.reset)).map (fun s => readReg 1 s) = some 0x3
      ∧ (nextOf (exec (.wr 0x4C 0x1234) State.reset)).map (fun s => readReg 19 s) = some 0x34 := by decide

/-- V-HB-13. -/
theorem test_wr_status :
    (nextOf (exec (.wr 0x08 0x2) (withRegs { Regs.reset with done := true, errCmd := true }))).map (fun s => statusWord s)
      = some 0x4 := by decide

/-- V-HB-1. -/
theorem test_rd : (nextOf (exec (.rd 0x00) State.reset)).map (fun s => (s.hRdata, s.hErr)) = some (0x7E200808, false) := by
  decide

/-- V-HB-7. -/
theorem test_rd_misaligned : (nextOf (exec (.rd 0x01) State.reset)).map (fun s => (s.hRdata, s.hErr)) = some (0, true) := by
  decide

/-! ### The block's own steps -/

/-- The trace of V-RS-5 at BIDX 0 and 7, with V-RS-1 and V-RS-2's coordinates. -/
theorem test_bit_step :
    (nextOf (step (running .cb 0 0 [.block]))).map (fun s => (s.rowsh, s.bidx, s.pend, s.px))
        = some (0x02, 1, true, ⟨10, 20, 7, 9⟩)
      ∧ (nextOf (step (running .cb 7 0x80 [.block]))).map (fun s => (s.rowsh, s.bidx, s.pend, s.px))
        = some (0x00, 8, true, ⟨17, 20, 7, 9⟩) := by decide

/-- V-FB-13: the address wraps at 2^32. -/
theorem test_mono_address_wraps :
    (monoWrite { someLatch .mono with ox := 0, oy := 0, base := 0xFFFFFFFE, w := 4 } 0 2).addr = 0 := by decide

/-- V-FB-17 and V-FB-18: the element 0xF800 in either byte order. -/
theorem test_rgb565_lanes :
    rgb565Lanes false 0x0000F800 = 0xF800 ∧ rgb565Lanes true 0x0000F800 = 0x00F8
      ∧ (memWrite ⟨0x200C, 1, 0xF800⟩ []) = [(0x200C, 0x00), (0x200D, 0xF8)] := by decide

/-- V-FB-14 and V-FB-4: the clip on integers, at x = W and x = W - 1. -/
theorem test_clip :
    inClip { someLatch .mono with ox := 0x7FFFFFFD, oy := 0, w := 0x7FFFFFFF, h := 1 } 0 1 = true
      ∧ inClip { someLatch .mono with ox := 0x7FFFFFFD, oy := 0, w := 0x7FFFFFFF, h := 1 } 0 2 = false
      ∧ originOk 3 0 4 3 = true ∧ originOk 4 0 4 3 = false ∧ originOk 0 0 0xFFFFFFFB 3 = false := by decide

/-- V-HL-3 and V-HL-5. -/
theorem test_layout :
    textWidth [65, 10, 66, 66] = 16 ∧ textHeight [65, 10, 66, 66] = 16 ∧ layoutReturn [65, 10, 66, 66] 5 7 = 16
      ∧ layoutCalls [65, 10, 66, 66] 5 7 = [⟨65, 5, 7⟩, ⟨66, 5, 15⟩, ⟨66, 13, 15⟩]
      ∧ textWidth [65, 66, 10, 67] = 16 := by decide

/-- The pseudo-instruction `clear_status` is the word the reader's programs send (R82). -/
theorem test_asm : asmClearStatus = 0x3080000001E#42 ∧ asmCmd .lookup = 0x30C00000001#42 ∧ asmRd .status = 0x10800000000#42 := by
  decide

/-- P5 of 95, steps 7 to 14. -/
theorem test_glyph_line :
    asmGlyph 0x3C 0x42 0x81 0x81 0xFF 0x81 0x81 0x81 =
      [.send 0x3400000003C#42, .send 0x34400000042#42, .send 0x34800000081#42, .send 0x34C00000081#42,
       .send 0x350000000FF#42, .send 0x35400000081#42, .send 0x35800000081#42, .send 0x35C00000081#42] := by decide

/-- P4 of 95, steps 5 to 9: `draw MONO, 'H', 0, 0`, its wait included. -/
theorem test_on_glyph :
    onGlyph .mono false ⟨0x48, 0, 0⟩ =
      [.send 0x31000000048#42, .send 0x31400000000#42, .send 0x31800000000#42, .send 0x30C00000003#42, .waitIdle]
      ∧ asmWaitIdle = 0x10800000000#42 := by decide

/-- R82: `wait_idle` stays while BUSY reads 1 and is left when it reads 0; R168 follows from that. -/
theorem test_wait_idle :
    (match driverTurn .host ⟨[.waitIdle], running .cb 3 0 []⟩ with | .next d => d.prog | _ => []) = [.waitIdle]
      ∧ (match driverTurn .host ⟨[.waitIdle, .waitIdle], State.reset⟩ with | .next d => d.prog | _ => []) = [.waitIdle] := by
  decide

/-- R56: a 2-byte write of another agent is one step, laid out as R53 says. -/
theorem test_agent_write :
    (nextOf (step (withInputs [.agentWrite ⟨0x200C, 1, 0xF800⟩]))).map (fun s => s.mem) = some [(0x200C, 0x00), (0x200D, 0xF8)] := by
  decide

/-- R15, R16, R201: an output whose ready is 1 at an edge with `rst` = 1 is taken at it; one whose ready is 0 is not. -/
theorem test_take_at_reset_edge :
    (nextOf (step (offeredPx [.clock ⟨true, none, true, false⟩]))).map (fun s => (s.stream, s.pend, s.regs.emitCount))
        = some ([⟨10, 20, 7, 9⟩], false, 0)
      ∧ (nextOf (step (offeredFb [.clock ⟨true, none, false, true⟩]))).map (fun s => (s.mem, s.fbLog.length, s.pend))
        = some ([(0x128A, 0x07)], 1, false)
      ∧ (nextOf (step (offeredFb [.clock ⟨true, none, true, false⟩]))).map (fun s => (s.mem, s.fbLog.length, s.pend))
        = some ([], 0, false) := by decide

/-! ### Witnesses: concrete states that meet the hypotheses of each obligation -/

/-- An offer pending at a reset edge without its ready, and one whose ready is 1; the release of the pin. -/
theorem witness_ResetEdgeAbortsAndKeepsWhatWasTaken :
    (offeredFb [.rst true]).inputs = .rst true :: [] ∧ headResets (offeredFb [.rst true]) = true
      ∧ (Input.rst true).readies (offeredFb [.rst true]) = false
      ∧ headResets (offeredPx [.clock ⟨true, some (encode .nop), false, true⟩]) = true
      ∧ (Input.clock ⟨true, none, false, true⟩).readies (offeredPx []) = false
      ∧ headResets (offeredPx [.clock ⟨true, none, true, false⟩]) = true
      ∧ (Input.clock ⟨true, none, true, false⟩).readies (offeredPx [.clock ⟨true, none, true, false⟩]) = true
      ∧ (offeredPx []).pend = true ∧ (offeredPx []).latch.sink = .cb
      ∧ headResets (offeredFb [.clock ⟨true, none, false, true⟩]) = true
      ∧ (Input.clock ⟨true, none, false, true⟩).readies (offeredFb [.clock ⟨true, none, false, true⟩]) = true
      ∧ (offeredFb []).pend = true ∧ (offeredFb []).latch.sink ≠ .cb
      ∧ (running .cb 0 0 [.rst true]).pend = false ∧ headResets (running .cb 0 0 [.rst true]) = true
      ∧ (withInputs [.rst false]).inputs = .rst false :: [] := by decide

theorem witness_HostTransactionsHaveNoEffectInReset :
    ({ withInputs [.host (encode (.wr 0x10 5))] with rst := true } : State).rst = true
      ∧ ({ withInputs [.host (encode (.wr 0x10 5))] with rst := true } : State).inputs
          = .host (encode (.wr 0x10 5)) :: []
      ∧ (offeredPx [.clock ⟨true, some (encode (.rd 0x00)), true, true⟩]).inputs
          = .clock ⟨true, some (encode (.rd 0x00)), true, true⟩ :: [] := by decide

theorem witness_DecodeOfEncodeIsTheInstruction :
    Instr.WellFormed (.wr 0x7F 0xFFFFFFFF) ∧ Instr.WellFormed (.wr 0x0C 0x11) ∧ Instr.WellFormed (.rd 0x7F)
      ∧ Instr.WellFormed .draw565G := by decide

theorem witness_EncodeOfDecodeIsTheTransaction :
    decodeHt 0x108DEADBEEF#42 = .ok (.rd 0x08) ∧ htW 0x108DEADBEEF#42 = false
      ∧ decodeHt 0x30C00000014#42 = .ok .draw565G ∧ htW 0x30C00000014#42 = true := by decide

theorem witness_IllegalWordsSetErrCmdOnly :
    State.reset.rst = false ∧ State.reset.seq = .idle ∧ decodeCommand 0x5 = .rejected .reservedOp := by decide

theorem witness_StepRunsTheDecodedInstruction :
    (withInputs [.host 0x31000000041#42]).inputs = .host 0x31000000041#42 :: []
      ∧ decodeHt 0x31000000041#42 = .ok (.wr 0x10 0x41) := by decide

theorem witness_FetchedTableWordRuns :
    decodeTableWord 32 0x14 = some .draw565G ∧ decodeTableWord 48 0x17F00000000 = some (.rd 0x7F) := by decide

/-- One transaction for each branch: reset, bus error, read, write; and edges of an idle and of a busy block. -/
theorem witness_StepIsHostAccessOfTheFields :
    (withInputs [.host 0x28C00000001#42]).inputs = .host 0x28C00000001#42 :: [] ∧ htSz 0x28C00000001#42 ≠ 2
      ∧ (htOff 0x10100000000#42).toNat % 4 ≠ 0 ∧ htW 0x10800000000#42 = false ∧ htW 0x31000000041#42 = true
      ∧ (withInputs [edge (some 0x31000000041#42)]).inputs = edge (some 0x31000000041#42) :: []
      ∧ (withInputs [edge (some 0x31000000041#42)]).seq ≠ .expand
      ∧ (offeredPx [edge none]).inputs = edge none :: [] ∧ (offeredPx [edge none]).seq = .expand
      ∧ (offeredPx [edge none]).bidx.toNat < 64 := by decide

theorem witness_CmdWriteOfALegalWordIsTheCommand : decodeCommand 0x14 = .ok (.draw .rgb565 true) := by decide

/-- Offsets at both ends of the two reserved ranges. -/
theorem witness_ReadsOfNamedRegisters :
    State.reset.rst = false ∧ (12 < 13 ∧ 13 < 16) ∧ (12 < 15 ∧ 15 < 16) ∧ (23 < 24 ∧ 24 < 32) ∧ (23 < 31 ∧ 31 < 32) := by
  decide

theorem witness_WritesOfReadWriteRegisters : State.reset.rst = false ∧ (7 : Fin 8) ≠ 0 := by decide

theorem witness_IgnoredWritesChangeNothing :
    State.reset.rst = false ∧ (12 < 13 ∧ 13 < 16) ∧ (12 < 15 ∧ 15 < 16) ∧ (23 < 24 ∧ 24 < 32) ∧ (23 < 31 ∧ 31 < 32) := by
  decide

theorem witness_StatusWriteClearsOnesAndASetWins :
    State.reset.rst = false ∧ (complete [edge (some (encode (.wr 0x08 0x2)))]).seq = .expand
      ∧ (complete [edge (some (encode (.wr 0x08 0x2)))]).pend = false
      ∧ (complete [edge (some (encode (.wr 0x08 0x2)))]).bidx = 64
      ∧ (offeredLast [edge (some (encode (.wr 0x08 0x2)))]).bidx = 64
      ∧ sinkReady true true (offeredLast [edge (some (encode (.wr 0x08 0x2)))]) = true
      ∧ (complete [edge (some (encode (.wr 0x08 0x2)))]).inputs = edge (some (encode (.wr 0x08 0x2))) :: [] := by decide

theorem witness_BusErrorsChangeNothing :
    State.reset.rst = false ∧ (withInputs [.host 0x21000000041#42]).inputs = .host 0x21000000041#42 :: []
      ∧ htSz 0x21000000041#42 ≠ 2 ∧ htSz 0x39000000005#42 ≠ 2 ∧ (0x0D : BitVec 7).getLsbD 0 = true
      ∧ (0x0E : BitVec 7).getLsbD 1 = true := by decide

theorem witness_CmdChecksRunInOrder :
    (running .cb 0 0 []).rst = false ∧ (running .cb 0 0 []).seq ≠ .idle ∧ State.reset.seq = .idle
      ∧ decodeCommand 0x24 = .rejected .reservedBits
      ∧ (withRegs { Regs.reset with fbBase := 0x1001 }).regs.fbBase.toNat % 2 = 1
      ∧ (withInputs [.host (packHt true 1 0x0C 0x1)]).inputs = .host (packHt true 1 0x0C 0x1) :: [] := by decide

theorem witness_CommandsWhileBusyAreDiscarded :
    (running .mono 0 0 []).rst = false ∧ (running .mono 0 0 []).seq = .expand
      ∧ Instr.draw565G ∈ [Instr.nop, .lookup, .drawCb, .drawCbG, .drawMono, .drawMonoG, .draw565, .draw565G] := by decide

theorem witness_NopCompletesAtOnce :
    State.reset.rst = false ∧ State.reset.seq = .idle ∧ (running .cb 64 0 []).rst = false
      ∧ (running .cb 64 0 []).seq = .expand := by decide

/-- CODE at 126, at 31 and in reset. -/
theorem witness_LookupLoadsTheGlyphOfCode :
    State.reset.rst = false ∧ State.reset.seq = .idle ∧ (running .cb 64 0 []).rst = false
      ∧ (running .cb 64 0 []).seq = .expand ∧ (withRegs { Regs.reset with code := 126 }).regs.code = 126
      ∧ (withRegs { Regs.reset with code := 126 }).seq = .idle ∧ (withRegs { Regs.reset with code := 31 }).rst = false := by
  decide

theorem witness_DrawCommandsAreAccepted :
    (withRegs { Regs.reset with fbBase := 0xFFFFFFFE }).rst = false
      ∧ (withRegs { Regs.reset with fbBase := 0xFFFFFFFE }).seq = .idle
      ∧ (withRegs { Regs.reset with fbBase := 0xFFFFFFFE }).regs.fbBase.toNat % 2 = 0 := by decide

theorem witness_Draw565OnOddBaseIsRefused :
    (withRegs { Regs.reset with fbBase := 0xFFFFFFFF }).rst = false
      ∧ (withRegs { Regs.reset with fbBase := 0xFFFFFFFF }).seq = .idle
      ∧ (withRegs { Regs.reset with fbBase := 0xFFFFFFFF }).regs.fbBase.toNat % 2 = 1 := by decide

theorem witness_NoInstructionStoresByItself : ∃ t, exec .drawMonoG (offeredFb []) = .next t := ⟨_, rfl⟩

theorem witness_NormUsesAllBitsOfCode :
    (32 ≤ (126 : Word).toNat ∧ (126 : Word).toNat ≤ 126) ∧ ¬ (32 ≤ (31 : Word).toNat ∧ (31 : Word).toNat ≤ 126)
      ∧ (32 ≤ (32 : Word).toInt ∧ (32 : Word).toInt ≤ 126)
      ∧ ¬ (32 ≤ (0xFFFFFFBF : Word).toInt ∧ (0xFFFFFFBF : Word).toInt ≤ 126) := by decide

theorem witness_OutOfRangeCodesAreSpace :
    7 < 8 ∧ (31 : Word).toNat < 32 ∧ 126 < (127 : Word).toNat ∧ 32 ≤ (32 : Word).toNat ∧ (126 : Word).toNat ≤ 126 := by decide

theorem witness_OriginCheckOnIntegers :
    (withRegs { Regs.reset with fbBase := 0x1001 }).rst = false ∧ (withRegs { Regs.reset with fbBase := 0x1001 }).seq = .idle
      ∧ (withRegs { Regs.reset with fbBase := 0x1000 }).regs.fbBase.toNat % 2 = 0
      ∧ Instr.drawMono ∈ [Instr.drawMono, .drawMonoG] ∧ Instr.draw565G ∈ [Instr.draw565, .draw565G]
      ∧ (0 : Word).toInt ≤ 0 ∧ (0x80000000 : Word).toInt ≤ 0 ∧ ({ someLatch .mono with ok := false } : Latch).sink ≠ .cb
      ∧ ({ someLatch .mono with ok := false } : Latch).ok = false := by decide

theorem witness_ClippedIndexIsInsideTheBuffer :
    (someLatch .mono).sink ≠ .cb ∧ latchOk (someLatch .mono) ∧ inClip (someLatch .mono) 7 7 = true
      ∧ (someLatch .rgb565).sink ≠ .cb ∧ latchOk (someLatch .rgb565) ∧ inClip (someLatch .rgb565) 7 7 = true := by
  refine ⟨by decide, ?_, by decide, by decide, ?_, by decide⟩
  · show true = originOk 10 20 32 32
    decide
  · show true = originOk 10 20 32 32 ∧ (0x1000 : Word).getLsbD 0 = false
    decide

theorem witness_Rgb565AddressesAreEven : ({ someLatch .rgb565 with base := 0xFFFFFFFE } : Latch).base.toNat % 2 = 0 := by decide

theorem witness_StoppingLoopMakesTheSameWrites : (someLatch .rgb565).sink ≠ .cb := by decide

/-- A bit that is 0, a bit of each sink that is offered, and a bit that is clipped; BIDX at 0 and at 63. -/
theorem witness_BitStepTestsOneBit :
    ((running .cb 0 0 [.block]).inputs = .block :: [] ∧ (running .cb 0 0 [.block]).seq = .expand
        ∧ (running .cb 0 0 [.block]).pend = false ∧ (running .cb 0 0 [.block]).bidx.toNat < 64
        ∧ ((someLatch .cb).gl.row 0).getLsbD 7 = true ∧ inClip (someLatch .cb) 0 0 = true)
      ∧ (inClip (someLatch .mono) 0 0 = true ∧ inClip (someLatch .rgb565) 0 0 = true)
      ∧ ((running .mono 1 0x02 [.block]).rowsh.getLsbD 7 = false)
      ∧ ((running .mono 63 0x80 [.block]).bidx.toNat < 64 ∧ (running .mono 63 0x80 [.block]).rowsh.getLsbD 7 = true
        ∧ inClip (someLatch .mono) 7 7 = true)
      ∧ inClip { someLatch .mono with w := 17 } 7 7 = false := by decide

theorem witness_TakeStepDeliversTheOffer :
    ((offeredPx [.pxReady]).pend = true ∧ (offeredPx [.pxReady]).latch.sink = .cb
        ∧ (offeredPx [.pxReady]).inputs = .pxReady :: [])
      ∧ ((offeredFb [.fbReady]).pend = true ∧ (offeredFb [.fbReady]).latch.sink ≠ .cb
        ∧ (offeredFb [.fbReady]).inputs = .fbReady :: [])
      ∧ (offeredFb [.block]).inputs = .block :: [] ∧ (offeredFb [.pxReady]).inputs = .pxReady :: []
      ∧ (offeredPx [.fbReady]).inputs = .fbReady :: [] := by decide

theorem witness_CompletionSetsDone :
    ((complete [.block]).inputs = .block :: [] ∧ (complete [.block]).seq = .expand ∧ (complete [.block]).pend = false
        ∧ (complete [.block]).bidx = 64)
      ∧ (State.reset.seq = .idle ∧ State.reset.pend = false ∧ headTxn State.reset = none ∧ headResets State.reset = false)
      ∧ (headTxn (withInputs [.host (encode (.wr 0x0C 0x5))]) = some (encode (.wr 0x0C 0x5))
        ∧ htData (encode (.wr 0x0C 0x5)) ∉ ([0x0, 0x1, 0x2, 0x12, 0x3, 0x13, 0x4, 0x14] : List Word))
      ∧ (∃ t, step State.reset = .next t) ∧ (∃ t, step (withInputs [.host (encode (.wr 0x0C 0x5))]) = .next t)
      ∧ htW (encode (.rd 0x5C)) = false ∧ htSz (packHt true 0 0x40 1) ≠ 2
      ∧ ∀ r : Fin 8, htOff (encode (.wr 0x60 1)) ≠ BitVec.ofNat 7 (0x40 + 4 * r.val) :=
  ⟨by decide, by decide, by decide, ⟨_, rfl⟩, ⟨_, rfl⟩, by decide, by decide, by decide⟩

theorem witness_MemWriteLaysOutTheBytes : (0xFFFFFFFE : Word).toNat % 2 = 0 := by decide

theorem witness_WritesAreIdempotent :
    Memory.wf [(0x1000, 1), (0x1002, 0)] = true ∧ FbWrite.covers ⟨0xFFFFFFFE, 1, 0⟩ 0xFFFFFFFF = true
      ∧ FbWrite.covers ⟨0xFFFFFFFE, 1, 0⟩ 0 = false := by decide

theorem witness_DrawRunsToCompletion :
    (withRegs { Regs.reset with fbBase := 0x2000, fbW := 4, fbH := 3, orgX := 2, orgY := 1, glyph := cornerGlyph }).rst = false
      ∧ (withRegs { Regs.reset with fbBase := 0x2000, fbW := 4, fbH := 3, orgX := 2, orgY := 1, glyph := cornerGlyph }).seq
          = .idle
      ∧ (withRegs { Regs.reset with fbBase := 0x2000, fbW := 4, fbH := 3, orgX := 2, orgY := 1,
                                     glyph := cornerGlyph }).regs.fbBase.toNat % 2 = 0 := by decide

/-- ROWSH after the first bit (the trace of V-RS-5). -/
theorem rowsh_after_bit_0 :
    (0x02 : Byte) = cornerGlyph.row ((1 : BitVec 7).extractLsb' 3 3).toNat <<< ((1 : BitVec 7).extractLsb' 0 3).toNat := by
  decide

/-- A running command before its first bit meets the invariant. -/
theorem inv_running (l : List Input) : Inv (running .cb 0 0 l) :=
  ⟨rfl, Nat.zero_le _, Nat.zero_le _, fun h => Bool.noConfusion h, fun _ => rfl, fun h => Bool.noConfusion h, fun _ h => absurd rfl h, fun _ => rfl,
    fun _ => ⟨[], [], [], [], rfl, rfl, rfl, rfl, rfl⟩⟩

/-- A stream command with its first event offered meets it. -/
theorem inv_offeredPx (l : List Input) : Inv (offeredPx l) :=
  ⟨rfl, (by decide : 1 ≤ 64), Nat.zero_le _, fun _ => rfl, fun _ => rfl, fun h => Bool.noConfusion h,
    fun _ _ => rowsh_after_bit_0, fun _ => rfl,
    fun _ => ⟨[], [], [], [], rfl, rfl,
      (by decide : ([⟨10, 20, 7, 9⟩] : List PixelEvent) = firstBits (pxPayload (someLatch .cb)) (someLatch .cb) 1),
      (by decide : ([] : List FbWrite) = firstBits (fbPayload (someLatch .cb)) (someLatch .cb) 1), rfl⟩⟩

/-- A monochrome command with its first write offered meets it. -/
theorem inv_offeredFb (l : List Input) : Inv (offeredFb l) :=
  ⟨rfl, (by decide : 1 ≤ 64), Nat.zero_le _, fun _ => rfl, fun _ => rfl, fun h => Bool.noConfusion h,
    fun _ _ => rowsh_after_bit_0, fun _ => (by decide : true = originOk 10 20 32 32),
    fun _ => ⟨[], [], [], [], rfl, rfl,
      (by decide : ([] : List PixelEvent) = firstBits (pxPayload (someLatch .mono)) (someLatch .mono) 1),
      (by decide : ([⟨0x128A, 0, 0x0007⟩] : List FbWrite) = firstBits (fbPayload (someLatch .mono)) (someLatch .mono) 1),
      rfl⟩⟩

/-- A command before its completion step meets it, with the three events of its glyph taken. -/
theorem inv_complete (l : List Input) : Inv (complete l) :=
  ⟨rfl, Nat.le_refl 64, (by decide : 3 ≤ 64), fun h => Bool.noConfusion h, fun _ => rfl, fun h => Bool.noConfusion h,
    fun _ h => absurd (by decide : (((64 : BitVec 7).extractLsb' 0 3).toNat = 0)) h, fun _ => rfl,
    fun _ => ⟨_, [], [], [], rfl, rfl,
      (by decide : ([⟨10, 20, 7, 9⟩, ⟨17, 20, 7, 9⟩, ⟨17, 27, 7, 9⟩] : List PixelEvent)
        = firstBits (pxPayload (someLatch .cb)) (someLatch .cb) 64),
      (by decide : ([] : List FbWrite) = firstBits (fbPayload (someLatch .cb)) (someLatch .cb) 64), rfl⟩⟩

/-- P4 of 95 after its steps 1 to 4: the buffer described, nothing drawn yet. -/
def p4Setup : State := withRegs { Regs.reset with fbBase := 0x2000, fbW := 16, fbH := 8, color := 1 }

/-- No command runs there, so it meets the invariant. -/
theorem inv_p4Setup : Inv p4Setup :=
  ⟨rfl, Nat.zero_le _, Nat.zero_le _, fun h => Bool.noConfusion h, fun _ => rfl, fun _ => rfl,
    fun h => absurd h (by decide), fun h => absurd h (by decide), fun h => absurd h (by decide)⟩

theorem witness_EveryScheduleGivesTheLoopsOutputs : Inv (complete []) ∧ (complete []).completeEnabled = true :=
  ⟨inv_complete [], by decide⟩

theorem witness_ServedCommandsCompleteAndStalledOnesHold :
    (Inv (running .cb 0 0 []) ∧ (running .cb 0 0 []).seq = .expand)
      ∧ ((offeredPx [.clock ⟨false, none, false, true⟩]).inputs = .clock ⟨false, none, false, true⟩ :: []
        ∧ Inv (offeredPx [.clock ⟨false, none, false, true⟩])
        ∧ (offeredPx [.clock ⟨false, none, false, true⟩]).pend = true
        ∧ sinkReady false true (offeredPx [.clock ⟨false, none, false, true⟩]) = false) :=
  ⟨⟨inv_running _, rfl⟩, rfl, inv_offeredPx _, rfl, rfl⟩

/-- An edge of the always ready schedule answers a next state. -/
theorem free_run_next (n : Nat) (s : State) : ∃ u, envRun (fun _ => freeClock) n s = .next u := by
  induction n with
  | zero => exact ⟨s, rfl⟩
  | succ n ih =>
    obtain ⟨u, hu⟩ := ih
    rw [envRun, hu, onNext_next, step_presentInput]
    exact ⟨_, clockEdge_eq _ _⟩

/-- The always ready schedule meets TAKE_LIVENESS. -/
theorem free_take_liveness (s : State) : TakeLiveness (fun _ => freeClock) s := by
  intro n u hu hp
  refine ⟨n, u, Nat.le_refl n, hu, .inl ?_⟩
  cases hs : u.latch.sink <;> simp [Input.takes, Input.readies, freeClock, sinkReady, hp, hs]

/-- A silent environment of reads never takes, so it serves the second clause. -/
theorem witness_TakeLivenessMakesDrawsComplete :
    (Inv (running .cb 0 0 []) ∧ (running .cb 0 0 []).seq = .expand ∧ (∀ n : Nat, ((fun _ => freeClock) n).resets = false)
        ∧ (∀ n, ∃ u, envRun (fun _ => freeClock) n (running .cb 0 0 []) = .next u)
        ∧ BlockKeepsMoving (fun _ => freeClock) ∧ TakeLiveness (fun _ => freeClock) (running .cb 0 0 []))
      ∧ (Inv (offeredPx []) ∧ (offeredPx []).pend = true ∧ (∀ n : Nat, ((fun _ => Input.block) n).resets = false)
        ∧ ∀ n u, envRun (fun _ => Input.block) n (offeredPx []) = .next u → ((fun _ => Input.block) n).readies u = false) :=
  ⟨⟨inv_running _, rfl, fun _ => rfl, fun n => free_run_next n _, fun n => ⟨n, Nat.le_refl n, rfl⟩, free_take_liveness _⟩,
    inv_offeredPx _, rfl, fun _ => rfl, fun _ _ _ => rfl⟩

theorem witness_TestedBitIsTheGlyphBit : Inv (running .cb 0 0 []) ∧ (running .cb 0 0 []).bitEnabled = true :=
  ⟨inv_running [], by decide⟩

theorem witness_EveryStepKeepsInv : Inv (running .cb 0 0 [.block]) ∧ ∃ t, step (running .cb 0 0 [.block]) = .next t :=
  ⟨inv_running _, _, rfl⟩

theorem witness_OffersAreHeldUntilTaken :
    (Inv (offeredPx [.block]) ∧ (offeredPx [.block]).pxValid = true ∧ ∃ t, step (offeredPx [.block]) = .next t)
      ∧ (Inv (offeredFb [.fbReady]) ∧ (offeredFb [.fbReady]).fbValid = true ∧ ∃ t, step (offeredFb [.fbReady]) = .next t)
      ∧ (headReadies (offeredPx [.block]) = false ∧ headResets (offeredPx [.block]) = false
          ∧ headReadies (offeredPx [.pxReady]) = true ∧ headReadies (offeredFb [.fbReady]) = true
          ∧ headReadies (offeredFb [.clock ⟨true, none, true, false⟩]) = false)
      ∧ (Inv (offeredFb [.clock ⟨true, none, true, true⟩]) ∧ headResets (offeredFb [.clock ⟨true, none, true, true⟩]) = true
          ∧ headReadies (offeredFb [.clock ⟨true, none, true, true⟩]) = true
          ∧ ∃ t, step (offeredFb [.clock ⟨true, none, true, true⟩]) = .next t) :=
  ⟨⟨inv_offeredPx _, by decide, _, rfl⟩, ⟨inv_offeredFb _, by decide, _, rfl⟩, by decide, inv_offeredFb _, by decide,
    by decide, _, rfl⟩

/-- V-CD-9: a write to ORG_X while a command runs. -/
theorem witness_LatchIsConstantWhileBusy :
    (running .cb 3 0 [.host (encode (.wr 0x14 99))]).seq = .expand
      ∧ headResets (running .cb 3 0 [.host (encode (.wr 0x14 99))]) = false
      ∧ ∃ t, step (running .cb 3 0 [.host (encode (.wr 0x14 99))]) = .next t := ⟨by decide, by decide, _, rfl⟩

theorem witness_ParametersChangeOnlyByHostWrites :
    Reg.orgX ∈ [Reg.ctrl, .code, .orgX, .orgY, .color, .tag, .fbBase, .fbW, .fbH]
      ∧ headResets (withInputs [.host (encode (.wr 0x10 5))]) = false
      ∧ headTxn (withInputs [.host (encode (.wr 0x10 5))]) = some (encode (.wr 0x10 5))
      ∧ htOff (encode (.wr 0x10 5)) ≠ regOffset .orgX
      ∧ headTxn (offeredFb [.fbReady]) = none
      ∧ ∃ t, step (withInputs [.host (encode (.wr 0x10 5))]) = .next t :=
  ⟨by decide, by decide, by decide, by decide, by decide, _, rfl⟩

theorem witness_MemoryChangesOnlyByTakesAndAgents :
    (∃ t, step (offeredFb [.fbReady]) = .next t ∧ t.mem.read 0x128A ≠ (offeredFb [.fbReady]).mem.read 0x128A)
      ∧ (∃ t, step (withInputs [.agentWrite ⟨0x10, 0, 3⟩]) = .next t
          ∧ t.mem.read 0x10 ≠ (withInputs [.agentWrite ⟨0x10, 0, 3⟩]).mem.read 0x10) :=
  ⟨⟨_, rfl, by decide⟩, _, rfl, by decide⟩

theorem witness_ErrorBitsAreSticky :
    ({ withRegs { Regs.reset with errCmd := true, errBusy := true, errAlign := true } with inputs := [.block] } : State).regs.errCmd
        = true
      ∧ headResets { withRegs { Regs.reset with errCmd := true } with inputs := [.block] } = false
      ∧ ∃ t, step { withRegs { Regs.reset with errCmd := true } with inputs := [.block] } = .next t :=
  ⟨by decide, by decide, _, rfl⟩

theorem witness_BusyFallsOnlyAtCompletionOrReset :
    ((complete [.block]).seq = .expand ∧ ∃ t, step (complete [.block]) = .next t ∧ t.seq = .idle)
      ∧ ((offeredPx [.rst true]).seq = .expand ∧ ∃ t, step (offeredPx [.rst true]) = .next t ∧ t.seq = .idle) :=
  ⟨⟨by decide, _, rfl, by decide⟩, by decide, _, rfl, by decide⟩

/-- V-EX-1, V-EX-5 and V-EX-4. -/
theorem witness_InterruptsAreRaisedMaskedAndCleared :
    (withRegs { Regs.reset with ctrl := 1 }).rst = false ∧ (withRegs { Regs.reset with ctrl := 1 }).seq = .idle
      ∧ (withRegs { Regs.reset with ctrl := 1 }).regs.ctrl.getLsbD 0 = true
      ∧ (withRegs { Regs.reset with errCmd := true, done := true }).regs.errCmd = true
      ∧ (0x2 : Word).getLsbD 1 = true ∧ (0x1 : Word).getLsbD 0 = true := by decide

theorem witness_SameCycleEventsAreOrdered :
    ((offeredLast [edge (some (commandHt 0x2))]).inputs = edge (some (commandHt 0x2)) :: []
        ∧ (offeredLast [edge (some (commandHt 0x2))]).seq = .expand ∧ (offeredLast [edge (some (commandHt 0x2))]).pend = true
        ∧ sinkReady true true (offeredLast [edge (some (commandHt 0x2))]) = true
        ∧ (offeredLast [edge (some (commandHt 0x2))]).bidx = 64)
      ∧ ((complete [edge (some (commandHt 0x2))]).inputs = edge (some (commandHt 0x2)) :: []
        ∧ (complete [edge (some (commandHt 0x2))]).seq = .expand ∧ (complete [edge (some (commandHt 0x2))]).pend = false
        ∧ (complete [edge (some (commandHt 0x2))]).bidx = 64)
      ∧ ((offeredFb [edge (some (encode (.rd 0x30)))]).inputs = edge (some (encode (.rd 0x30))) :: []
        ∧ (offeredFb [edge (some (encode (.rd 0x30)))]).seq = .expand
        ∧ (offeredFb [edge (some (encode (.rd 0x30)))]).pend = true
        ∧ sinkReady true true (offeredFb [edge (some (encode (.rd 0x30)))]) = true) := by decide

/-- The last byte of a 32 x 32 monochrome buffer at 0x1000 is 0x13FF, of an RGB565 one 0x17FF; a 2-byte write whose second
byte alone is in the buffer. -/
theorem witness_ConcurrentBufferWritesAreRefused :
    step (running .mono 0 0 [.agentWrite ⟨0x13FF, 0, 1⟩]) = .refused .concurrentBufferWrite
      ∧ step (running .rgb565 0 0 [.agentWrite ⟨0x17FF, 0, 1⟩]) = .refused .concurrentBufferWrite
      ∧ step (running .mono 0 0 [.agentWrite ⟨0x0FFF, 1, 1⟩]) = .refused .concurrentBufferWrite
      ∧ (nextOf (step (running .mono 0 0 [.agentWrite ⟨0x1400, 1, 1⟩]))).isSome = true
      ∧ (nextOf (step (running .mono 0 0 [.agentWrite ⟨0x0FFF, 0, 1⟩]))).isSome = true
      ∧ (nextOf (step (running .cb 0 0 [.agentWrite ⟨0x1000, 0, 1⟩]))).isSome = true :=
  ⟨rfl, rfl, rfl, by decide, by decide, by decide⟩

/-- An offered element of one byte and one of two. -/
theorem witness_TakenWritesAreVisible :
    ((offeredFb []).fbValid = true
        ∧ (offeredFb [.fbReady, .agentRead 0x128A 0]).inputs
          = .fbReady :: .agentRead (offeredFb []).fb.addr (offeredFb []).fb.size :: []
        ∧ (offeredFb [.agentRead 0x128A 0]).inputs = .agentRead (offeredFb []).fb.addr (offeredFb []).fb.size :: [])
      ∧ (({ running .rgb565 1 0x02 [.fbReady, .agentRead 0x1514 1] with pend := true, fb := ⟨0x1514, 1, 7⟩ } : State).fbValid
          = true) := by decide

theorem witness_LayoutReturnsTheLastLineWidth :
    (0 : Byte) ∉ ([65, 66] : List Byte) ∧ (0 : Byte) ∉ ([] : List Byte) ∧ newline ∉ ([] : List Byte)
      ∧ newline ∉ ([67] : List Byte) := by decide

theorem witness_TextWidthIsTheWidestLine :
    (0 : Byte) ∉ ([65, 66] : List Byte) ∧ newline ∉ ([65, 66] : List Byte) ∧ (0 : Byte) ∉ ([] : List Byte) := by decide

theorem witness_LayoutCallsFollowTheCursor :
    (0 : Byte) ∉ ([65, 10, 66] : List Byte) ∧ (66 : Byte) ≠ 0 ∧ (66 : Byte) ≠ newline := by decide

/-- The driver of "A" from P4's set-up, after its first turn, and of the empty text at its end. -/
theorem witness_LayoutDriverWaitsForEachCommand :
    (Inv p4Setup ∧ p4Setup.rst = false ∧ p4Setup.seq = .idle ∧ p4Setup.regs.errBusy = false
        ∧ p4Setup.regs.fbBase.toNat % 2 = 0)
      ∧ (∀ x, x ∈ [Turn.host, .edge true true, .other .fbReady] → x.servesDriver = true)
      ∧ (∃ d, drive [.host, .edge true true, .other .fbReady] ⟨layoutProgram .rgb565 false [65] 0 0, p4Setup⟩ = .next d)
      ∧ ∃ d, drive [] ⟨layoutProgram .rgb565 false [] 0 0, p4Setup⟩ = .next d ∧ d.prog = [] :=
  ⟨⟨inv_p4Setup, rfl, rfl, rfl, rfl⟩, by decide, ⟨_, rfl⟩, _, rfl, rfl⟩

theorem witness_HighBytesDrawSpace : 0x80 ≤ (0x80 : Byte).toNat ∧ 0x80 ≤ (0xFF : Byte).toNat ∧ 7 < 8 := by decide

end Sys2Proof.Tests
end

section
/-! PROOFS. What becomes of an offer of the two ports: taken by a raised ready, held otherwise, withdrawn by reset. -/

namespace Sys2Proof.Machine

/-! ### The two ports -/

theorem pxValid_iff (s : State) : s.pxValid = true ↔ s.pend = true ∧ s.latch.sink = .cb := by
  simp [State.pxValid]

theorem fbValid_iff (s : State) : s.fbValid = true ↔ s.pend = true ∧ s.latch.sink ≠ .cb := by
  simp [State.fbValid]

theorem pxValid_of_not_pend (s : State) (h : s.pend = false) : s.pxValid = false := by
  simp [State.pxValid, h]

theorem fbValid_of_not_pend (s : State) (h : s.pend = false) : s.fbValid = false := by
  simp [State.fbValid, h]

/-- A take at the stream port delivers the offered event (R15). -/
theorem takeStep_stream_of_cb (s : State) (hk : s.latch.sink = .cb) : (takeStep s).stream = s.stream ++ [s.px] := by
  rcases takeStep_cases s with ⟨_, e⟩ | ⟨hk', _⟩
  · rw [e]
  · exact absurd hk hk'

/-- A take at the framebuffer port records the offered write and performs it (R16, R53). -/
theorem takeStep_write_of_not_cb (s : State) (hk : s.latch.sink ≠ .cb) :
    (takeStep s).fbLog = s.fbLog ++ [s.fb] ∧ (takeStep s).mem = memWrite s.fb s.mem := by
  rcases takeStep_cases s with ⟨hk', _⟩ | ⟨_, e⟩
  · exact absurd hk' hk
  · rw [e]; exact ⟨rfl, rfl⟩

/-! ### The two sides of `OfferStep` -/

/-- With the ready raised the histories and memory become those of the take. -/
theorem OfferStep.taken {s t : State} (h : OfferStep s t) (hr : headReadies s = true) :
    t.stream = (takeStep s).stream ∧ t.fbLog = (takeStep s).fbLog ∧ t.mem = (takeStep s).mem := by
  rcases h with ⟨_, delivered⟩ | ⟨hr', _⟩
  · exact delivered
  · simp [hr] at hr'

/-- Without the ready nothing is delivered, and outside reset the offer stands as it was. -/
theorem OfferStep.held {s t : State} (h : OfferStep s t) (hr : headReadies s = false) :
    t.stream = s.stream ∧ t.fbLog = s.fbLog
      ∧ (headResets s = false → t.pend = true ∧ t.latch = s.latch ∧ t.px = s.px ∧ t.fb = s.fb) := by
  rcases h with ⟨hr', _⟩ | ⟨_, hstream, hlog, hreset | kept⟩
  · simp [hr] at hr'
  · exact ⟨hstream, hlog, fun h => by simp [hreset] at h⟩
  · exact ⟨hstream, hlog, fun _ => kept⟩

/-- The invariant puts every pending output in a running command (R37), so each step treats it as an offer. -/
theorem Inv.step_offer {s t : State} (hI : Inv s) (hp : s.pend = true) (h : step s = .next t) : OfferStep s t :=
  Machine.step_offer s t h hp (hI.pendBusy hp)

/-! ### One step at each port, and the reset edge -/

/-- One step from an offered pixel event (R15, R134). -/
theorem step_of_pxValid {s t : State} (hI : Inv s) (hv : s.pxValid = true) (h : step s = .next t) :
    (headReadies s = true → t.stream = s.stream ++ [s.px])
      ∧ (headReadies s = false → t.stream = s.stream ∧ (headResets s = false → t.pxValid = true ∧ t.px = s.px)) := by
  obtain ⟨hp, hk⟩ := (pxValid_iff s).mp hv
  have hoffer := hI.step_offer hp h
  refine ⟨fun hr => ?_, fun hr => ?_⟩
  · rw [(hoffer.taken hr).1, takeStep_stream_of_cb s hk]
  · obtain ⟨hstream, _, kept⟩ := hoffer.held hr
    refine ⟨hstream, fun hreset => ?_⟩
    obtain ⟨hpend, hlatch, hpx, _⟩ := kept hreset
    exact ⟨(pxValid_iff t).mpr ⟨hpend, hlatch ▸ hk⟩, hpx⟩

/-- One step from an offered framebuffer write (R16, R53, R134). -/
theorem step_of_fbValid {s t : State} (hI : Inv s) (hv : s.fbValid = true) (h : step s = .next t) :
    (headReadies s = true → t.fbLog = s.fbLog ++ [s.fb] ∧ t.mem = memWrite s.fb s.mem)
      ∧ (headReadies s = false → t.fbLog = s.fbLog ∧ (headResets s = false → t.fbValid = true ∧ t.fb = s.fb)) := by
  obtain ⟨hp, hk⟩ := (fbValid_iff s).mp hv
  have hoffer := hI.step_offer hp h
  refine ⟨fun hr => ?_, fun hr => ?_⟩
  · obtain ⟨_, hlog, hmem⟩ := hoffer.taken hr
    rw [hlog, hmem]
    exact takeStep_write_of_not_cb s hk
  · obtain ⟨_, hlog, kept⟩ := hoffer.held hr
    refine ⟨hlog, fun hreset => ?_⟩
    obtain ⟨hpend, hlatch, _, hfb⟩ := kept hreset
    exact ⟨(fbValid_iff t).mpr ⟨hpend, hlatch ▸ hk⟩, hfb⟩

/-- A reset edge leaves no output pending (R200, R201). -/
theorem step_pend_of_headResets {s t : State} (hr : headResets s = true) (h : step s = .next t) : t.pend = false := by
  obtain ⟨u, px, fb, _, _, rfl⟩ := step_resets s t h hr
  exact resetClock_pend px fb u

/-- Settles O44: the step laws of the two ports, which rest on `step_offer`, and the reset edge. -/
theorem offersAreHeldUntilTaken : Obligations.OffersAreHeldUntilTaken := by
  unfold Obligations.OffersAreHeldUntilTaken
  refine ⟨fun s t hI hv h => step_of_pxValid hI hv h, fun s t hI hv h => step_of_fbValid hI hv h, fun s t hr h => ?_⟩
  have hpend := step_pend_of_headResets hr h
  exact ⟨pxValid_of_not_pend t hpend, fbValid_of_not_pend t hpend⟩

end Sys2Proof.Machine
end

section
/-! PROOFS. The state elements at reset, the base case of the invariant, and the latch of a running command. -/

namespace Sys2Proof.Machine

/-! ### The latch of a running command -/

/-- While a command runs, no step but a reset edge changes the latch: of the parts of a step only the accept of a DRAW
could load it, and a CMD write is discarded while BUSY (R34, R99, R101). -/
theorem step_latch_of_expand {s t : State} (hs : s.seq = .expand) (hr : headResets s = false)
    (h : step s = .next t) : t.latch = s.latch := by
  obtain ⟨u, v, w, hu, haccess, htake, -, hend⟩ := step_shape s t h hr
  have hul : u.latch = s.latch := by rw [hu]
  have huseq : u.seq = .expand := by rw [hu]; exact hs
  have hvl : v.latch = u.latch := by
    rcases haccess with ⟨rfl, -⟩ | ⟨x, -, rfl⟩
    · rfl
    · exact (hostBusy _ _ _ _ u huseq).latch
  have hwl : w.latch = v.latch := by
    rcases htake with rfl | ⟨px, fb, rfl⟩
    · rfl
    · exact take_latch px fb v
  have htl : t.latch = w.latch := by
    rcases hend with rfl | rfl | ⟨-, x, rest, -, rfl⟩ | ⟨-, a, size, rfl⟩
    · rfl
    · exact block_latch w
    · rfl
    · exact agentRead_latch a size w
  calc t.latch = w.latch := htl
    _ = v.latch := hwl
    _ = u.latch := hvl
    _ = s.latch := hul

/-- Settles O45: `step_latch_of_expand`. -/
theorem latchIsConstantWhileBusy : Obligations.LatchIsConstantWhileBusy := by
  unfold Obligations.LatchIsConstantWhileBusy
  exact fun s t hs hr h => step_latch_of_expand hs hr h

/-! ### The register window at reset -/

/-- Every row of the zero glyph is 0. -/
@[simp] theorem glyph_zero_row (r : Nat) : Glyph.zero.row r = 0 := by
  unfold Glyph.row Glyph.zero
  split <;> rfl

/-- CAPS is the only register that does not read 0 at reset (R41). -/
theorem readNamed_reset {r : Reg} (h : r ≠ .caps) : readNamed r State.reset = 0 := by
  cases r with
  | caps => exact absurd rfl h
  | glyph q =>
    show (Glyph.zero.row q.val).setWidth 32 = 0
    rw [glyph_zero_row]
    rfl
  | _ => rfl

/-- CAPS has register number 0 alone (R21). -/
theorem ne_caps_of_regAt {n : BitVec 5} {r : Reg} (hn : n ≠ 0) (h : regAt n = some r) : r ≠ .caps := by
  rintro rfl
  exact hn (regAt_inj n .caps h)

/-- Every register number but that of CAPS reads 0 at reset, the reserved ones included (R41, R93). -/
theorem readReg_reset {n : BitVec 5} (hn : n ≠ 0) : readReg n State.reset = 0 := by
  unfold readReg
  cases h : regAt n with
  | none => rfl
  | some r => exact readNamed_reset (ne_caps_of_regAt hn h)

/-- Settles O1: the register window by `readReg_reset`, every other element as `State.reset` writes it out. -/
theorem resetLeavesEveryElementZero : Obligations.ResetLeavesEveryElementZero := by
  unfold Obligations.ResetLeavesEveryElementZero
  have hcaps : readReg 0 State.reset = 0x7E200808 := by decide
  exact ⟨hcaps, fun n hn => readReg_reset hn, rfl, rfl, rfl, rfl, rfl, rfl, rfl, rfl, rfl, rfl, rfl, rfl, rfl, rfl, rfl,
    rfl, rfl⟩

/-! ### The invariant of an idle block -/

/-- With no command running the invariant asks for canonical memory, the two counter bounds and no pending output: its
other clauses are about a running command. -/
theorem Inv.of_idle {s : State} (hseq : s.seq = .idle) (hpend : s.pend = false) (hmem : s.mem.wf = true)
    (hbidx : s.bidx.toNat ≤ 64) (hemit : s.regs.emitCount.toNat ≤ 64) : Inv s := by
  have notRunning : s.seq ≠ .expand := by simp [hseq]
  exact
    { memWf := hmem
      bidxLe := hbidx
      emitLe := hemit
      pendBusy := fun hp => by simp [hpend] at hp
      doneIdle := fun hs => absurd hs notRunning
      rstIdle := fun _ => hseq
      rowsh := fun hs => absurd hs notRunning
      latch := fun hs => absurd hs notRunning
      progress := fun hs => absurd hs notRunning }

/-- Settles O42: at reset the block is idle (`Inv.of_idle`), memory is empty and both counters are 0. -/
theorem invHoldsAtReset : Obligations.InvHoldsAtReset := by
  unfold Obligations.InvHoldsAtReset
  exact Inv.of_idle rfl rfl rfl (Nat.zero_le 64) (Nat.zero_le 64)

end Sys2Proof.Machine
end

section
/-! PROOFS. Element writes as bytes: the layout of one write, the last write of a list at each address, and the even
addresses of RGB565 elements. -/

namespace Sys2Proof.Machine

/-! ### One element write -/

/-- A size that is not 0 is 1 (R16). -/
theorem size_ne_zero_iff (size : BitVec 1) : size ≠ 0 ↔ size = 1 := by
  revert size
  decide

/-- The addresses of an element write (R53). -/
theorem FbWrite.covers_iff (w : FbWrite) (a : Nat) :
    w.covers a = true ↔ a = w.addr.toNat ∨ (w.size = 1 ∧ a = (w.addr + 1).toNat) := by
  simp only [FbWrite.covers, Bool.or_eq_true, beq_iff_eq, Bool.and_eq_true, bne_iff_ne, size_ne_zero_iff]

/-- A write stores to its own address. -/
theorem FbWrite.covers_addr (w : FbWrite) : w.covers w.addr.toNat = true := (w.covers_iff _).mpr (.inl rfl)

/-- A two-byte write stores to the next address too. -/
theorem FbWrite.covers_addr_succ (w : FbWrite) (h : w.size = 1) : w.covers (w.addr + 1).toNat = true :=
  (w.covers_iff _).mpr (.inr ⟨h, rfl⟩)

/-- The second byte of an element at an even address does not wrap (R55). -/
theorem toNat_succ_of_even (addr : Word) (h : addr.toNat % 2 = 0) : (addr + 1).toNat = addr.toNat + 1 := by
  have := addr.isLt
  rw [BitVec.toNat_add, show (1 : Word).toNat = 1 from rfl]
  omega

/-- A two-byte element at an even address: its low lane at the address and its high lane right above (R53, R55). -/
theorem memWrite_read_two_of_even (m : Memory) (addr : Word) (high low : Byte) (a : Nat) (h : addr.toNat % 2 = 0) :
    (memWrite ⟨addr, 1, lanes high low⟩ m).read a =
      if a = addr.toNat then some low else if a = addr.toNat + 1 then some high else m.read a := by
  rw [memWrite_read_lanes]
  simp only [toNat_succ_of_even addr h, lanes_low, lanes_high, true_and]

/-- Settles O35: `memWrite_read_lanes` for one byte, and `memWrite_read_two_of_even` at the lanes of both byte orders. -/
theorem memWriteLaysOutTheBytes : Obligations.MemWriteLaysOutTheBytes := by
  unfold Obligations.MemWriteLaysOutTheBytes
  refine ⟨fun m addr v a => ?_, fun m addr color a heven => ⟨?_, ?_⟩⟩
  · simp [memWrite_read_lanes]
  · exact memWrite_read_two_of_even m addr _ _ a heven
  · exact memWrite_read_two_of_even m addr _ _ a heven

/-- Settles O30: modulo 2^32 keeps parity, and an even address below 2^32 is not the last one. -/
theorem rgb565AddressesAreEven : Obligations.Rgb565AddressesAreEven := by
  unfold Obligations.Rgb565AddressesAreEven
  intro l r k hbase
  have haddr : (rgb565Write l r k).addr.toNat = ((l.base.toNat + 2 * elementIndex l r k) % 2 ^ 32 : Int).toNat :=
    BitVec.toNat_ofInt _
  omega

/-! ### Lists of element writes -/

/-- A write leaves a byte at every address it covers. -/
theorem memWrite_read_ne_none (w : FbWrite) (m : Memory) (a : Nat) (h : w.covers a = true) :
    (memWrite w m).read a ≠ none := by
  rcases (w.covers_iff a).mp h with ha | ⟨hsize, ha⟩
  · simp [memWrite_read_lanes, ha]
  · rw [memWrite_read]
    simp [hsize, ha]

/-- One more write at the end of a list. -/
theorem applyWrites_concat (ws : List FbWrite) (w : FbWrite) (m : Memory) :
    applyWrites (ws ++ [w]) m = memWrite w (applyWrites ws m) := applyWrites_append ws [w] m

/-- The last write of a list that ends in `w`. -/
theorem lastByte_concat (ws : List FbWrite) (w : FbWrite) (a : Nat) :
    lastByte (ws ++ [w]) a = (memWrite w (applyWrites ws [])).read a := by
  rw [lastByte, applyWrites_concat]

/-- A last write that covers the address leaves its own byte there, whatever the memory held. -/
theorem lastByte_concat_of_covers (ws : List FbWrite) (w : FbWrite) (m : Memory) (a : Nat) (h : w.covers a = true) :
    lastByte (ws ++ [w]) a = (memWrite w m).read a := by
  rw [lastByte_concat, memWrite_read_covered w _ m a h]

/-- A last write elsewhere leaves what the list before it left. -/
theorem lastByte_concat_of_not_covers (ws : List FbWrite) (w : FbWrite) (a : Nat) (h : w.covers a = false) :
    lastByte (ws ++ [w]) a = lastByte ws a := by
  rw [lastByte_concat, memWrite_read_frame w _ a h, lastByte]

/-- Each byte after a list of writes: its last write, or what the memory held (R158). -/
theorem applyWrites_read (ws : List FbWrite) (m : Memory) (a : Nat) :
    (applyWrites ws m).read a = (lastByte ws a).or (m.read a) := by
  induction ws using List.reverseRecOn with
  | nil => rfl
  | append_singleton ws w ih =>
    rw [applyWrites_concat]
    cases hc : w.covers a with
    | false => rw [memWrite_read_frame w _ a hc, lastByte_concat_of_not_covers ws w a hc, ih]
    | true =>
      obtain ⟨v, hv⟩ := Option.ne_none_iff_exists'.mp (memWrite_read_ne_none w (applyWrites ws m) a hc)
      rw [lastByte_concat_of_covers ws w (applyWrites ws m) a hc, hv]
      rfl

/-- A list has no last write at an address exactly when none of its writes covers it. -/
theorem lastByte_eq_none_iff (ws : List FbWrite) (a : Nat) :
    lastByte ws a = none ↔ ∀ w, w ∈ ws → w.covers a = false := by
  induction ws using List.reverseRecOn with
  | nil => exact ⟨fun _ w hw => absurd hw List.not_mem_nil, fun _ => rfl⟩
  | append_singleton ws w ih =>
    cases hc : w.covers a with
    | false => simp [lastByte_concat_of_not_covers ws w a hc, ih, or_imp, forall_and, hc]
    | true =>
      rw [lastByte_concat_of_covers ws w [] a hc]
      refine ⟨fun h => absurd h (memWrite_read_ne_none w [] a hc), fun h => ?_⟩
      simp [h w (by simp)] at hc

/-- Writing a list again changes nothing: every byte already holds its last write (R159). -/
theorem applyWrites_idem (ws : List FbWrite) (m : Memory) (hm : m.wf = true) :
    applyWrites ws (applyWrites ws m) = applyWrites ws m := by
  have hwf := applyWrites_wf ws m hm
  refine memory_ext _ _ (applyWrites_wf ws _ hwf) hwf fun a => ?_
  rw [applyWrites_read ws (applyWrites ws m), applyWrites_read ws m]
  cases lastByte ws a <;> rfl

/-- Settles O36: `applyWrites_read`, `lastByte_eq_none_iff`, the lanes of the last write, and `applyWrites_idem`. -/
theorem writesAreIdempotent : Obligations.WritesAreIdempotent := by
  unfold Obligations.WritesAreIdempotent
  refine ⟨fun ws m a => ?_, lastByte_eq_none_iff, fun ws w a => ?_, applyWrites_idem⟩
  · rw [applyWrites_read]
    cases lastByte ws a <;> rfl
  · rw [lastByte_concat, memWrite_read_lanes, lastByte]

end Sys2Proof.Machine
end

section
/-! PROOFS. What one step can do to framebuffer memory, and how BUSY falls. -/

namespace Sys2Proof.Machine

/-! ### A host access stores nothing (R51) -/

theorem accept_mem (c : Command) (s : State) : (accept c s).mem = s.mem := by
  rcases accept_cases c s with ⟨_, e⟩ | ⟨_, e⟩ | ⟨k, _, e⟩ | ⟨k, _, e⟩ <;> simp [e]

theorem writeCmd_mem (d : Word) (s : State) : (writeCmd d s).mem = s.mem := by
  rcases writeCmd_cases d s with ⟨_, e⟩ | ⟨_, _, e⟩ | ⟨_, c, _, _, e⟩ | ⟨_, c, _, _, e⟩ <;> simp [e, accept_mem]

theorem writeNamed_mem (r : Reg) (d : Word) (s : State) : (writeNamed r d s).mem = s.mem := by
  cases r with
  | cmd => exact writeCmd_mem d s
  | _ => rfl

theorem hostAccess_mem (w : Bool) (sz : BitVec 2) (off : BitVec 7) (d : Word) (s : State) :
    (hostAccess w sz off d s).mem = s.mem := by
  rcases hostAccess_cases w sz off d s with ⟨_, e⟩ | ⟨_, _, e⟩ | ⟨_, _, _, e⟩ | ⟨_, _, _, e⟩ <;>
    simp only [e, respond_mem]
  rcases writeReg_cases (regNumber off) d s with ⟨_, e⟩ | ⟨r, _, e⟩ <;> simp only [e, writeNamed_mem]

/-! ### Memory in one step -/

/-- The pending framebuffer write of `s` is performed and recorded in `t` (R134). -/
def TakesWrite (s t : State) : Prop :=
  s.fbValid = true ∧ t.mem = memWrite s.fb s.mem ∧ t.fbLog = s.fbLog ++ [s.fb]

/-- A ready input keeps memory, or it takes the pending write. -/
theorem takeIfReady_mem_cases (px fb : Bool) (s : State) :
    (takeIfReady px fb s).mem = s.mem ∨ TakesWrite s (takeIfReady px fb s) := by
  rcases takeIfReady_cases px fb s with ⟨hp, _, e⟩ | ⟨_, e⟩ <;> rw [e]
  · rcases takeStep_cases s with ⟨_, e⟩ | ⟨hk, e⟩ <;> rw [e]
    · exact .inl rfl
    · exact .inr ⟨(fbValid_iff s).mpr ⟨hp, hk⟩, rfl, rfl⟩
  · exact .inl rfl

/-- An edge with `rst` = 1 keeps memory, or it takes the pending write: the reset itself touches neither memory nor the
histories (R16, R201). -/
theorem resetClock_mem_cases (px fb : Bool) (s : State) :
    (resetClock px fb s).mem = s.mem ∨ TakesWrite s (resetClock px fb s) :=
  takeIfReady_mem_cases px fb s

/-- A take in a state with the same offer and the same memory is a take. -/
theorem TakesWrite.of_same {s u t : State} (h : TakesWrite u t) (hpend : u.pend = s.pend) (hlatch : u.latch = s.latch)
    (hfb : u.fb = s.fb) (hmem : u.mem = s.mem) (hlog : u.fbLog = s.fbLog) : TakesWrite s t := by
  obtain ⟨hv, hm, hl⟩ := h
  refine ⟨?_, hfb ▸ hmem ▸ hm, hfb ▸ hlog ▸ hl⟩
  rwa [State.fbValid, ← hpend, ← hlatch]

/-- A take stays one through parts of the step that keep memory and the history. -/
theorem TakesWrite.of_kept {s w t : State} (h : TakesWrite s w) (hmem : t.mem = w.mem) (hlog : t.fbLog = w.fbLog) :
    TakesWrite s t := by
  obtain ⟨hv, hm, hl⟩ := h
  exact ⟨hv, hmem.trans hm, hlog.trans hl⟩

/-- All that one step can do to memory: nothing, another agent's write, or the take of the pending write (R51, R53). -/
theorem step_mem_cases {s t : State} (h : step s = .next t) :
    t.mem = s.mem
      ∨ (∃ w rest, s.inputs = .agentWrite w :: rest ∧ t.mem = memWrite w s.mem)
      ∨ TakesWrite s t := by
  cases hr : headResets s with
  | true =>
    obtain ⟨u, px, fb, hu, -, rfl⟩ := step_resets s t h hr
    have hmem : u.mem = s.mem := by rw [hu]
    rcases resetClock_mem_cases px fb u with hkeep | htake
    · exact .inl (hkeep.trans hmem)
    · exact .inr (.inr (htake.of_same (by rw [hu]) (by rw [hu]) (by rw [hu]) hmem (by rw [hu])))
  | false =>
    obtain ⟨u, v, w, hu, haccess, htake, hbusy, hend⟩ := step_shape s t h hr
    have hvmem : v.mem = s.mem := by
      rcases haccess with ⟨rfl, -⟩ | ⟨x, -, rfl⟩
      · rw [hu]
      · rw [hostAccess_mem, hu]
    have hw : w.mem = s.mem ∨ TakesWrite s w := by
      rcases htake with rfl | ⟨px, fb, hwv⟩
      · exact .inl hvmem
      rcases hbusy with rfl | hrunning
      · exact .inl hvmem
      rcases takeIfReady_mem_cases px fb v with hkeep | htake
      · exact .inl (hwv ▸ hkeep.trans hvmem)
      refine .inr (hwv ▸ ?_)
      rcases haccess with ⟨rfl, -⟩ | ⟨x, hx, rfl⟩
      · exact htake.of_same (by rw [hu]) (by rw [hu]) (by rw [hu]) hvmem (by rw [hu])
      · have hs : s.seq = .expand := (busy_iff s).mp (hrunning.resolve_left (by simp [hx]))
        have kept := hostBusy (htW x) (htSz x) (htOff x) (htData x) u (by rw [hu]; exact hs)
        exact htake.of_same (by rw [kept.pend, hu]) (by rw [kept.latch, hu]) (by rw [kept.fb, hu]) hvmem
          (by rw [kept.fbLog, hu])
    rcases hend with rfl | rfl | ⟨-, x, rest, hin, rfl⟩ | ⟨-, a, size, rfl⟩
    · exact hw.imp_right .inr
    · obtain ⟨-, hlog, hmem⟩ := block_out w
      exact hw.imp hmem.trans fun htake => .inr (htake.of_kept hmem hlog)
    · exact .inr (.inl ⟨x, rest, hin, rfl⟩)
    · exact hw.imp id fun htake => .inr (htake.of_kept rfl rfl)

/-- A write that changes what an address reads as covers it. -/
theorem covers_of_memWrite_read_ne {w : FbWrite} {m : Memory} {a : Nat} (h : (memWrite w m).read a ≠ m.read a) :
    w.covers a = true := by
  by_contra hc
  exact h (memWrite_read_frame w m a (by simpa using hc))

/-- Settles O48: the three cases of `step_mem_cases`, and a write changes only what it covers. -/
theorem memoryChangesOnlyByTakesAndAgents : Obligations.MemoryChangesOnlyByTakesAndAgents := by
  unfold Obligations.MemoryChangesOnlyByTakesAndAgents
  intro s t a h hchange
  rcases step_mem_cases h with hkeep | ⟨w, rest, hin, hmem⟩ | ⟨hvalid, hmem, hlog⟩
  · exact absurd (by rw [hkeep]) hchange
  · exact .inl ⟨w, rest, hin, covers_of_memWrite_read_ne (hmem ▸ hchange)⟩
  · exact .inr ⟨hvalid, covers_of_memWrite_read_ne (hmem ▸ hchange), hlog⟩

/-! ### How BUSY falls -/

/-- A bit step keeps SEQ (R131). -/
theorem bitStep_seq (s : State) : (bitStep s).seq = s.seq := by
  rcases bitStep_cases s with ⟨_, _, e⟩ | ⟨_, e⟩ <;> rw [e]
  · rcases offer_cases s.row s.col (shiftBit s) with ⟨_, e⟩ | ⟨_, w, _, e⟩ <;> rw [e] <;> rfl
  · rfl

/-- The block's own step ends a command only as its completion (R135). -/
theorem blockStep_of_seq_idle {s : State} (hs : s.seq = .expand) (h : (blockStep s).seq = .idle) :
    s.pend = false ∧ s.bidx = 64 ∧ blockStep s = completeStep s := by
  rcases blockStep_cases s with ⟨_, e⟩ | ⟨_, hc, e⟩ | ⟨_, _, e⟩
  · rw [e, bitStep_seq, hs] at h
    cases h
  · obtain ⟨_, hpend, hbidx⟩ := (completeEnabled_iff s).mp hc
    exact ⟨hpend, hbidx, e⟩
  · rw [e, hs] at h
    cases h

/-- Outside reset a step that ends a command ends in its completion, with all 64 bits tested and nothing pending (R135). -/
theorem step_completes {s t : State} (hs : s.seq = .expand) (hr : headResets s = false) (h : step s = .next t)
    (ht : t.seq = .idle) : ∃ w, w.pend = false ∧ w.bidx = 64 ∧ t = completeStep w := by
  obtain ⟨u, v, w, hu, haccess, htake, -, hend⟩ := step_shape s t h hr
  have huseq : u.seq = .expand := by rw [hu]; exact hs
  have hvseq : v.seq = .expand := by
    rcases haccess with ⟨rfl, -⟩ | ⟨x, -, rfl⟩
    · exact huseq
    · exact (hostBusy _ _ _ _ u huseq).seq.trans huseq
  have hwseq : w.seq = .expand := by
    rcases htake with rfl | ⟨px, fb, rfl⟩
    · exact hvseq
    · exact (take_seq px fb v).trans hvseq
  have running : t.seq = w.seq → False := fun e => by simp [e, hwseq] at ht
  rcases hend with rfl | rfl | ⟨-, x, rest, -, rfl⟩ | ⟨-, a, size, rfl⟩
  · exact (running rfl).elim
  · obtain ⟨hpend, hbidx, e⟩ := blockStep_of_seq_idle hwseq ht
    exact ⟨w, hpend, hbidx, e⟩
  · exact (running rfl).elim
  · exact (running rfl).elim

/-- Settles O50: a reset edge leaves DONE 0, every other step that ends a command is its completion (`step_completes`). -/
theorem busyFallsOnlyAtCompletionOrReset : Obligations.BusyFallsOnlyAtCompletionOrReset := by
  unfold Obligations.BusyFallsOnlyAtCompletionOrReset
  intro s t hs h ht
  cases hr : headResets s with
  | true =>
    obtain ⟨u, px, fb, -, -, rfl⟩ := step_resets s t h hr
    exact .inl ⟨rfl, by rw [resetClock_regs]; rfl⟩
  | false =>
    have hlatch := step_latch_of_expand hs hr h
    obtain ⟨w, hpend, hbidx, rfl⟩ := step_completes hs hr h ht
    exact .inr ⟨rfl, hpend, hbidx, hlatch⟩

end Sys2Proof.Machine
end

section
/-! PROOFS. Other agents: which of their writes are refused, and what they read of an element before and after its
take. -/

namespace Sys2Proof.Machine

/-! ### The buffer of a running command (R62) -/

/-- The distance of an address above a base, modulo 2^32, as an integer (R151). -/
theorem toNat_sub_eq_emod (a base : Word) : ((a - base).toNat : Int) = ((a.toNat : Int) + 2 ^ 32 - base.toNat) % 2 ^ 32 := by
  have := base.isLt
  rw [BitVec.toNat_sub]
  omega

/-- The buffer of a buffer sink with a positive width and height (R31, R52). -/
theorem bufferBytes_of_pos {l : Latch} (hk : l.sink ≠ .cb) (hw : 0 < l.w.toInt) (hh : 0 < l.h.toInt) :
    bufferBytes l = l.w.toInt * l.h.toInt * (if l.sink = .mono then 1 else 2) := by
  unfold bufferBytes
  rw [if_pos ⟨hw, hh⟩]
  cases hs : l.sink with
  | cb => exact absurd hs hk
  | mono => rfl
  | rgb565 => rfl

/-- Only a buffer sink with a positive width and height has a buffer. -/
theorem of_bufferBytes_pos {l : Latch} (h : 0 < bufferBytes l) : l.sink ≠ .cb ∧ 0 < l.w.toInt ∧ 0 < l.h.toInt := by
  unfold bufferBytes at h
  split at h
  · next hwh => exact ⟨fun hk => by simp [hk, Sink.bytes] at h, hwh⟩
  · exact absurd h (lt_irrefl 0)

/-- A byte is a target while a command runs and its distance above the base is below the size of the buffer. -/
theorem drawTargets_iff (a : Word) (s : State) :
    drawTargets a s = true ↔
      s.seq = .expand ∧ ((a.toNat : Int) + 2 ^ 32 - s.latch.base.toNat) % 2 ^ 32 < bufferBytes s.latch := by
  rw [drawTargets, Bool.and_eq_true, busy_iff, inBuffer, decide_eq_true_iff, toNat_sub_eq_emod]

/-- A write targets the buffer when one of the bytes it covers does. -/
theorem writeTargets_iff (w : FbWrite) (s : State) :
    writeTargets w s = true ↔
      s.seq = .expand ∧ ∃ a : Nat, w.covers a = true
        ∧ ((a : Int) + 2 ^ 32 - s.latch.base.toNat) % 2 ^ 32 < bufferBytes s.latch := by
  simp only [writeTargets, Bool.or_eq_true, Bool.and_eq_true, bne_iff_ne, size_ne_zero_iff, drawTargets_iff, w.covers_iff]
  constructor
  · rintro (⟨hs, hlt⟩ | ⟨hz, hs, hlt⟩)
    · exact ⟨hs, _, .inl rfl, hlt⟩
    · exact ⟨hs, _, .inr ⟨hz, rfl⟩, hlt⟩
  · rintro ⟨hs, a, rfl | ⟨hz, rfl⟩, hlt⟩
    · exact .inl ⟨hs, hlt⟩
    · exact .inr ⟨hz, hs, hlt⟩

/-! ### Another agent's access as one step -/

/-- Another agent's write is refused on a target of the running command, and otherwise stores its bytes (R56, R62). -/
theorem step_agentWrite {s : State} {w : FbWrite} {rest : List Input} (hin : s.inputs = .agentWrite w :: rest) :
    step s = if writeTargets w s then .refused .concurrentBufferWrite
      else .next { s with inputs := rest, mem := memWrite w s.mem } := step_cons s _ rest hin

/-- Another agent's read answers at once (R56). -/
theorem step_agentRead {s : State} {a : Word} {size : BitVec 1} {rest : List Input}
    (hin : s.inputs = .agentRead a size :: rest) : step s = .next (agentRead a size (nextInputs rest s)) :=
  step_cons s _ rest hin

/-- Settles O54: `writeTargets_iff` tells the two clauses apart, `step_agentWrite` says what each write does. -/
theorem concurrentBufferWritesAreRefused : Obligations.ConcurrentBufferWritesAreRefused := by
  unfold Obligations.ConcurrentBufferWritesAreRefused
  intro s w rest hin
  refine ⟨fun hs hk hw hh ⟨a, hcov, hlt⟩ => ?_, fun houtside => ?_⟩
  · rw [← bufferBytes_of_pos hk hw hh] at hlt
    rw [step_agentWrite hin, if_pos ((writeTargets_iff w s).mpr ⟨hs, a, hcov, hlt⟩)]
  · have hfree : ¬ writeTargets w s = true := by
      intro htarget
      obtain ⟨hs, a, hcov, hlt⟩ := (writeTargets_iff w s).mp htarget
      have hpos : 0 < bufferBytes s.latch := lt_of_le_of_lt (Int.emod_nonneg _ (by norm_num)) hlt
      obtain ⟨hk, hw, hh⟩ := of_bufferBytes_pos hpos
      rw [bufferBytes_of_pos hk hw hh] at hlt
      rcases houtside with hidle | hcb | hw' | hh' | hout
      · simp [hs] at hidle
      · exact hk hcb
      · exact absurd hw (not_lt.mpr hw')
      · exact absurd hh (not_lt.mpr hh')
      · exact absurd hlt (not_lt.mpr (hout a hcov))
    rw [step_agentWrite hin, if_neg hfree]
    exact ⟨_, rfl, rfl, memWrite_read_lanes w s.mem⟩

/-! ### Reading an element -/

/-- The ready of a buffer sink is that of the framebuffer port (R134). -/
theorem sinkReady_of_ne_cb (px fb : Bool) {s : State} (hk : s.latch.sink ≠ .cb) : sinkReady px fb s = fb := by
  unfold sinkReady
  cases hs : s.latch.sink with
  | cb => exact absurd hs hk
  | mono => rfl
  | rgb565 => rfl

/-- The framebuffer's ready takes a valid offer: the write is performed, recorded and counted (R16, R134). -/
theorem takeIfReady_of_fbValid (px : Bool) {s : State} (hv : s.fbValid = true) :
    takeIfReady px true s = { countTake s with mem := memWrite s.fb s.mem, fbLog := s.fbLog ++ [s.fb] } := by
  obtain ⟨hp, hk⟩ := (fbValid_iff s).mp hv
  have htake : takeIfReady px true s = takeStep s := by simp [takeIfReady, hp, sinkReady_of_ne_cb px true hk]
  rcases takeStep_cases s with ⟨hcb, _⟩ | ⟨_, e⟩
  · exact absurd hcb hk
  · exact htake.trans e

/-- The step that raises the framebuffer's ready on a valid offer. -/
theorem step_fbReady {s : State} {rest : List Input} (hv : s.fbValid = true) (hin : s.inputs = .fbReady :: rest) :
    step s = .next
      { countTake (nextInputs rest s) with mem := memWrite s.fb s.mem, fbLog := s.fbLog ++ [s.fb] } :=
  calc step s = .next (takeIfReady false true (nextInputs rest s)) := step_cons s _ rest hin
    _ = _ := congrArg Host.Outcome.next (takeIfReady_of_fbValid false hv)

/-- What an agent reads of an element where the platform's duties hold: every byte as memory records it, or as it was
before anything wrote it (R56, R60, R64). -/
theorem agentRead_element_fixed (w : FbWrite) (s : State) (hvis : Config.fbVisibleOnTake = true)
    (hex : ∀ a, w.covers a = true → Config.memExists a = true) :
    (agentRead w.addr w.size s).agentData =
      lanes (if w.size = 0 then 0 else (s.mem.read (w.addr + 1).toNat).getD (Config.fbInit (w.addr + 1).toNat))
        ((s.mem.read w.addr.toNat).getD (Config.fbInit w.addr.toNat)) := by
  have hlow := agentByte_fixed w.addr s.freeCount s hvis (hex _ w.covers_addr)
  show lanes _ _ = _
  rw [hlow]
  split
  · rfl
  · next hsize =>
    have hcov := w.covers_addr_succ ((size_ne_zero_iff w.size).mp hsize)
    rw [agentByte_fixed (w.addr + 1) (s.freeCount + 1) s hvis (hex _ hcov)]

/-- What an agent reads of an element just written where the platform's duties hold: all of it (R56, R60). -/
theorem agentRead_element_written {w : FbWrite} {m : Memory} {s : State} (hmem : s.mem = memWrite w m)
    (hvis : Config.fbVisibleOnTake = true) (hex : ∀ a, w.covers a = true → Config.memExists a = true) :
    (agentRead w.addr w.size s).agentData = if w.size = 0 then lanes 0 (w.data.extractLsb' 0 8) else w.data := by
  have hlow : s.mem.read w.addr.toNat = some (w.data.extractLsb' 0 8) := by
    rw [hmem, memWrite_read_lanes, if_pos rfl]
  rw [agentRead_element_fixed w s hvis hex, hlow, Option.getD_some]
  split
  · rfl
  · next hsize =>
    have hhigh : s.mem.read (w.addr + 1).toNat = some (w.data.extractLsb' 8 8) := by
      rw [hmem, memWrite_read, if_pos ⟨hsize, rfl⟩]
    rw [hhigh, Option.getD_some, lanes_of_halves]

/-- An agent's read as one record, for the bytes it reads: it changes these and the counter of free values alone. -/
theorem agentRead_eq_of_agentData {a : Word} {size : BitVec 1} {s : State} {d : BitVec 16}
    (h : (agentRead a size s).agentData = d) :
    agentRead a size s = { s with agentData := d, freeCount := s.freeCount + 2 } := by
  rw [← h]
  rfl

/-- The low lane of an agent's read is the byte at its address (R16). -/
theorem agentRead_low (a : Word) (size : BitVec 1) (s : State) :
    (agentRead a size s).agentData.extractLsb' 0 8 = agentByte a s.freeCount s := lanes_low _ _

/-- The high lane of an agent's two-byte read is the byte at the next address (R16). -/
theorem agentRead_high (a : Word) (s : State) :
    (agentRead a 1 s).agentData.extractLsb' 8 8 = agentByte (a + 1) (s.freeCount + 1) s := lanes_high _ _

/-- A byte that the last recorded write covers has been written by the block (R64). -/
theorem blockWrote_of_covers {w : FbWrite} {log : List FbWrite} {s : State} {a : Nat} (hlog : s.fbLog = log ++ [w])
    (h : w.covers a = true) : blockWrote a s = true := by
  rw [blockWrote, hlog, List.any_append, List.any_cons, h, Bool.true_or, Bool.or_true]

/-- Settles O55: `step_fbReady` and `step_agentRead` give the steps; with the duties the element is read as written or as
it was, and where one fails the block's bytes read free values. -/
theorem takenWritesAreVisible : Obligations.TakenWritesAreVisible := by
  unfold Obligations.TakenWritesAreVisible
  refine ⟨fun s rest hv hin => ?_, fun s rest hv hin hvis hex => ?_⟩
  · refine ⟨_, _, step_fbReady hv hin, step_agentRead rfl, rfl, rfl, agentRead_element_written rfl, fun hfail => ?_,
      fun hsize hfail => ?_⟩
    · rw [agentRead_low]
      exact agentByte_free _ _ _ (blockWrote_of_covers rfl s.fb.covers_addr) hfail
    · rw [hsize, agentRead_high]
      exact agentByte_free _ _ _ (blockWrote_of_covers rfl (s.fb.covers_addr_succ hsize)) hfail
  · exact ⟨_, step_agentRead hin,
      agentRead_eq_of_agentData (agentRead_element_fixed s.fb (nextInputs rest s) hvis hex)⟩

end Sys2Proof.Machine
end

section
/-! PROOFS. The decoder and the encoder: which command words are legal, what a transaction decodes to, and the two
round trips. -/

namespace Sys2Proof

/-! ### Legal command words (R75, R77) -/

/-- Every word of the list is the word of a command (R75). -/
theorem exists_encodeCommand_of_legal {w : Word} (h : w ∈ legalCommandWords) : ∃ c, w = encodeCommand c := by
  simp only [legalCommandWords, List.mem_cons, List.not_mem_nil, or_false] at h
  rcases h with h | h | h | h | h | h | h | h
  · exact ⟨.nop, h⟩
  · exact ⟨.lookup, h⟩
  · exact ⟨.draw .cb false, h⟩
  · exact ⟨.draw .cb true, h⟩
  · exact ⟨.draw .mono false, h⟩
  · exact ⟨.draw .mono true, h⟩
  · exact ⟨.draw .rgb565 false, h⟩
  · exact ⟨.draw .rgb565 true, h⟩

/-- The words that decode are those of the list (R75). -/
theorem exists_decodeCommand_iff (w : Word) : (∃ c, decodeCommand w = .ok c) ↔ w ∈ legalCommandWords := by
  simp only [decodeCommand_eq_ok]
  refine ⟨?_, exists_encodeCommand_of_legal⟩
  rintro ⟨c, rfl⟩
  exact encodeCommand_legal c

/-- The words that are rejected are the others (R77). -/
theorem decodeCommand_rejected_iff (w : Word) :
    (∃ why, decodeCommand w = .rejected why) ↔ w ∉ legalCommandWords := by
  rw [← exists_decodeCommand_iff]
  cases decodeCommand w <;> simp

/-- The words of the list by their fields: RSV is 0, OP is at most 4, and G = 1 stands with a DRAW alone (R73, R74). -/
theorem legal_iff_fields (w : Word) :
    w ∈ legalCommandWords ↔ w >>> 5 = 0 ∧ w.toNat % 16 < 5 ∧ w ≠ 0x10 ∧ w ≠ 0x11 := by
  simp only [legalCommandWords, List.mem_cons, List.not_mem_nil, or_false, ne_eq, BitVec.ofNat_eq_ofNat,
    ← BitVec.toNat_inj, BitVec.toNat_ofNat, BitVec.toNat_ushiftRight, Nat.shiftRight_eq_div_pow]
  omega

/-! ### What a transaction decodes to (R70 to R72) -/

/-- A `wr` is well formed unless it spells a command (R70). -/
theorem wellFormed_wr_iff (off : BitVec 7) (d : Word) :
    (Instr.wr off d).WellFormed ↔ (off = cmdOffset → d ∉ legalCommandWords) := by
  simp [Instr.WellFormed, Instr.wf, imp_iff_not_or]

/-- A word write is a command where it writes the command's word to CMD, and `wr` everywhere else (R70). -/
theorem decodeWrite_cases (off : BitVec 7) (d : Word) :
    (∃ c, off = cmdOffset ∧ d = encodeCommand c ∧ decodeWrite off d = c.toInstr)
      ∨ ((Instr.wr off d).WellFormed ∧ decodeWrite off d = .wr off d) := by
  rw [wellFormed_wr_iff, decodeWrite]
  split_ifs with ho
  · cases hd : decodeCommand d with
    | ok c => exact .inl ⟨c, ho, (decodeCommand_eq_ok d c).mp hd, rfl⟩
    | rejected why => exact .inr ⟨fun _ => (decodeCommand_rejected_iff d).mp ⟨why, hd⟩, rfl⟩
  · exact .inr ⟨fun h => absurd h ho, rfl⟩

/-- A command's word written to CMD is read as the command (R70). -/
theorem decodeWrite_of_command {w : Word} {c : Command} (h : decodeCommand w = .ok c) :
    decodeWrite cmdOffset w = c.toInstr := by
  rw [decodeWrite, if_pos rfl, h]

/-- A well-formed `wr` is read as itself. -/
theorem decodeWrite_of_wellFormed {off : BitVec 7} {d : Word} (h : (Instr.wr off d).WellFormed) :
    decodeWrite off d = .wr off d := by
  rcases decodeWrite_cases off d with ⟨c, rfl, rfl, _⟩ | ⟨_, e⟩
  · exact absurd (encodeCommand_legal c) ((wellFormed_wr_iff _ _).mp h rfl)
  · exact e

/-- Only a word access decodes, to its write or its read (R72). -/
theorem decodeHt_eq_ok_iff (t : HT) (i : Instr) :
    decodeHt t = .ok i ↔ htSz t = 2 ∧ (if htW t then decodeWrite (htOff t) (htData t) else .rd (htOff t)) = i := by
  by_cases hsz : htSz t = 2
  · simp [decodeHt_word t hsz, hsz]
  · obtain ⟨why, hr⟩ := decodeHt_other t hsz
    simp only [hr, hsz, false_and, reduceCtorEq]

/-- A packed word write decodes as the write of its fields. -/
theorem decodeHt_packHt_write (off : BitVec 7) (d : Word) :
    decodeHt (packHt true 2 off d) = .ok (decodeWrite off d) := by
  simp [decodeHt_eq_ok_iff]

/-- A packed word read decodes as `rd`, whatever its DATA. -/
theorem decodeHt_packHt_read (off : BitVec 7) (d : Word) : decodeHt (packHt false 2 off d) = .ok (.rd off) := by
  simp [decodeHt_eq_ok_iff]

/-- The transaction that carries a command's word decodes to the command (R70). -/
theorem decodeHt_commandHt {w : Word} {c : Command} (h : decodeCommand w = .ok c) :
    decodeHt (commandHt w) = .ok c.toInstr := by
  rw [commandHt, decodeHt_packHt_write, decodeWrite_of_command h]

/-- The three kinds of instruction: a command, a write, a read. -/
theorem instr_cases (i : Instr) : (∃ c : Command, i = c.toInstr) ∨ (∃ off d, i = .wr off d) ∨ ∃ off, i = .rd off := by
  cases i with
  | nop => exact .inl ⟨.nop, rfl⟩
  | lookup => exact .inl ⟨.lookup, rfl⟩
  | drawCb => exact .inl ⟨.draw .cb false, rfl⟩
  | drawCbG => exact .inl ⟨.draw .cb true, rfl⟩
  | drawMono => exact .inl ⟨.draw .mono false, rfl⟩
  | drawMonoG => exact .inl ⟨.draw .mono true, rfl⟩
  | draw565 => exact .inl ⟨.draw .rgb565 false, rfl⟩
  | draw565G => exact .inl ⟨.draw .rgb565 true, rfl⟩
  | wr off d => exact .inr (.inl ⟨off, d, rfl⟩)
  | rd off => exact .inr (.inr ⟨off, rfl⟩)

/-! ### The round trips -/

/-- Settles O4: a command by `decodeCommand_encode`, a `wr` because it is well formed, a `rd` always. -/
theorem decodeOfEncodeIsTheInstruction : Obligations.DecodeOfEncodeIsTheInstruction := by
  unfold Obligations.DecodeOfEncodeIsTheInstruction
  intro i hwf
  rcases instr_cases i with ⟨c, rfl⟩ | ⟨off, d, rfl⟩ | ⟨off, rfl⟩
  · rw [encode_toInstr]
    exact decodeHt_commandHt (decodeCommand_encode c)
  · rw [encode, decodeHt_packHt_write, decodeWrite_of_wellFormed hwf]
  · exact decodeHt_packHt_read off 0

/-- What a word write decodes to is well formed, and encodes to the same write. -/
theorem encode_decodeWrite (off : BitVec 7) (d : Word) :
    (decodeWrite off d).WellFormed ∧ encode (decodeWrite off d) = packHt true 2 off d := by
  rcases decodeWrite_cases off d with ⟨c, rfl, rfl, e⟩ | ⟨hwf, e⟩ <;> rw [e]
  · exact ⟨toInstr_wf c, encode_toInstr c⟩
  · exact ⟨hwf, rfl⟩

/-- Settles O5: a write by `encode_decodeWrite` and the packing of its fields, a read at once. -/
theorem encodeOfDecodeIsTheTransaction : Obligations.EncodeOfDecodeIsTheTransaction := by
  unfold Obligations.EncodeOfDecodeIsTheTransaction
  intro t i h
  obtain ⟨hsz, rfl⟩ := (decodeHt_eq_ok_iff t i).mp h
  cases hw : htW t with
  | true =>
    obtain ⟨hwf, henc⟩ := encode_decodeWrite (htOff t) (htData t)
    have hfields : packHt true 2 (htOff t) (htData t) = t := by rw [← hw, ← hsz, packHt_fields]
    exact ⟨hwf, fun _ => henc.trans hfields, nofun⟩
  | false =>
    rw [hsz]
    exact ⟨rfl, nofun, fun _ => rfl⟩

/-- Settles O7: each word is evaluated by the decoder. -/
theorem wordsOfTheSpecDecode : Obligations.WordsOfTheSpecDecode := by
  unfold Obligations.WordsOfTheSpecDecode
  decide

/-! ### Table words (R70, R71) -/

theorem Decoded.toOption_eq_some_iff {α : Type} (d : Decoded α) (a : α) : d.toOption = some a ↔ d = .ok a := by
  cases d <;> simp [Decoded.toOption]

/-- The transaction that presents a table word decodes to the instruction of the word. -/
theorem decodeHt_tableHt {nbits w : Nat} {i : Instr} (h : decodeTableWord nbits w = some i) :
    decodeHt (tableHt nbits w) = .ok i := by
  unfold decodeTableWord at h
  unfold tableHt
  split_ifs at h ⊢
  · obtain ⟨c, hc, rfl⟩ := Option.map_eq_some_iff.mp h
    exact decodeHt_commandHt ((Decoded.toOption_eq_some_iff _ c).mp hc)
  · exact (Decoded.toOption_eq_some_iff _ i).mp h

end Sys2Proof
end

section
/-! PROOFS. How a step runs a host transaction: the decoded instruction, a command word written to CMD, and the bus
error. -/

namespace Sys2Proof.Machine

/-! ### The decoded instruction -/

/-- A transaction that decodes runs its instruction (R70). -/
theorem hostTransaction_of_decode {t : HT} {i : Instr} (h : decodeHt t = .ok i) (s : State) :
    hostTransaction t s = exec i s := by
  rw [hostTransaction, h]

/-- The step on a presented transaction is that transaction, at the state with the input used up (R90). -/
theorem step_host {s : State} {t : HT} {rest : List Input} (hin : s.inputs = .host t :: rest) :
    step s = hostTransaction t { s with inputs := rest } := step_cons s _ rest hin

/-- Settles O8: `step_host`, then `hostTransaction_of_decode`. -/
theorem stepRunsTheDecodedInstruction : Obligations.StepRunsTheDecodedInstruction := by
  unfold Obligations.StepRunsTheDecodedInstruction
  intro s t rest i hin hdecode
  rw [step_host hin, hostTransaction_of_decode hdecode]

/-- Settles O9: the presented transaction decodes to the word's instruction (`decodeHt_tableHt`). -/
theorem fetchedTableWordRuns : Obligations.FetchedTableWordRuns := by
  unfold Obligations.FetchedTableWordRuns
  intro s nbits w i h
  calc step (s.withFetchWord nbits w) = hostTransaction (tableHt nbits w) s := rfl
    _ = exec i s := hostTransaction_of_decode (decodeHt_tableHt h) s

/-! ### Command words written to CMD (R99) -/

/-- Settles O11: both sides present the command and answer 0, in reset and outside it. -/
theorem cmdWriteOfALegalWordIsTheCommand : Obligations.CmdWriteOfALegalWordIsTheCommand := by
  unfold Obligations.CmdWriteOfALegalWordIsTheCommand
  intro w c s h
  calc exec (.wr 0x0C w) s = .next (hostAccess true 2 cmdOffset w s) := rfl
    _ = .next (commandTransaction c s) := by rw [hostAccess_cmd, writeCmd_of_decode w c s h, commandTransaction_eq]
    _ = exec c.toInstr s := (exec_toInstr c s).symm

/-- Settles O6: the list and the fields both say what is rejected (`decodeCommand_rejected_iff`, `legal_iff_fields`), and
`writeCmd_illegal` gives the write. -/
theorem illegalWordsSetErrCmdOnly : Obligations.IllegalWordsSetErrCmdOnly := by
  unfold Obligations.IllegalWordsSetErrCmdOnly
  refine ⟨decodeCommand_rejected_iff, fun w => ?_, by decide, ?_⟩
  · rw [decodeCommand_rejected_iff, legal_iff_fields]
    simp only [not_and_or, not_lt, not_not, ne_eq]
  · rintro w s hrst hidle ⟨why, hw⟩
    calc exec (.wr cmdOffset w) s = .next (respond 0 false (writeCmd w s)) := exec_wr_cmd w s hrst
      _ = .next (respond 0 false (raise .cmd s)) := by rw [writeCmd_illegal w why s hidle hw]

/-! ### The bus error (R72, R78, R91) -/

/-- What is not admitted: another size than a word, or an offset with bit 0 or 1 set (R72). -/
theorem admitted_eq_false_iff (sz : BitVec 2) (off : BitVec 7) :
    admitted sz off = false ↔ sz ≠ 2 ∨ off.getLsbD 0 = true ∨ off.getLsbD 1 = true := by
  have hoff : ∀ o : BitVec 7, o.extractLsb' 0 2 ≠ 0 ↔ o.getLsbD 0 = true ∨ o.getLsbD 1 = true := by decide
  rw [← hoff, admitted, Bool.and_eq_false_iff, beq_eq_false_iff_ne, beq_eq_false_iff_ne]

/-- An access that is not admitted answers the bus error and changes nothing else (R91). -/
theorem hostAccess_of_not_admitted (w : Bool) {sz : BitVec 2} {off : BitVec 7} (d : Word) {s : State}
    (hrst : s.rst = false) (h : sz ≠ 2 ∨ off.getLsbD 0 = true ∨ off.getLsbD 1 = true) :
    hostAccess w sz off d s = respond 0 true s := by
  rw [hostAccess, if_neg (by simp [hrst]), if_pos (by rw [(admitted_eq_false_iff sz off).mpr h]; rfl)]

/-- Settles O18: `hostAccess_of_not_admitted`, for the transaction's fields and for the fields of `wr` and `rd`. -/
theorem busErrorsChangeNothing : Obligations.BusErrorsChangeNothing := by
  unfold Obligations.BusErrorsChangeNothing
  refine ⟨fun s t rest hrst hin h => ?_, fun s off d hrst h => ⟨?_, ?_⟩⟩
  · calc step s = .next (hostAccess (htW t) (htSz t) (htOff t) (htData t) { s with inputs := rest }) := by
          rw [step_host hin, hostTransaction_eq]
      _ = .next (respond 0 true { s with inputs := rest }) := by
          rw [hostAccess_of_not_admitted (htW t) (htData t) (by exact hrst) h]
  · exact congrArg Host.Outcome.next (hostAccess_of_not_admitted true d hrst (.inr h))
  · exact congrArg Host.Outcome.next (hostAccess_of_not_admitted false 0 hrst (.inr h))

end Sys2Proof.Machine
end

section
/-! PROOFS. The host's register window: a transaction as HostAccess of its fields, word reads and word writes of each
register. -/

namespace Sys2Proof.Machine

/-! ### Transactions and clock edges (R90, R91, R213) -/

/-- The host access of a transaction's fields is the one written out from R91. -/
theorem hostAccess_eq_accessOfFields (t : HT) (s : State) :
    hostAccess (htW t) (htSz t) (htOff t) (htData t) s = accessOfFields t s := by
  have notAdmitted : admitted (htSz t) (htOff t) = false ↔ htSz t ≠ 2 ∨ (htOff t).toNat % 4 ≠ 0 := by
    rw [← Bool.not_eq_true, admitted_iff, not_and_or]
  rw [accessOfFields, ← regNumber_div]
  rcases hostAccess_cases (htW t) (htSz t) (htOff t) (htData t) s with
    ⟨hrst, e⟩ | ⟨hrst, hadm, e⟩ | ⟨hrst, hadm, hw, e⟩ | ⟨hrst, hadm, hw, e⟩ <;> rw [e]
  · rw [if_pos hrst]; rfl
  · rw [if_neg (by simp [hrst]), if_pos (notAdmitted.mp hadm)]; rfl
  · rw [if_neg (by simp [hrst]), if_neg (by rw [← notAdmitted, hadm]; decide), if_pos hw]; rfl
  · rw [if_neg (by simp [hrst]), if_neg (by rw [← notAdmitted, hadm]; decide), if_neg (by simp [hw])]; rfl

/-- A rising edge outside reset: its access, where it presents one, then the take and the block's step of a command that
was running before it (R90, R213). -/
theorem step_clock {s : State} {txn : Option HT} {px fb : Bool} {rest : List Input}
    (hin : s.inputs = .clock { rst := false, txn := txn, pxReady := px, fbReady := fb } :: rest) :
    step s = .next (blockEdge s.busy px fb
      (txn.elim (driveRst false (nextInputs rest s)) fun t =>
        accessOfFields t (driveRst false (nextInputs rest s)))) := by
  rw [step_cons s _ rest hin]
  refine (clockEdge_eq _ _).trans ?_
  cases txn with
  | none => rfl
  | some t => exact congrArg (fun u => Host.Outcome.next (blockEdge s.busy px fb u)) (hostAccess_eq_accessOfFields t _)

/-- Settles O10: `hostAccess_eq_accessOfFields` for one transaction, `step_clock` for an edge. -/
theorem stepIsHostAccessOfTheFields : Obligations.StepIsHostAccessOfTheFields := by
  unfold Obligations.StepIsHostAccessOfTheFields
  refine ⟨fun s t rest hin => ?_, fun s txn px fb rest hin => ?_⟩
  · rw [step_host hin, hostTransaction_eq, hostAccess_eq_accessOfFields]
  · rw [step_clock hin, blockEdge]
    simp only [busy_iff]
    cases txn <;> rfl

/-! ### Word accesses by register number (R92, R93, R96, R98) -/

/-- A word read outside reset answers the register of its number (R91, R92). -/
theorem exec_rd_word {n : Nat} {s : State} (hrst : s.rst = false) (hn : n < 32) :
    exec (.rd (BitVec.ofNat 7 (4 * n))) s = .next (respond (readReg (BitVec.ofNat 5 n) s) false s) := by
  show Host.Outcome.next (hostAccess false 2 _ 0 s) = _
  rw [hostAccess, hrst, admitted_ofNat n hn, regNumber_ofNat n hn]
  rfl

/-- A word write outside reset writes the register of its number and answers 0 (R91). -/
theorem exec_wr_word {n : Nat} (d : Word) {s : State} (hrst : s.rst = false) (hn : n < 32) :
    exec (.wr (BitVec.ofNat 7 (4 * n)) d) s = .next (respond 0 false (writeReg (BitVec.ofNat 5 n) d s)) := by
  show Host.Outcome.next (hostAccess true 2 _ d s) = _
  rw [hostAccess, hrst, admitted_ofNat n hn, regNumber_ofNat n hn]
  rfl

/-- The two reserved ranges of the window hold no register (R21). -/
theorem regAt_reserved {n : Nat} (hn : n < 32) (h : 12 < n ∧ n < 16 ∨ 23 < n) : regAt (BitVec.ofNat 5 n) = none := by
  have reserved : ∀ m : Fin 32, 12 < m.val ∧ m.val < 16 ∨ 23 < m.val → regAt (BitVec.ofNat 5 m.val) = none := by
    decide
  exact reserved ⟨n, hn⟩ h

/-- A reserved offset reads 0 (R93). -/
theorem readReg_reserved {n : Nat} (s : State) (hn : n < 32) (h : 12 < n ∧ n < 16 ∨ 23 < n) :
    readReg (BitVec.ofNat 5 n) s = 0 := by
  rw [readReg, regAt_reserved hn h]

/-- A write to CAPS, EMIT_COUNT or a reserved offset is ignored (R96, R98). -/
theorem writeReg_ignored {n : Nat} (d : Word) (s : State) (hn : n < 32)
    (h : n = 0 ∨ n = 12 ∨ 12 < n ∧ n < 16 ∨ 23 < n) : writeReg (BitVec.ofNat 5 n) d s = s := by
  rcases h with rfl | rfl | hreserved
  · rfl
  · rfl
  · rw [writeReg, regAt_reserved hn hreserved]

/-- Settles O16: `exec_wr_word`, and `writeReg_ignored` leaves the state. -/
theorem ignoredWritesChangeNothing : Obligations.IgnoredWritesChangeNothing := by
  unfold Obligations.IgnoredWritesChangeNothing
  intro s d n hrst hn h
  rw [exec_wr_word d hrst hn, writeReg_ignored d s hn h]
  rfl

/-! ### Reads (R92, R94) -/

/-- The offset of row `r` of the glyph (R83). -/
theorem regOffset_glyph (r : Fin 8) : regOffset (.glyph r) = BitVec.ofNat 7 (0x40 + 4 * r.val) := by
  revert r
  decide

/-- CTRL reads as its two bits, with zeros above (R23, R92). -/
theorem readNamed_ctrl_getLsbD (s : State) (j : Nat) : (readNamed .ctrl s).getLsbD j = s.regs.ctrl.getLsbD j := by
  rw [readNamed, BitVec.getLsbD_setWidth]
  by_cases hj : j < 32
  · simp [hj]
  · simp [BitVec.getLsbD_of_ge s.regs.ctrl j (by omega)]

/-- Settles O13: `exec_rd_named` for the registers, CTRL and STATUS bit by bit, and `readReg_reserved` for the reserved
offsets. -/
theorem readsOfNamedRegisters : Obligations.ReadsOfNamedRegisters := by
  unfold Obligations.ReadsOfNamedRegisters
  intro s hrst
  have read (r : Reg) := exec_rd_named r s hrst
  refine ⟨read .caps, ⟨_, read .ctrl, readNamed_ctrl_getLsbD s 0, readNamed_ctrl_getLsbD s 1, fun j hj => ?_⟩,
    ⟨_, read .status, ?_, statusWord_getLsbD s 1, statusWord_getLsbD s 2, statusWord_getLsbD s 3,
      statusWord_getLsbD s 4, fun j hj => ?_⟩,
    read .cmd, read .code, read .orgX, read .orgY, read .color, read .tag, read .fbBase, read .fbW, read .fbH,
    ⟨_, read .emitCount, BitVec.toNat_setWidth_of_le (by decide)⟩,
    fun r => ⟨_, regOffset_glyph r ▸ read (.glyph r), BitVec.toNat_setWidth_of_le (by decide)⟩, fun n hn h => ?_⟩
  · rw [readNamed_ctrl_getLsbD, BitVec.getLsbD_of_ge _ j hj]
  · show (statusWord s).getLsbD 0 = true ↔ _
    rw [statusWord_getLsbD]
    exact bne_iff_ne
  · obtain ⟨k, rfl⟩ := Nat.exists_eq_add_of_le' hj
    exact statusWord_getLsbD s (k + 5)
  · rw [exec_rd_word hrst hn, readReg_reserved s hn h]
    rfl

/-- The last response is no register: no read sees it (R14, R92). -/
theorem readNamed_respond (r : Reg) (d : Word) (e : Bool) (s : State) :
    readNamed r (respond d e s) = readNamed r s := by
  cases r <;> rfl

/-- No register number reads the last response (R14, R92). -/
theorem readReg_respond (n : BitVec 5) (d : Word) (e : Bool) (s : State) :
    readReg n (respond d e s) = readReg n s := by
  unfold readReg
  cases regAt n with
  | none => rfl
  | some r => exact readNamed_respond r d e s

/-- A read changes the response alone (R94). -/
theorem hostAccess_read (sz : BitVec 2) (off : BitVec 7) (data : Word) (s : State) :
    ∃ d e, hostAccess false sz off data s = respond d e s := by
  rcases hostAccess_cases false sz off data s with ⟨_, e⟩ | ⟨_, _, e⟩ | ⟨_, _, _, e⟩ | ⟨_, _, hw, _⟩
  · exact ⟨_, _, e⟩
  · exact ⟨_, _, e⟩
  · exact ⟨_, _, e⟩
  · cases hw

/-- A read does not see the response before it (R94). -/
theorem hostAccess_read_respond (sz : BitVec 2) (off : BitVec 7) (data d : Word) (e : Bool) (s : State) :
    hostAccess false sz off data (respond d e s) = hostAccess false sz off data s := by
  simp only [hostAccess, respond_rst, readReg_respond, Bool.false_eq_true, if_false]
  split_ifs <;> rfl

/-- Settles O14: `hostAccess_read`, and `hostAccess_read_respond` for the read repeated. -/
theorem readsHaveNoSideEffects : Obligations.ReadsHaveNoSideEffects := by
  unfold Obligations.ReadsHaveNoSideEffects
  intro off s
  obtain ⟨d, e, h⟩ := hostAccess_read 2 off 0 s
  exact ⟨d, e, congrArg Host.Outcome.next h,
    fun d' e' => congrArg Host.Outcome.next ((hostAccess_read_respond 2 off 0 d' e' s).trans h)⟩

/-! ### Writes of the read-write registers (R95) -/

/-- Settles O15: `exec_wr_named` for each register; CTRL and GLYPHr keep the low bits, and the other rows stay. -/
theorem writesOfReadWriteRegisters : Obligations.WritesOfReadWriteRegisters := by
  unfold Obligations.WritesOfReadWriteRegisters
  intro s d hrst
  have write (r : Reg) := exec_wr_named r d s hrst
  refine ⟨⟨d.extractLsb' 0 2, BitVec.extractLsb'_toNat .., write .ctrl⟩, write .code, write .orgX, write .orgY,
    write .color, write .tag, write .fbBase, write .fbW, write .fbH, fun r =>
      ⟨_, regOffset_glyph r ▸ write (.glyph r), ?_, fun q hq => setRow_row_other _ _ _ _ hq⟩⟩
  rw [setRow_row_same]
  exact BitVec.extractLsb'_toNat ..

/-! ### The STATUS write (R97) -/

/-- The W1C write clears the bits written as 1 and changes nothing else (R97). -/
theorem clearStatus_eq (d : Word) (s : State) :
    clearStatus d s = { s with
      regs := { s.regs with
        done := if d.getLsbD 1 then false else s.regs.done
        errCmd := if d.getLsbD 2 then false else s.regs.errCmd
        errBusy := if d.getLsbD 3 then false else s.regs.errBusy
        errAlign := if d.getLsbD 4 then false else s.regs.errAlign } } := by
  have clear (x b : Bool) : (x && !b) = if b then false else x := by cases b <;> simp
  simp only [clearStatus, clear]

/-- A ready input leaves no output pending where there was none or its ready is raised (R134). -/
theorem takeIfReady_pend {px fb : Bool} {s : State} (h : s.pend = false ∨ sinkReady px fb s = true) :
    (takeIfReady px fb s).pend = false := by
  rcases takeIfReady_cases px fb s with ⟨_, _, e⟩ | ⟨hheld, e⟩ <;> rw [e]
  · rcases takeStep_cases s with ⟨_, e⟩ | ⟨_, e⟩ <;> rw [e] <;> rfl
  · exact h.elim id fun hready => hheld.resolve_right (by simp [hready])

/-- An edge with all 64 bits tested and its last output, if any, taken completes the command (R135, R213): DONE is set
after the access of the edge, and of the registers only EMIT_COUNT changes besides. -/
theorem blockEdge_completes {px fb : Bool} {s : State} (hs : s.seq = .expand) (hb : s.bidx = 64)
    (h : s.pend = false ∨ sinkReady px fb s = true) :
    ∃ n, (blockEdge true px fb s).regs = { s.regs with done := true, emitCount := n }
      ∧ (blockEdge true px fb s).seq = .idle := by
  have hseq := (take_seq px fb s).trans hs
  have hbidx := (take_bidx px fb s).trans hb
  obtain ⟨n, hregs⟩ := take_regs px fb s
  have hcomplete : blockEdge true px fb s = completeStep (takeIfReady px fb s) := by
    simp [blockEdge, blockStep, State.bitEnabled, State.completeEnabled, hseq, hbidx, takeIfReady_pend h]
  exact ⟨n, by rw [hcomplete, completeStep, hregs], by rw [hcomplete, completeStep_seq]⟩

/-- A rising edge outside reset at which the host writes STATUS: the clear first, then the block's part (R97, R213). -/
theorem step_clock_statusWrite {s : State} {d : Word} {px fb : Bool} {rest : List Input}
    (hin : s.inputs = .clock { rst := false, txn := some (encode (.wr 0x08 d)), pxReady := px, fbReady := fb } :: rest) :
    step s = .next (blockEdge s.busy px fb
      (respond 0 false (clearStatus d (driveRst false (nextInputs rest s))))) := by
  rw [step_clock hin, Option.elim_some, ← hostAccess_eq_accessOfFields]
  exact congrArg (fun u => Host.Outcome.next (blockEdge s.busy px fb u)) (hostAccess_asmWr .status d _ rfl)

/-- Settles O17: `clearStatus_eq` for the write; at an edge `blockEdge_completes` comes after it. -/
theorem statusWriteClearsOnesAndASetWins : Obligations.StatusWriteClearsOnesAndASetWins := by
  unfold Obligations.StatusWriteClearsOnesAndASetWins
  refine ⟨fun s d hrst => ?_, fun s d px fb rest hin hs hb h => ?_⟩
  · calc exec (.wr 0x08 d) s = .next (respond 0 false (clearStatus d s)) := exec_wr_named .status d s hrst
      _ = _ := by rw [clearStatus_eq]; rfl
  · have hstep := step_clock_statusWrite hin
    rw [(busy_iff s).mpr hs] at hstep
    have cleared := clearStatus_eq d (driveRst false (nextInputs rest s))
    obtain ⟨n, hregs, hidle⟩ :=
      blockEdge_completes (s := respond 0 false (clearStatus d (driveRst false (nextInputs rest s)))) hs hb h
    refine ⟨_, hstep, ?_, hidle, ?_, ?_, ?_⟩ <;> rw [hregs]
    · exact congrArg (·.regs.errCmd) cleared
    · exact congrArg (·.regs.errBusy) cleared
    · exact congrArg (·.regs.errAlign) cleared

end Sys2Proof.Machine
end

section
/-! PROOFS. The command writes: what is discarded while BUSY, the accept of a DRAW command, and what no instruction's own
step touches. -/

namespace Sys2Proof.Machine

/-! ### Commands while BUSY, and the accept (R99) -/

/-- Settles O20: each of the eight is a command's instruction, and `presentCommand_busy` discards the command. -/
theorem commandsWhileBusyAreDiscarded : Obligations.CommandsWhileBusyAreDiscarded := by
  unfold Obligations.CommandsWhileBusyAreDiscarded
  intro s i hrst hs hi
  rcases instr_cases i with ⟨c, rfl⟩ | ⟨off, d, rfl⟩ | ⟨off, rfl⟩
  · rw [exec_command c s hrst, presentCommand_busy c s (by simp [hs])]
    rfl
  · simp at hi
  · simp at hi

/-- The accept of a DRAW command as R99 writes it, in one record. -/
theorem respond_acceptDraw (sink : Sink) (g : Bool) (s : State) :
    respond 0 false (acceptDraw sink g s) = acceptedDraw sink g s := by
  cases g <;> cases sink <;> rfl

/-- An aligned DRAW command of an idle block is accepted (R99, R125). -/
theorem exec_draw_accepted (sink : Sink) (g : Bool) {s : State} (hrst : s.rst = false) (hidle : s.seq = .idle)
    (hm : misaligned565 (.draw sink g) s = false) :
    exec (Command.draw sink g).toInstr s = .next (acceptedDraw sink g s) := by
  rw [exec_command _ s hrst, presentCommand_accept _ s hidle hm, ← respond_acceptDraw]
  rfl

/-- Settles O23: `exec_draw_accepted`; only DRAW_565 has an alignment to check. -/
theorem drawCommandsAreAccepted : Obligations.DrawCommandsAreAccepted := by
  unfold Obligations.DrawCommandsAreAccepted
  intro s hrst hidle
  refine ⟨exec_draw_accepted .cb false hrst hidle rfl, exec_draw_accepted .cb true hrst hidle rfl,
    exec_draw_accepted .mono false hrst hidle rfl, exec_draw_accepted .mono true hrst hidle rfl, fun heven => ?_⟩
  have aligned : s.regs.fbBase.getLsbD 0 = false := by simp [BitVec.getLsbD, heven]
  exact ⟨exec_draw_accepted .rgb565 false hrst hidle aligned, exec_draw_accepted .rgb565 true hrst hidle aligned⟩

/-! ### The frame of an instruction (R51, R91, R99) -/

/-- `t` differs from `s` in the block's registers, latch, sequencer and response alone: memory, the histories, the held
payloads, the reset pin and the platform's side are those of `s`. -/
def KeepsPlatform (s t : State) : Prop :=
  t = { s with
    regs := t.regs, latch := t.latch, seq := t.seq, bidx := t.bidx, rowsh := t.rowsh, pend := t.pend
    hRdata := t.hRdata, hErr := t.hErr }

theorem KeepsPlatform.respond {s t : State} (h : KeepsPlatform s t) (d : Word) (e : Bool) :
    KeepsPlatform s (respond d e t) := by
  rw [KeepsPlatform] at h
  rw [h]
  rfl

theorem raise_keepsPlatform (e : ErrCause) (s : State) : KeepsPlatform s (raise e s) := by
  cases e <;> rfl

theorem accept_keepsPlatform (c : Command) (s : State) : KeepsPlatform s (accept c s) := by
  rcases accept_cases c s with ⟨_, e⟩ | ⟨_, e⟩ | ⟨k, _, e⟩ | ⟨k, _, e⟩ <;> rw [e] <;> rfl

theorem presentCommand_keepsPlatform (c : Command) (s : State) : KeepsPlatform s (presentCommand c s) := by
  rcases presentCommand_cases c s with ⟨_, e⟩ | ⟨_, _, e⟩ | ⟨_, _, e⟩ <;> rw [e]
  · exact raise_keepsPlatform .busy s
  · exact raise_keepsPlatform .align s
  · exact accept_keepsPlatform c s

theorem writeCmd_keepsPlatform (w : Word) (s : State) : KeepsPlatform s (writeCmd w s) := by
  rcases writeCmd_cases w s with ⟨_, e⟩ | ⟨_, _, e⟩ | ⟨_, c, _, _, e⟩ | ⟨_, c, _, _, e⟩ <;> rw [e]
  · exact raise_keepsPlatform .busy s
  · exact raise_keepsPlatform .cmd s
  · exact raise_keepsPlatform .align s
  · exact accept_keepsPlatform c s

theorem writeReg_keepsPlatform (n : BitVec 5) (d : Word) (s : State) : KeepsPlatform s (writeReg n d s) := by
  rcases writeReg_cases n d s with ⟨_, e⟩ | ⟨r, _, e⟩ <;> rw [e]
  · rfl
  · cases r with
    | cmd => exact writeCmd_keepsPlatform d s
    | _ => rfl

theorem hostAccess_keepsPlatform (w : Bool) (sz : BitVec 2) (off : BitVec 7) (d : Word) (s : State) :
    KeepsPlatform s (hostAccess w sz off d s) := by
  rcases hostAccess_cases w sz off d s with ⟨_, e⟩ | ⟨_, _, e⟩ | ⟨_, _, _, e⟩ | ⟨_, _, _, e⟩ <;> rw [e]
  · rfl
  · rfl
  · rfl
  · exact (writeReg_keepsPlatform (regNumber off) d s).respond 0 false

theorem commandTransaction_keepsPlatform (c : Command) (s : State) : KeepsPlatform s (commandTransaction c s) := by
  rw [commandTransaction_eq]
  split
  · rfl
  · exact (presentCommand_keepsPlatform c s).respond 0 false

/-- An instruction is a command's transaction or a host access, and neither leaves the block (R51, R91, R99). -/
theorem exec_keepsPlatform {i : Instr} {s t : State} (h : exec i s = .next t) : KeepsPlatform s t := by
  rcases exec_cases i s with ⟨c, _, e⟩ | ⟨w, off, d, e⟩ <;> rw [e] at h <;> injection h with h <;> rw [← h]
  · exact commandTransaction_keepsPlatform c s
  · exact hostAccess_keepsPlatform w 2 off d s

/-- Settles O25: field by field of `exec_keepsPlatform`. -/
theorem noInstructionStoresByItself : Obligations.NoInstructionStoresByItself := by
  unfold Obligations.NoInstructionStoresByItself
  intro i s t h
  have kept := exec_keepsPlatform h
  rw [KeepsPlatform] at kept
  refine ⟨fun a => ?_, ?_, ?_, ?_, ?_, ?_, ?_, ?_, ?_, ?_⟩ <;> rw [kept]

end Sys2Proof.Machine
end

section
/-! PROOFS. The two directions of R101 and R100: a running command does not see the host-visible registers, and the
parameter registers change only by a host write to their own offset. -/

namespace Sys2Proof.Machine

/-! ### The block's step and the take with other registers (R101, R207) -/

/-- A bit step carries other registers along (R131). -/
theorem bitStep_withRegs (s : State) (r : Regs) : bitStep { s with regs := r } = { bitStep s with regs := r } := by
  have hbit : bitStep { s with regs := r } = if s.shiftIn.getLsbD 7 && inClip s.latch s.row s.col
      then offer s.row s.col (shiftBit { s with regs := r }) else shiftBit { s with regs := r } := rfl
  rw [hbit, bitStep]
  split
  · unfold offer
    cases hk : s.latch.sink <;> simp [hk] <;> rfl
  · rfl

/-- The block's own step with other registers differs from its step without them in the registers alone: it tests and
offers from the latch (R101, R207). -/
theorem blockStep_withRegs (s : State) (r : Regs) :
    ∃ r', blockStep { s with regs := r } = { blockStep s with regs := r' } := by
  have hblock : blockStep { s with regs := r } = if s.bitEnabled then bitStep { s with regs := r }
      else if s.completeEnabled then completeStep { s with regs := r } else { s with regs := r } := rfl
  rw [hblock, blockStep]
  split_ifs
  · exact ⟨r, bitStep_withRegs s r⟩
  · exact ⟨_, rfl⟩
  · exact ⟨_, rfl⟩

/-- A take with other registers differs in the registers alone: it delivers the held payload (R134, R207). -/
theorem takeIfReady_withRegs (px fb : Bool) (s : State) (r : Regs) :
    ∃ r', takeIfReady px fb { s with regs := r } = { takeIfReady px fb s with regs := r' } := by
  have htake : takeIfReady px fb { s with regs := r } = if s.pend && sinkReady px fb s
      then takeStep { s with regs := r } else { s with regs := r } := rfl
  rw [htake, takeIfReady]
  split
  · rcases takeStep_cases s with ⟨hk, e⟩ | ⟨hk, e⟩ <;>
      rcases takeStep_cases { s with regs := r } with ⟨hk', e'⟩ | ⟨hk', e'⟩
    · exact ⟨_, by rw [e, e']; rfl⟩
    · exact absurd hk hk'
    · exact absurd hk' hk
    · exact ⟨_, by rw [e, e']; rfl⟩
  · exact ⟨_, rfl⟩

/-- Settles O46: by `blockStep_withRegs` and `takeIfReady_withRegs` only the registers differ, and no port reads them. -/
theorem runningCommandReadsOnlyTheLatch : Obligations.RunningCommandReadsOnlyTheLatch := by
  unfold Obligations.RunningCommandReadsOnlyTheLatch
  intro s r
  obtain ⟨r', hblock⟩ := blockStep_withRegs s r
  rw [hblock]
  refine ⟨rfl, rfl, rfl, rfl, rfl, fun px fb => ?_⟩
  obtain ⟨r'', htake⟩ := takeIfReady_withRegs px fb s r
  rw [htake]
  exact ⟨rfl, rfl, rfl⟩

/-! ### What changes the parameter registers (R100) -/

/-- CTRL and the parameter registers. -/
def parameterRegs : List Reg := [.ctrl, .code, .orgX, .orgY, .color, .tag, .fbBase, .fbW, .fbH]

/-- `b` differs from `a` in STATUS bits, EMIT_COUNT and GLYPH0..7 alone. -/
def KeepsParameters (a b : Regs) : Prop :=
  b = { a with
    done := b.done, errCmd := b.errCmd, errBusy := b.errBusy, errAlign := b.errAlign
    emitCount := b.emitCount, glyph := b.glyph }

theorem readNamed_of_keepsParameters {s t : State} {r : Reg} (hr : r ∈ parameterRegs)
    (h : KeepsParameters s.regs t.regs) : readNamed r t = readNamed r s := by
  simp only [parameterRegs, List.mem_cons, List.not_mem_nil, or_false] at hr
  rcases hr with rfl | rfl | rfl | rfl | rfl | rfl | rfl | rfl | rfl <;> simp only [readNamed] <;> rw [h]

/-- A write to CMD changes no parameter: an accept starts from DONE, EMIT_COUNT and GLYPH0..7, an error is a STATUS bit
(R99). -/
theorem writeCmd_keepsParameters (d : Word) (s : State) : KeepsParameters s.regs (writeCmd d s).regs := by
  rcases writeCmd_cases d s with ⟨_, e⟩ | ⟨_, _, e⟩ | ⟨_, c, _, _, e⟩ | ⟨_, c, _, _, e⟩ <;> rw [e]
  · rfl
  · rfl
  · rfl
  · rcases accept_cases c s with ⟨_, e⟩ | ⟨_, e⟩ | ⟨k, _, e⟩ | ⟨k, _, e⟩ <;> rw [e] <;> rfl

/-- A write to any other register than CMD leaves what the other registers read (R95 to R97). -/
theorem readNamed_writeNamed_other {q r : Reg} (d : Word) (s : State) (hq : q ≠ .cmd) (hne : r ≠ q) :
    readNamed r (writeNamed q d s) = readNamed r s := by
  cases q with
  | cmd => exact absurd rfl hq
  | glyph i =>
    cases r with
    | glyph j =>
      have hij : j ≠ i := fun e => hne (by rw [e])
      exact congrArg (BitVec.setWidth 32) (setRow_row_other s.regs.glyph i j _ hij)
    | _ => rfl
  | _ => cases r <;> first | rfl | exact absurd rfl hne

/-- A write to another register leaves every parameter register. -/
theorem readNamed_writeNamed_parameter {q r : Reg} (d : Word) (s : State) (hr : r ∈ parameterRegs) (hne : r ≠ q) :
    readNamed r (writeNamed q d s) = readNamed r s := by
  by_cases hq : q = .cmd
  · subst hq
    exact readNamed_of_keepsParameters hr (writeCmd_keepsParameters d s)
  · exact readNamed_writeNamed_other d s hq hne

/-- A word offset is known by its register number (R72). -/
theorem eq_of_regNumber_eq {a b : BitVec 7} (ha : admitted 2 a = true) (hb : admitted 2 b = true)
    (h : regNumber a = regNumber b) : a = b := by
  have ha4 := ((admitted_iff 2 a).mp ha).2
  have hb4 := ((admitted_iff 2 b).mp hb).2
  have hdiv := congrArg BitVec.toNat h
  rw [regNumber_div, regNumber_div, BitVec.toNat_ofNat, BitVec.toNat_ofNat] at hdiv
  apply BitVec.eq_of_toNat_eq
  have := a.isLt
  have := b.isLt
  omega

/-- A host access that is no word write to its offset leaves a parameter register (R100). -/
theorem readNamed_hostAccess {r : Reg} {w : Bool} {sz : BitVec 2} {off : BitVec 7} (d : Word) (s : State)
    (hr : r ∈ parameterRegs) (h : ¬ (w = true ∧ sz = 2 ∧ off = regOffset r)) :
    readNamed r (hostAccess w sz off d s) = readNamed r s := by
  rcases hostAccess_cases w sz off d s with ⟨_, e⟩ | ⟨_, _, e⟩ | ⟨_, _, _, e⟩ | ⟨_, hadm, hw, e⟩ <;>
    rw [e, readNamed_respond]
  obtain ⟨hsz, _⟩ := (admitted_iff sz off).mp hadm
  rcases writeReg_cases (regNumber off) d s with ⟨_, e⟩ | ⟨q, hq, e⟩ <;> rw [e]
  refine readNamed_writeNamed_parameter d s hr fun hrq => h ⟨hw, hsz, ?_⟩
  rw [hrq]
  exact eq_of_regNumber_eq (hsz ▸ hadm) (admitted_offset q) (regAt_inj _ q hq)

/-- After its host access, a step outside reset changes only DONE and EMIT_COUNT of the registers (R131, R134, R135). -/
theorem step_regs {s t : State} (h : step s = .next t) (hr : headResets s = false) :
    ∃ u v : State, u.regs = s.regs
      ∧ ((v = u ∧ headTxn s = none)
          ∨ ∃ x, headTxn s = some x ∧ v = hostAccess (htW x) (htSz x) (htOff x) (htData x) u)
      ∧ ∃ done n, t.regs = { v.regs with done := done, emitCount := n } := by
  obtain ⟨u, v, w, hu, haccess, htake, -, hend⟩ := step_shape s t h hr
  refine ⟨u, v, by rw [hu], haccess, ?_⟩
  obtain ⟨n, hw⟩ : ∃ n, w.regs = { v.regs with emitCount := n } := by
    rcases htake with rfl | ⟨px, fb, rfl⟩
    · exact ⟨_, rfl⟩
    · exact take_regs px fb v
  obtain ⟨done, ht⟩ : ∃ done, t.regs = { w.regs with done := done } := by
    rcases hend with rfl | rfl | ⟨-, x, rest, -, rfl⟩ | ⟨-, a, size, rfl⟩
    · exact ⟨_, rfl⟩
    · obtain ⟨done, hdone, -⟩ := block_regs w
      exact ⟨done, hdone⟩
    · exact ⟨_, rfl⟩
    · exact ⟨_, rfl⟩
  exact ⟨done, n, by rw [ht, hw]⟩

/-- Settles O47: of the parts of a step (`step_regs`) only a host access could change a parameter, and it changes only the
one at its own offset (`readNamed_hostAccess`). -/
theorem parametersChangeOnlyByHostWrites : Obligations.ParametersChangeOnlyByHostWrites := by
  unfold Obligations.ParametersChangeOnlyByHostWrites
  refine ⟨fun s t r hr hreset hother h => ?_, fun s t hreset htxn h => ?_⟩
  · obtain ⟨u, v, hu, haccess, done, n, ht⟩ := step_regs h hreset
    have hv : readNamed r v = readNamed r u := by
      rcases haccess with ⟨rfl, -⟩ | ⟨x, hx, rfl⟩
      · rfl
      · exact readNamed_hostAccess (htData x) u hr (hother x hx)
    calc readNamed r t = readNamed r v := readNamed_of_keepsParameters hr (by rw [ht]; rfl)
      _ = readNamed r u := hv
      _ = readNamed r s := readNamed_of_keepsParameters hr (by rw [hu]; rfl)
  · obtain ⟨u, v, hu, haccess, done, n, ht⟩ := step_regs h hreset
    rcases haccess with ⟨rfl, -⟩ | ⟨x, hx, -⟩
    · rw [ht, hu]
    · rw [htxn] at hx
      cases hx

end Sys2Proof.Machine
end

section
/-! PROOFS. The lookup: code normalisation, the rows of the glyph of a code, and the two commands that complete in their
accept, NOP and LOOKUP. -/

namespace Sys2Proof.Machine

/-! ### Code normalisation (R111) -/

theorem norm_of_inRange {c : Word} (h : 32 ≤ c.toNat ∧ c.toNat ≤ 126) : norm c = c.toNat := if_pos h

theorem norm_of_not_inRange {c : Word} (h : ¬ (32 ≤ c.toNat ∧ c.toNat ≤ 126)) : norm c = 32 := if_neg h

/-- A word is in [32, 126] read as signed exactly when it is read as unsigned: the words with bit 31 set are outside in
both readings. -/
theorem toInt_inRange_iff (c : Word) : (32 ≤ c.toInt ∧ c.toInt ≤ 126) ↔ (32 ≤ c.toNat ∧ c.toNat ≤ 126) := by
  rw [BitVec.toInt_eq_toNat_cond]
  split <;> omega

/-- Settles O26: `norm` tests the unsigned reading, which agrees with the signed one (`toInt_inRange_iff`). -/
theorem normUsesAllBitsOfCode : Obligations.NormUsesAllBitsOfCode := by
  unfold Obligations.NormUsesAllBitsOfCode
  intro c
  refine ⟨fun hlo hhi => norm_of_inRange ⟨hlo, hhi⟩, norm_of_not_inRange, fun hlo hhi => ?_, fun h => ?_⟩
  · have hrange := (toInt_inRange_iff c).mp ⟨hlo, hhi⟩
    rw [norm_of_inRange hrange, BitVec.toInt_eq_toNat_of_lt (by omega)]
  · exact norm_of_not_inRange (mt (toInt_inRange_iff c).mpr h)

/-! ### The rows of a glyph (R10, R11, R112, R114) -/

theorem glyphRow_eq_fontRom (c : Word) (r : Nat) : glyphRow c r = Config.fontRom ((norm c - 32) * 8 + r) := rfl

theorem glyphRow_of_inRange {c : Word} (r : Nat) (h : 32 ≤ c.toNat ∧ c.toNat ≤ 126) :
    glyphRow c r = Config.fontRom ((c.toNat - 32) * 8 + r) := by
  rw [glyphRow_eq_fontRom, norm_of_inRange h]

theorem glyphRow_of_not_inRange {c : Word} (r : Nat) (h : ¬ (32 ≤ c.toNat ∧ c.toNat ≤ 126)) :
    glyphRow c r = glyphRow 32 r := by
  have hspace : norm 32 = 32 := rfl
  rw [glyphRow_eq_fontRom, glyphRow_eq_fontRom, norm_of_not_inRange h, hspace]

/-- The rows of the space glyph are the first eight bytes of FONT_ROM, which R11 fixes at 0. -/
theorem glyphRow_space {r : Nat} (hr : r < 8) : glyphRow 32 r = 0 := by
  have hindex : (norm 32 - 32) * 8 + r = r := Nat.zero_add r
  rw [glyphRow_eq_fontRom, hindex, Config.fontRom, if_pos hr]

/-- Settles O27: the rows are `glyphRow` (`lookupGlyph_row`), and outside [32, 126] the code is read as 32. -/
theorem outOfRangeCodesAreSpace : Obligations.OutOfRangeCodesAreSpace := by
  unfold Obligations.OutOfRangeCodesAreSpace
  refine ⟨fun c r hr => ⟨glyphRow_eq_fontRom c r, lookupGlyph_row c r hr, fun k _ => ?_⟩,
    fun c r _ hlo hhi => glyphRow_of_inRange r ⟨hlo, hhi⟩,
    fun c r hr hout => ⟨glyphRow_of_not_inRange r (by omega), glyphRow_space hr⟩⟩
  rw [Glyph.bit, lookupGlyph_row c r hr, glyphRow_eq_fontRom]

/-! ### NOP and LOOKUP (R99, R115, R116) -/

/-- A command with nothing to refuse runs its accept, in its own transaction (R99). -/
theorem exec_accepted {c : Command} {s : State} (hrst : s.rst = false) (hidle : s.seq = .idle)
    (hm : misaligned565 c s = false) : exec c.toInstr s = .next (respond 0 false (accept c s)) := by
  rw [exec_command c s hrst, presentCommand_accept c s hidle hm]

/-- G = 1 is not allowed with NOP and LOOKUP: their words with bit 4 set are illegal (R77). -/
theorem exec_wr_cmd_gNotAllowed {w : Word} {s : State} (hrst : s.rst = false) (hidle : s.seq = .idle)
    (hw : w = 0x10 ∨ w = 0x11) :
    exec (.wr 0x0C w) s = .next { s with regs := { s.regs with errCmd := true }, hRdata := 0, hErr := false } := by
  obtain ⟨-, rejected_iff, -, hwrite⟩ := illegalWordsSetErrCmdOnly
  exact hwrite w s hrst hidle ((rejected_iff w).mpr (.inr (.inr hw)))

/-- Settles O21: `exec_accepted`; the refusals are those of every command while BUSY and of the words with G = 1. -/
theorem nopCompletesAtOnce : Obligations.NopCompletesAtOnce := by
  unfold Obligations.NopCompletesAtOnce
  refine ⟨fun s hrst hidle => ?_, fun s hrst hbusy => ?_, fun s hrst hidle => ?_⟩
  · exact exec_accepted (c := .nop) hrst hidle rfl
  · exact commandsWhileBusyAreDiscarded s .nop hrst hbusy (by simp)
  · exact exec_wr_cmd_gNotAllowed hrst hidle (.inl rfl)

/-- Settles O22: `exec_accepted`, with the rows of `lookupGlyph` for the glyph it stores. -/
theorem lookupLoadsTheGlyphOfCode : Obligations.LookupLoadsTheGlyphOfCode := by
  unfold Obligations.LookupLoadsTheGlyphOfCode
  refine ⟨fun s hrst hidle => ⟨lookupGlyph s.regs.code, fun r hr => ?_, fun hcode r hr => ?_, ?_⟩,
    fun s hrst hbusy => ?_, fun s hrst hidle => ?_⟩
  · exact lookupGlyph_row s.regs.code r hr
  · rw [hcode, lookupGlyph_row 126 r hr, glyphRow_of_inRange r (by decide)]
    rfl
  · exact exec_accepted (c := .lookup) hrst hidle rfl
  · exact commandsWhileBusyAreDiscarded s .lookup hrst hbusy (by simp)
  · exact exec_wr_cmd_gNotAllowed hrst hidle (.inr rfl)

end Sys2Proof.Machine
end

section
/-! PROOFS. The block's own steps, whole: the bit step and its payloads, and the take of a pending output. -/

namespace Sys2Proof.Machine

/-! ### The bit step (R131) -/

/-- The block's turn is its own step (R90). -/
theorem step_block {s : State} {rest : List Input} (hin : s.inputs = .block :: rest) :
    step s = .next (blockStep (nextInputs rest s)) := step_cons s _ rest hin

theorem blockStep_of_bitEnabled {s : State} (h : s.bitEnabled = true) : blockStep s = bitStep s := if_pos h

theorem blockStep_of_completeEnabled {s : State} (h : s.completeEnabled = true) : blockStep s = completeStep s := by
  rcases blockStep_cases s with ⟨hbit, _⟩ | ⟨_, _, e⟩ | ⟨_, hc, _⟩
  · obtain ⟨_, _, hb⟩ := (completeEnabled_iff s).mp h
    obtain ⟨_, _, hlt⟩ := (bitEnabled_iff s).mp hbit
    simp [hb] at hlt
  · exact e
  · simp [h] at hc

/-- A 1 bit inside the clip is offered (R131). -/
theorem bitStep_of_hit {s : State} (hbit : s.shiftIn.getLsbD 7 = true) (hclip : inClip s.latch s.row s.col = true) :
    bitStep s = offer s.row s.col (shiftBit s) := if_pos (by rw [hbit, hclip]; rfl)

/-- Every other bit is shifted out alone (R131). -/
theorem bitStep_of_miss {s : State} (h : ¬ (s.shiftIn.getLsbD 7 = true ∧ inClip s.latch s.row s.col = true)) :
    bitStep s = shiftBit s := if_neg (by rwa [Bool.and_eq_true])

theorem offer_of_cb (r k : Nat) {s : State} (hk : s.latch.sink = .cb) :
    offer r k s = { s with pend := true, px := pxEvent s.latch r k } := by
  rw [offer, hk]

theorem offer_of_mono (r k : Nat) {s : State} (hk : s.latch.sink = .mono) :
    offer r k s = { s with pend := true, fb := monoWrite s.latch r k } := by
  rw [offer, hk]

theorem offer_of_rgb565 (r k : Nat) {s : State} (hk : s.latch.sink = .rgb565) :
    offer r k s = { s with pend := true, fb := rgb565Write s.latch r k } := by
  rw [offer, hk]

/-- Settles O32: `bitStep_of_hit` and `bitStep_of_miss` at row BIDX div 8 and column BIDX mod 8, and the offer of each
sink. -/
theorem bitStepTestsOneBit : Obligations.BitStepTestsOneBit := by
  unfold Obligations.BitStepTestsOneBit
  intro s rest hin hs hp hb r k sh x y idx moved
  have hrow : (nextInputs rest s).row = r := row_eq _ hb
  have hcol : (nextInputs rest s).col = k := col_eq _
  have hsh : (nextInputs rest s).shiftIn = sh := by rw [State.shiftIn, hrow, hcol]; rfl
  have hmoved : shiftBit (nextInputs rest s) = moved := by rw [shiftBit, hsh]; rfl
  have hstep : step s = .next (bitStep (nextInputs rest s)) := by
    rw [step_block hin, blockStep_of_bitEnabled ((bitEnabled_iff (nextInputs rest s)).mpr ⟨hs, hp, hb⟩)]
  refine ⟨fun hmiss => ?_, fun hbit hclip => ?_⟩
  · rw [hstep, bitStep_of_miss (by rwa [hsh, hrow, hcol]), hmoved]
  · have hoffer : step s = .next (offer r k moved) := by
      rw [hstep, bitStep_of_hit (by rw [hsh, hbit]) (by rw [hrow, hcol]; exact hclip), hrow, hcol, hmoved]
    refine ⟨fun hk => ?_, fun hk => ?_, fun hk => ?_⟩
    · exact hoffer.trans (congrArg _ (offer_of_cb r k hk))
    · exact hoffer.trans (congrArg _ (offer_of_mono r k hk))
    · exact hoffer.trans (congrArg _ (offer_of_rgb565 r k hk))

/-! ### The take (R134) -/

/-- The ready of the stream sink is that of the stream port (R134). -/
theorem sinkReady_of_cb (px fb : Bool) {s : State} (hk : s.latch.sink = .cb) : sinkReady px fb s = px := by
  rw [sinkReady, hk]

/-- The stream's ready takes a valid offer: the event is delivered and counted (R15, R134). -/
theorem takeIfReady_of_pxValid (fb : Bool) {s : State} (hv : s.pxValid = true) :
    takeIfReady true fb s = { countTake s with stream := s.stream ++ [s.px] } := by
  obtain ⟨hp, hk⟩ := (pxValid_iff s).mp hv
  have htake : takeIfReady true fb s = takeStep s := by simp [takeIfReady, hp, sinkReady_of_cb true fb hk]
  rcases takeStep_cases s with ⟨_, e⟩ | ⟨hk', _⟩
  · exact htake.trans e
  · exact absurd hk hk'

/-- Without the ready of the latched sink nothing is taken (R134). -/
theorem takeIfReady_of_not_ready {px fb : Bool} {s : State} (h : sinkReady px fb s = false) :
    takeIfReady px fb s = s := if_neg (by simp [h])

/-- Settles O33: the take of each port's offer, and what holds the block: `block_pend` at its own turn,
`takeIfReady_of_not_ready` at the other sink's ready. -/
theorem takeStepDeliversTheOffer : Obligations.TakeStepDeliversTheOffer := by
  unfold Obligations.TakeStepDeliversTheOffer
  refine ⟨fun s rest hp hk hin => ?_, fun s rest hp hk hin => ?_, fun s rest hp h => ?_⟩
  · have hv : (nextInputs rest s).pxValid = true := (pxValid_iff _).mpr ⟨hp, hk⟩
    exact (step_cons s _ rest hin).trans (congrArg _ (takeIfReady_of_pxValid false hv))
  · exact step_fbReady ((fbValid_iff s).mpr ⟨hp, hk⟩) hin
  · have held {px fb : Bool} (hr : sinkReady px fb (nextInputs rest s) = false) := takeIfReady_of_not_ready hr
    rcases h with hin | ⟨hk, hin⟩ | ⟨hk, hin⟩
    · exact (step_block hin).trans (congrArg _ (block_pend _ hp))
    · exact (step_cons s _ rest hin).trans (congrArg _ (held (sinkReady_of_cb false true hk)))
    · exact (step_cons s _ rest hin).trans (congrArg _ (held (sinkReady_of_ne_cb true false hk)))

end Sys2Proof.Machine
end

section
/-! PROOFS. The row shift register and the outputs of a running command, bit by bit and take by take: how far the block
has come in the loop of R126. -/

namespace Sys2Proof.Machine

/-! ### The row shift register (R36, R127) -/

/-- The shift register the bit step tests holds the untested bits of the latched row (R36, R131). -/
theorem shiftIn_of_rowshOk {s : State} (h : rowshOk s) : s.shiftIn = s.latch.gl.row s.row <<< s.col := by
  unfold State.shiftIn
  split
  · next hcol => rw [hcol, BitVec.shiftLeft_zero]
  · next hcol => exact h hcol

/-- The tested bit is the bit of the latched glyph (R127). -/
theorem shiftIn_getLsbD_of_rowshOk {s : State} (h : rowshOk s) :
    s.shiftIn.getLsbD 7 = s.latch.gl.bit s.row s.col := by
  have hcol : s.col < 8 := (s.bidx.extractLsb' 0 3).isLt
  rw [shiftIn_of_rowshOk h, BitVec.getLsbD_shiftLeft, Glyph.bit]
  simp [show ¬ 7 < s.col by omega]

/-- Settles O41: `shiftIn_getLsbD_of_rowshOk`, with row and column as numbers. -/
theorem testedBitIsTheGlyphBit : Obligations.TestedBitIsTheGlyphBit := by
  unfold Obligations.TestedBitIsTheGlyphBit
  intro s hI hbit
  obtain ⟨hs, _, hb⟩ := (bitEnabled_iff s).mp hbit
  rw [shiftIn_getLsbD_of_rowshOk (hI.rowsh hs), row_eq s hb, col_eq, Glyph.bit]

/-- A bit step leaves the untested bits of the row in the shift register: within a row one bit further, and nothing is
asked of it at the next row start (R36). -/
theorem rowshOk_shiftBit {s : State} (h : rowshOk s) (hb : s.bidx.toNat < 64) : rowshOk (shiftBit s) := by
  intro hcol
  have hsucc : (shiftBit s).bidx.toNat = s.bidx.toNat + 1 := bidx_succ s.bidx hb
  rw [col_eq, hsucc] at hcol
  have hcol' : (shiftBit s).col = s.col + 1 := by rw [col_eq, col_eq, hsucc]; omega
  have hrow' : (shiftBit s).row = s.row := by rw [row_eq _ (by omega), row_eq s hb, hsucc]; omega
  rw [shiftBit_rowsh, shiftIn_of_rowshOk h, shiftBit_latch, hcol', hrow', BitVec.shiftLeft_add]

/-! ### Pending outputs (R37) -/

theorem pendingEvents_of_not_pend {s : State} (h : s.pend = false) : pendingEvents s = [] := by
  simp [pendingEvents, State.pxOffer, State.pxValid, h]

theorem pendingWrites_of_not_pend {s : State} (h : s.pend = false) : pendingWrites s = [] := by
  simp [pendingWrites, State.fbOffer, State.fbValid, h]

theorem pendingEvents_of_cb {s : State} (hp : s.pend = true) (hk : s.latch.sink = .cb) : pendingEvents s = [s.px] := by
  simp [pendingEvents, State.pxOffer, State.pxValid, hp, hk]

theorem pendingWrites_of_cb {s : State} (hk : s.latch.sink = .cb) : pendingWrites s = [] := by
  simp [pendingWrites, State.fbOffer, State.fbValid, hk]

theorem pendingEvents_of_ne_cb {s : State} (hk : s.latch.sink ≠ .cb) : pendingEvents s = [] := by
  simp [pendingEvents, State.pxOffer, State.pxValid, hk]

theorem pendingWrites_of_ne_cb {s : State} (hp : s.pend = true) (hk : s.latch.sink ≠ .cb) : pendingWrites s = [s.fb] := by
  simp [pendingWrites, State.fbOffer, State.fbValid, hp, hk]

/-! ### One more bit of the loop (R126, R131) -/

/-- The output of one bit of the loop: its payload, if the bit passes. -/
def bitOutput {α : Type} (payload : Nat → Nat → Option α) (l : Latch) (r k : Nat) : List α :=
  (if passes l r k then payload r k else none).toList

/-- An offer changes only what is pending. -/
theorem offer_eq (r k : Nat) (s : State) : ∃ x f, offer r k s = { s with pend := true, px := x, fb := f } := by
  rcases offer_cases r k s with ⟨_, e⟩ | ⟨_, w, _, e⟩ <;> exact ⟨_, _, e⟩

/-- An offer leaves the payload of its bit pending at the port of the latched sink (R37, R131). -/
theorem pending_offer (r k : Nat) (s : State) :
    pendingEvents (offer r k s) = (pxPayload s.latch r k).toList
      ∧ pendingWrites (offer r k s) = (fbPayload s.latch r k).toList := by
  rw [pxPayload, fbPayload]
  cases hk : s.latch.sink with
  | cb => rw [offer_of_cb r k hk]; exact ⟨pendingEvents_of_cb rfl hk, pendingWrites_of_cb hk⟩
  | mono =>
    have hne : s.latch.sink ≠ .cb := by simp [hk]
    rw [offer_of_mono r k hk]; exact ⟨pendingEvents_of_ne_cb hne, pendingWrites_of_ne_cb rfl hne⟩
  | rgb565 =>
    have hne : s.latch.sink ≠ .cb := by simp [hk]
    rw [offer_of_rgb565 r k hk]; exact ⟨pendingEvents_of_ne_cb hne, pendingWrites_of_ne_cb rfl hne⟩

/-- A bit step with nothing pending shifts, and leaves pending exactly what the loop outputs for its bit. -/
theorem bitStep_output {s : State} (hrow : rowshOk s) (hp : s.pend = false) :
    (∃ p x f, bitStep s = { shiftBit s with pend := p, px := x, fb := f })
      ∧ pendingEvents (bitStep s) = bitOutput (pxPayload s.latch) s.latch s.row s.col
      ∧ pendingWrites (bitStep s) = bitOutput (fbPayload s.latch) s.latch s.row s.col := by
  have htest := shiftIn_getLsbD_of_rowshOk hrow
  rcases bitStep_cases s with ⟨hbit, hclip, e⟩ | ⟨hmiss, e⟩
  · have hpass : passes s.latch s.row s.col = true := by rw [passes, ← htest, hbit, hclip]; rfl
    rw [e, bitOutput, bitOutput, if_pos hpass, if_pos hpass]
    obtain ⟨x, f, hoffer⟩ := offer_eq s.row s.col (shiftBit s)
    exact ⟨⟨true, x, f, hoffer⟩, pending_offer s.row s.col (shiftBit s)⟩
  · have hpass : ¬ passes s.latch s.row s.col = true := by rw [passes, ← htest, hmiss]; decide
    rw [e, bitOutput, bitOutput, if_neg hpass, if_neg hpass]
    exact ⟨⟨_, _, _, rfl⟩, pendingEvents_of_not_pend hp, pendingWrites_of_not_pend hp⟩

/-- The loop's outputs for one more bit than BIDX counts. -/
theorem firstBits_bidx_succ {α : Type} (payload : Nat → Nat → Option α) (l : Latch) {s : State}
    (hb : s.bidx.toNat < 64) :
    firstBits payload l (s.bidx + 1).toNat = firstBits payload l s.bidx.toNat ++ bitOutput payload l s.row s.col := by
  rw [bidx_succ s.bidx hb, firstBits_succ, row_eq s hb, col_eq]
  rfl

/-- `n` bits make at most `n` outputs, of the two kinds together: a command has one kind of sink (R137). -/
theorem firstBits_length_le (l : Latch) (n : Nat) :
    (firstBits (pxPayload l) l n).length + (firstBits (fbPayload l) l n).length ≤ n := by
  have hle {α : Type} (payload : Nat → Nat → Option α) : (firstBits payload l n).length ≤ n :=
    (List.length_filterMap_le _ _).trans_eq List.length_range
  by_cases hk : l.sink = .cb
  · rw [firstBits_none (fbPayload l) l n (fbPayload_cb l hk), List.length_nil, Nat.add_zero]
    exact hle _
  · rw [firstBits_none (pxPayload l) l n (pxPayload_fb l hk), List.length_nil, Nat.zero_add]
    exact hle _

/-! ### A served take, as one record (R134) -/

/-- With nothing pending, or with the ready of its sink, the take delivers exactly the pending outputs, performs the
writes among them, and leaves nothing pending. -/
theorem takeIfReady_of_served {px fb : Bool} {s : State} (h : s.pend = false ∨ sinkReady px fb s = true) :
    ∃ n, takeIfReady px fb s = { s with
        pend := false, regs := { s.regs with emitCount := n }
        stream := s.stream ++ pendingEvents s, fbLog := s.fbLog ++ pendingWrites s
        mem := applyWrites (pendingWrites s) s.mem }
      ∧ (s.regs.emitCount.toNat < 127 →
          n.toNat = s.regs.emitCount.toNat + (pendingEvents s).length + (pendingWrites s).length) := by
  rcases takeIfReady_cases px fb s with ⟨hp, _, e⟩ | ⟨hheld, e⟩ <;> rw [e]
  · refine ⟨s.regs.emitCount + 1, ?_⟩
    rcases takeStep_cases s with ⟨hk, e⟩ | ⟨hk, e⟩ <;> rw [e]
    · rw [pendingEvents_of_cb hp hk, pendingWrites_of_cb hk, List.append_nil]
      exact ⟨rfl, emit_succ _⟩
    · rw [pendingEvents_of_ne_cb hk, pendingWrites_of_ne_cb hp hk, List.append_nil]
      exact ⟨rfl, emit_succ _⟩
  · have hp : s.pend = false := h.elim id fun hr => hheld.resolve_right (by simp [hr])
    refine ⟨s.regs.emitCount, ?_, fun _ => ?_⟩ <;> rw [pendingEvents_of_not_pend hp, pendingWrites_of_not_pend hp]
    · rw [List.append_nil, List.append_nil, applyWrites_nil, ← hp]
    · rfl

end Sys2Proof.Machine
end

section
/-! PROOFS. The invariant is kept by every part of a step: a host access, a take, the block's own step, a reset edge and
another agent's access. -/

namespace Sys2Proof.Machine

/-! ### What a host access writes (R91, R95 to R99) -/

/-- A host access only answers, or outside reset it is a word write to one named register. -/
theorem hostAccess_write_cases (w : Bool) (sz : BitVec 2) (off : BitVec 7) (d : Word) (s : State) :
    (∃ a e, hostAccess w sz off d s = respond a e s)
      ∨ (s.rst = false ∧ w = true ∧ sz = 2
          ∧ ∃ r, off = regOffset r ∧ hostAccess w sz off d s = respond 0 false (writeNamed r d s)) := by
  rcases hostAccess_cases w sz off d s with ⟨_, e⟩ | ⟨_, _, e⟩ | ⟨_, _, _, e⟩ | ⟨hrst, hadm, hw, e⟩
  · exact .inl ⟨_, _, e⟩
  · exact .inl ⟨_, _, e⟩
  · exact .inl ⟨_, _, e⟩
  · rcases writeReg_cases (regNumber off) d s with ⟨_, e'⟩ | ⟨r, hr, e'⟩ <;> rw [e'] at e
    · exact .inl ⟨_, _, e⟩
    · obtain ⟨hsz, _⟩ := (admitted_iff sz off).mp hadm
      have hoff := eq_of_regNumber_eq (hsz ▸ hadm) (admitted_offset r) (regAt_inj _ r hr)
      exact .inr ⟨hrst, hw, hsz, r, hoff, e⟩

/-- A write to another register than CMD changes registers alone: never EMIT_COUNT, DONE only to 0, and GLYPH0..7 only
through their own offsets (R95 to R98). -/
theorem writeNamed_registers {r : Reg} (hr : r ≠ .cmd) (d : Word) (s : State) :
    ∃ g, writeNamed r d s = { s with regs := g } ∧ g.emitCount = s.regs.emitCount
      ∧ (g.done = true → s.regs.done = true) ∧ ((∀ q, r ≠ .glyph q) → g.glyph = s.regs.glyph) := by
  cases r with
  | cmd => exact absurd rfl hr
  | status => exact ⟨_, rfl, rfl, fun h => (Bool.and_eq_true_iff.mp h).1, fun _ => rfl⟩
  | glyph q => exact ⟨_, rfl, rfl, id, fun h => absurd rfl (h q)⟩
  | _ => exact ⟨_, rfl, rfl, id, fun _ => rfl⟩

/-! ### Parts of a step that touch no clause of the invariant -/

theorem Inv.nextInputs {s : State} (h : Inv s) (rest : List Input) : Inv (nextInputs rest s) := { h with }

theorem Inv.respond {s : State} (h : Inv s) (d : Word) (e : Bool) : Inv (respond d e s) := { h with }

theorem Inv.agentRead {s : State} (h : Inv s) (a : Word) (size : BitVec 1) : Inv (agentRead a size s) := { h with }

/-- Releasing the reset pin. -/
theorem Inv.release {s : State} (h : Inv s) : Inv (driveRst false s) :=
  { h with rstIdle := fun hrst => absurd hrst Bool.false_ne_true }

/-- Another agent's write keeps memory canonical. -/
theorem Inv.agentWrite {s : State} (h : Inv s) (w : FbWrite) : Inv { s with mem := memWrite w s.mem } :=
  { h with memWf := memWrite_wf w s.mem h.memWf }

/-- Other registers, with the same EMIT_COUNT and no DONE that was not set. -/
theorem Inv.withRegs {s : State} (h : Inv s) {r : Regs} (hemit : r.emitCount = s.regs.emitCount)
    (hdone : r.done = true → s.regs.done = true) : Inv { s with regs := r } :=
  { h with
    emitLe := hemit ▸ h.emitLe
    doneIdle := fun hs => Bool.eq_false_iff.mpr fun hd => by simpa [h.doneIdle hs] using hdone hd
    progress := fun hs => by
      obtain ⟨events, writes, before, logged, hstream, hlog, hev, hwr, hcount⟩ := h.progress hs
      exact ⟨events, writes, before, logged, hstream, hlog, hev, hwr, hemit ▸ hcount⟩ }

theorem Inv.raise {s : State} (h : Inv s) (e : ErrCause) : Inv (raise e s) := by
  cases e <;> exact h.withRegs rfl id

theorem Inv.pend_of_idle {s : State} (h : Inv s) (hidle : s.seq = .idle) : s.pend = false :=
  Bool.eq_false_iff.mpr fun hp => by simp [h.pendBusy hp] at hidle

/-- A reset edge leaves an idle block, and memory as it was (R200, R201). -/
theorem Inv.resetEdge {s : State} (h : Inv s) : Inv (resetEdge s) :=
  Inv.of_idle rfl rfl h.memWf (Nat.zero_le 64) (Nat.zero_le 64)

/-! ### The accept (R99) -/

/-- A DRAW command starts at bit 0 with no output made: its latch is sampled with the origin check, and a 565 base is even
(R99, R145, R155). -/
theorem Inv.startDraw {k : Sink} {s : State} (hmem : s.mem.wf = true) (hrst : s.rst = false)
    (hdone : s.regs.done = false) (hemit : s.regs.emitCount = 0)
    (heven : k = .rgb565 → s.regs.fbBase.getLsbD 0 = false) : Inv (startDraw k s) where
  memWf := hmem
  bidxLe := Nat.zero_le 64
  emitLe := by simp [hemit]
  pendBusy _ := rfl
  doneIdle _ := hdone
  rstIdle h := by simp [hrst] at h
  rowsh _ hcol := absurd rfl hcol
  latch _ := by
    cases k with
    | cb => rfl
    | mono => rfl
    | rgb565 => exact ⟨rfl, heven rfl⟩
  progress _ := ⟨[], [], s.stream, s.fbLog, (List.append_nil _).symm, (List.append_nil _).symm, rfl, rfl, by simp [hemit]⟩

/-- The accept of an idle block: NOP and LOOKUP end idle, a DRAW starts (R99, R115, R116). -/
theorem Inv.accept {c : Command} {s : State} (h : Inv s) (hidle : s.seq = .idle) (hrst : s.rst = false)
    (hm : misaligned565 c s = false) : Inv (accept c s) := by
  have hpend := h.pend_of_idle hidle
  rcases accept_cases c s with ⟨_, e⟩ | ⟨_, e⟩ | ⟨k, rfl, e⟩ | ⟨k, rfl, e⟩ <;> rw [e]
  · exact Inv.of_idle hidle hpend h.memWf h.bidxLe (Nat.zero_le 64)
  · exact Inv.of_idle hidle hpend h.memWf h.bidxLe (Nat.zero_le 64)
  · exact Inv.startDraw h.memWf hrst rfl rfl fun hk => by subst hk; exact hm
  · exact Inv.startDraw h.memWf hrst rfl rfl fun hk => by subst hk; exact hm

theorem Inv.writeCmd {s : State} (h : Inv s) (hrst : s.rst = false) (d : Word) : Inv (writeCmd d s) := by
  rcases writeCmd_cases d s with ⟨_, e⟩ | ⟨_, _, e⟩ | ⟨_, c, _, _, e⟩ | ⟨hidle, c, _, hm, e⟩ <;> rw [e]
  · exact h.raise .busy
  · exact h.raise .cmd
  · exact h.raise .align
  · exact h.accept hidle hrst hm

/-- Every host access keeps the invariant (R91 to R99). -/
theorem Inv.hostAccess {s : State} (h : Inv s) (w : Bool) (sz : BitVec 2) (off : BitVec 7) (d : Word) :
    Inv (hostAccess w sz off d s) := by
  rcases hostAccess_write_cases w sz off d s with ⟨a, e, hanswer⟩ | ⟨hrst, _, _, r, _, hwrite⟩
  · rw [hanswer]
    exact h.respond a e
  · rw [hwrite]
    refine Inv.respond ?_ 0 false
    by_cases hr : r = .cmd
    · subst hr
      exact h.writeCmd hrst d
    · obtain ⟨g, hg, hemit, hdone, _⟩ := writeNamed_registers hr d s
      rw [hg]
      exact h.withRegs hemit hdone

/-! ### The take and the block's own step (R131, R134, R135) -/

/-- The outputs of a running command up to BIDX, taken and pending, are at most 64 (R137). -/
theorem Inv.emit_pending_le {s : State} (h : Inv s) (hs : s.seq = .expand) :
    s.regs.emitCount.toNat + (pendingEvents s).length + (pendingWrites s).length ≤ 64 := by
  obtain ⟨events, writes, _, _, _, _, hev, hwr, hcount⟩ := h.progress hs
  have hle := firstBits_length_le s.latch s.bidx.toNat
  rw [← hev, ← hwr, List.length_append, List.length_append] at hle
  have := h.bidxLe
  omega

/-- A take moves the pending output to the end of its history (R134). -/
theorem Inv.take {s : State} (h : Inv s) (px fb : Bool) : Inv (takeIfReady px fb s) := by
  rcases takeIfReady_cases px fb s with ⟨hp, hr, _⟩ | ⟨_, e⟩
  · have hs := h.pendBusy hp
    have hle := h.emit_pending_le hs
    obtain ⟨n, e, hn⟩ := takeIfReady_of_served (.inr hr)
    have hn := hn (by omega)
    rw [e]
    exact
      { memWf := applyWrites_wf _ _ h.memWf
        bidxLe := h.bidxLe
        emitLe := hn ▸ hle
        pendBusy := fun _ => hs
        doneIdle := h.doneIdle
        rstIdle := h.rstIdle
        rowsh := h.rowsh
        latch := h.latch
        progress := fun _ => by
          obtain ⟨events, writes, before, logged, hstream, hlog, hev, hwr, hcount⟩ := h.progress hs
          refine ⟨events ++ pendingEvents s, writes ++ pendingWrites s, before, logged, ?_, ?_, ?_, ?_, ?_⟩
          · rw [hstream, List.append_assoc]
          · rw [hlog, List.append_assoc]
          · exact (List.append_nil _).trans hev
          · exact (List.append_nil _).trans hwr
          · rw [hn, ← hcount, List.length_append, List.length_append]
            omega }
  · rw [e]
    exact h

/-- A bit step adds the output of its bit to the loop's outputs, as the pending one (R126, R131). -/
theorem Inv.bitStep {s : State} (h : Inv s) (hbit : s.bitEnabled = true) : Inv (bitStep s) := by
  obtain ⟨hs, hp, hb⟩ := (bitEnabled_iff s).mp hbit
  have hrow := h.rowsh hs
  obtain ⟨⟨p, x, f, e⟩, hevents, hwrites⟩ := bitStep_output hrow hp
  have hprogress : Progress (Machine.bitStep s) := fun _ => by
    obtain ⟨events, writes, before, logged, hstream, hlog, hev, hwr, hcount⟩ := h.progress hs
    rw [pendingEvents_of_not_pend hp, List.append_nil] at hev
    rw [pendingWrites_of_not_pend hp, List.append_nil] at hwr
    refine ⟨events, writes, before, logged, ?_, ?_, ?_, ?_, ?_⟩
    · rw [e]; exact hstream
    · rw [e]; exact hlog
    · rw [hevents, hev, e]; exact (firstBits_bidx_succ _ s.latch hb).symm
    · rw [hwrites, hwr, e]; exact (firstBits_bidx_succ _ s.latch hb).symm
    · rw [e]; exact hcount
  rw [e] at hprogress ⊢
  exact
    { memWf := h.memWf
      bidxLe := by show (s.bidx + 1).toNat ≤ 64; rw [bidx_succ s.bidx hb]; exact hb
      emitLe := h.emitLe
      pendBusy := fun _ => hs
      doneIdle := h.doneIdle
      rstIdle := h.rstIdle
      rowsh := fun _ => rowshOk_shiftBit hrow hb
      latch := h.latch
      progress := hprogress }

/-- The block's own step (R131, R135, R194). -/
theorem Inv.blockStep {s : State} (h : Inv s) : Inv (blockStep s) := by
  rcases blockStep_cases s with ⟨hbit, e⟩ | ⟨_, hc, e⟩ | ⟨_, _, e⟩ <;> rw [e]
  · exact h.bitStep hbit
  · obtain ⟨_, hp, _⟩ := (completeEnabled_iff s).mp hc
    exact Inv.of_idle rfl hp h.memWf h.bidxLe h.emitLe
  · exact h

/-- The block's part of a rising edge (R213). -/
theorem Inv.blockEdge {s : State} (h : Inv s) (wasBusy px fb : Bool) : Inv (blockEdge wasBusy px fb s) := by
  unfold Machine.blockEdge
  split
  · exact (h.take px fb).blockStep
  · exact h

/-- A rising edge: the reset, or the transaction and then the block's part (R90, R200, R213). -/
theorem Inv.clockEdge {s t : State} (h : Inv s) {p : Pins} (he : clockEdge p s = .next t) : Inv t := by
  rw [clockEdge_eq] at he
  injection he with he
  rw [← he]
  split
  · exact (h.take _ _).resetEdge
  · refine Inv.blockEdge ?_ _ _ _
    split
    · exact h.release
    · exact h.release.hostAccess _ _ _ _

/-- Settles O43: each part that a step is made of (`step_next_cases`) keeps the invariant. -/
theorem everyStepKeepsInv : Obligations.EveryStepKeepsInv := by
  unfold Obligations.EveryStepKeepsInv
  intro s t hI h
  rcases step_next_cases s t h with ⟨_, rfl⟩ | ⟨i, rest, _, h⟩
  · exact hI.blockStep
  have hI := hI.nextInputs rest
  rcases h with ⟨x, _, rfl⟩ | ⟨_, rfl⟩ | ⟨px, fb, _, rfl⟩ | ⟨level, _, rfl⟩ | ⟨p, _, he⟩ | ⟨w, _, _, rfl⟩ | ⟨a, size, _, rfl⟩
  · exact hI.hostAccess _ _ _ _
  · exact hI.blockStep
  · exact hI.take px fb
  · cases level with
    | false => exact hI.release
    | true => exact hI.resetEdge
  · exact hI.clockEdge he
  · exact hI.agentWrite w
  · exact hI.agentRead a size

end Sys2Proof.Machine
end

section
/-! PROOFS. The completion: what it changes, what is kept after it until the next accept, and that the outputs since the
accept are those of the loop of R126 for every schedule. -/

namespace Sys2Proof.Machine

/-! ### What an idle block keeps (R135) -/

/-- A step outside reset whose access, if any, leaves the block idle with nothing pending changes nothing of the block
after that access: there is no output to take and no step of its own to make (R134, R194). -/
theorem step_idle_after_access {s t : State} (h : step s = .next t) (hr : headResets s = false) :
    ∃ u v, u = { s with inputs := u.inputs, rst := u.rst }
      ∧ ((v = u ∧ headTxn s = none)
          ∨ ∃ x, headTxn s = some x ∧ v = hostAccess (htW x) (htSz x) (htOff x) (htData x) u)
      ∧ (v.seq = .idle → v.pend = false →
          t = { v with mem := t.mem, agentData := t.agentData, freeCount := t.freeCount }) := by
  obtain ⟨u, v, w, hu, haccess, htake, -, hend⟩ := step_shape s t h hr
  refine ⟨u, v, hu, haccess, fun hidle hpend => ?_⟩
  have hw : w = v := by
    rcases htake with rfl | ⟨px, fb, rfl⟩
    · rfl
    · simp [takeIfReady, hpend]
  subst hw
  rcases hend with rfl | rfl | ⟨-, x, rest, -, rfl⟩ | ⟨-, a, size, rfl⟩
  · rfl
  · have hblock : blockStep w = w := by simp [blockStep, State.bitEnabled, State.completeEnabled, hidle]
    rw [hblock]
  · rfl
  · rfl

/-- A reset edge presents no transaction (R202). -/
theorem headResets_of_headTxn {s : State} {x : HT} (h : headTxn s = some x) : headResets s = false := by
  unfold headTxn at h
  split at h
  · next hin => simp [headResets, hin]
  · next p _ hin =>
    cases hp : p.rst with
    | false => simp [headResets, hin, hp]
    | true => simp [hp] at h
  · cases h

/-- An access that writes no legal command word to CMD changes registers and the response alone in an idle block: not
EMIT_COUNT, and GLYPH0..7 only by a word write of one of them (R95 to R99). -/
theorem hostAccess_of_no_command {w : Bool} {sz : BitVec 2} {off : BitVec 7} {d : Word} {s : State} (hidle : s.seq = .idle)
    (h : ¬ (w = true ∧ off = cmdOffset ∧ d ∈ legalCommandWords)) :
    ∃ g a e, hostAccess w sz off d s = respond a e { s with regs := g } ∧ g.emitCount = s.regs.emitCount
      ∧ (¬ (w = true ∧ sz = 2 ∧ ∃ r : Fin 8, off = BitVec.ofNat 7 (0x40 + 4 * r.val)) → g.glyph = s.regs.glyph) := by
  rcases hostAccess_write_cases w sz off d s with ⟨a, e, hanswer⟩ | ⟨_, hw, hsz, r, hoff, hwrite⟩
  · exact ⟨s.regs, a, e, hanswer, rfl, fun _ => rfl⟩
  · by_cases hr : r = .cmd
    · subst hr
      obtain ⟨why, hwhy⟩ := (decodeCommand_rejected_iff d).mpr fun hd => h ⟨hw, hoff, hd⟩
      have hraise : writeNamed .cmd d s = raise .cmd s := writeCmd_illegal d why s hidle hwhy
      exact ⟨{ s.regs with errCmd := true }, 0, false, by rw [hwrite, hraise]; rfl, rfl, fun _ => rfl⟩
    · obtain ⟨g, hg, hemit, _, hglyph⟩ := writeNamed_registers hr d s
      exact ⟨g, 0, false, by rw [hwrite, hg], hemit,
        fun hno => hglyph fun q hq => hno ⟨hw, hsz, q, by rw [hoff, hq, regOffset_glyph]⟩⟩

/-- Settles O34: the completion is the block's own step; afterwards the block is idle, so a step changes at most what its
access writes (`step_idle_after_access`, `hostAccess_of_no_command`). -/
theorem completionSetsDone : Obligations.CompletionSetsDone := by
  unfold Obligations.CompletionSetsDone
  refine ⟨fun s rest hin hs hp hb => ?_, fun s t hidle hp htxn hr h => ?_, fun s t x hidle hp htxn hno h => ?_⟩
  · have hc : (nextInputs rest s).completeEnabled = true := (completeEnabled_iff _).mpr ⟨hs, hp, hb⟩
    exact (step_block hin).trans (congrArg _ (blockStep_of_completeEnabled hc))
  · obtain ⟨u, v, hu, haccess, hkeep⟩ := step_idle_after_access h hr
    rcases haccess with ⟨rfl, -⟩ | ⟨x, hx, -⟩
    · rw [hkeep (by rw [hu]; exact hidle) (by rw [hu]; exact hp), hu]
      exact ⟨rfl, rfl, hidle, rfl, rfl, hp, rfl, rfl⟩
    · simp [htxn] at hx
  · obtain ⟨u, v, hu, haccess, hkeep⟩ := step_idle_after_access h (headResets_of_headTxn htxn)
    rcases haccess with ⟨-, hnone⟩ | ⟨y, hy, rfl⟩
    · simp [htxn] at hnone
    obtain rfl : x = y := Option.some.inj (htxn.symm.trans hy)
    have huidle : u.seq = .idle := by rw [hu]; exact hidle
    have hup : u.pend = false := by rw [hu]; exact hp
    obtain ⟨g, a, e, hv, hemit, hglyph⟩ := hostAccess_of_no_command (sz := htSz x) huidle hno
    rw [hv] at hkeep
    rw [hkeep huidle hup]
    rw [hu] at hemit hglyph huidle ⊢
    exact ⟨hemit, rfl, huidle, rfl, rfl, hglyph⟩

/-! ### The outputs of a whole command (R126, R137) -/

theorem drawEvents_eq_firstBits (l : Latch) : drawEvents l = firstBits (pxPayload l) l 64 :=
  drawLoop_eq_firstBits (pxPayload l) l

theorem drawWrites_eq_firstBits (l : Latch) : drawWrites l = firstBits (fbPayload l) l 64 :=
  drawLoop_eq_firstBits (fbPayload l) l

/-- Where every bit has a payload, the outputs are as many as the bits that pass. -/
theorem firstBits_length {α : Type} {payload : Nat → Nat → Option α} (l : Latch) (n : Nat)
    (h : ∀ r k, (payload r k).isSome = true) :
    (firstBits payload l n).length = ((List.range n).filter fun i => passes l (i / 8) (i % 8)).length := by
  rw [firstBits, List.length_filterMap_eq_countP, List.countP_eq_length_filter]
  refine congrArg (fun p => ((List.range n).filter p).length) (funext fun i => ?_)
  cases passes l (i / 8) (i % 8) with
  | true => exact h _ _
  | false => rfl

/-- A DRAW_CB makes one output for each 1 bit of its glyph (R132, R137). -/
theorem draw_outputs_of_cb {l : Latch} (hk : l.sink = .cb) :
    (drawEvents l).length + (drawWrites l).length =
      ((List.range 64).filter fun i => (l.gl.row (i / 8)).getLsbD (7 - i % 8)).length := by
  have hpass (i : Nat) : passes l (i / 8) (i % 8) = (l.gl.row (i / 8)).getLsbD (7 - i % 8) := by
    rw [passes, Glyph.bit, inClip, hk, Bool.and_true]
  rw [drawEvents_eq_firstBits, drawWrites_eq_firstBits, firstBits_none (fbPayload l) l 64 (fbPayload_cb l hk),
    firstBits_length l 64 fun r k => by rw [pxPayload, hk]; rfl]
  simp only [hpass, List.length_nil, Nat.add_zero]

/-- A DRAW of a buffer sink makes one output for each 1 bit that passes the clip (R137, R149). -/
theorem draw_outputs_of_ne_cb {l : Latch} (hk : l.sink ≠ .cb) :
    (drawEvents l).length + (drawWrites l).length =
      ((List.range 64).filter fun i =>
        (l.gl.row (i / 8)).getLsbD (7 - i % 8) && inClip l (i / 8) (i % 8)).length := by
  have hsome (r k : Nat) : (fbPayload l r k).isSome = true := by
    unfold fbPayload
    cases hs : l.sink with
    | cb => exact absurd hs hk
    | mono => rfl
    | rgb565 => rfl
  rw [drawEvents_eq_firstBits, drawWrites_eq_firstBits, firstBits_none (pxPayload l) l 64 (pxPayload_fb l hk),
    firstBits_length l 64 hsome, List.length_nil, Nat.zero_add]
  rfl

/-- Settles O40: at the completion step nothing is pending and all 64 bits are tested, so the invariant's outputs are those
of the whole loop. -/
theorem everyScheduleGivesTheLoopsOutputs : Obligations.EveryScheduleGivesTheLoopsOutputs := by
  unfold Obligations.EveryScheduleGivesTheLoopsOutputs
  intro s hI hc
  obtain ⟨hs, hp, hb⟩ := (completeEnabled_iff s).mp hc
  have hb : s.bidx.toNat = 64 := by rw [hb]; rfl
  obtain ⟨events, writes, before, logged, hstream, hlog, hev, hwr, hcount⟩ := hI.progress hs
  rw [pendingEvents_of_not_pend hp, List.append_nil, hb, ← drawEvents_eq_firstBits] at hev
  rw [pendingWrites_of_not_pend hp, List.append_nil, hb, ← drawWrites_eq_firstBits] at hwr
  subst hev hwr
  exact ⟨⟨before, logged, hstream, hlog⟩, hcount.symm, hI.emitLe,
    fun hk => hcount.symm.trans (draw_outputs_of_cb hk), fun hk => hcount.symm.trans (draw_outputs_of_ne_cb hk)⟩

end Sys2Proof.Machine
end

section
/-! PROOFS. A DRAW command with no stalls: 65 rising edges from the accept to the completion, and its outputs. -/

namespace Sys2Proof.Machine

/-! ### A rising edge with nothing presented and both readies high (R213) -/

/-- With both readies high every pending output is taken. -/
theorem served_of_ready (s : State) : s.pend = false ∨ sinkReady true true s = true := by
  right
  unfold sinkReady
  cases s.latch.sink <;> rfl

/-- The state in which such an edge leaves the block its own step: the input used up and the pending output taken. -/
def edgeTake (rest : List Input) (s : State) : State := takeIfReady true true (driveRst false (nextInputs rest s))

theorem edgeTake_seq (rest : List Input) (s : State) : (edgeTake rest s).seq = s.seq := take_seq _ _ _

theorem edgeTake_done (rest : List Input) (s : State) : (edgeTake rest s).regs.done = s.regs.done := by
  obtain ⟨n, e⟩ := take_regs true true (driveRst false (nextInputs rest s))
  exact congrArg (·.done) e

theorem edgeTake_inputs (rest : List Input) (s : State) : (edgeTake rest s).inputs = rest := by
  obtain ⟨n, e, -⟩ := takeIfReady_of_served (served_of_ready (driveRst false (nextInputs rest s)))
  exact congrArg (·.inputs) e

/-- Such an edge of a running command is a take and then the block's step. -/
theorem step_freeClock {s : State} {rest : List Input} (hin : s.inputs = freeClock :: rest) (hs : s.seq = .expand) :
    step s = .next (blockStep (edgeTake rest s)) := by
  rw [step_clock hin, (busy_iff s).mpr hs]
  rfl

/-! ### The command after `n` bits with every output taken -/

/-- `v` has tested `n` bits of the command whose accept left `a`, and every output of theirs is taken: BIDX and the shift
register stand at bit `n`, and EMIT_COUNT, the histories and memory hold the outputs of the first `n` bits of the loop. -/
structure Served (a : State) (n : Nat) (v : State) : Prop where
  seq : v.seq = .expand
  pend : v.pend = false
  bidx : v.bidx.toNat = n
  latch : v.latch = a.latch
  rowsh : rowshOk v
  regs : v.regs = { a.regs with emitCount := v.regs.emitCount }
  emit : v.regs.emitCount.toNat =
    (firstBits (pxPayload a.latch) a.latch n).length + (firstBits (fbPayload a.latch) a.latch n).length
  stream : v.stream = a.stream ++ firstBits (pxPayload a.latch) a.latch n
  fbLog : v.fbLog = a.fbLog ++ firstBits (fbPayload a.latch) a.latch n
  mem : v.mem = applyWrites (firstBits (fbPayload a.latch) a.latch n) a.mem

/-- Before the edge at which the outputs are taken the command runs, and DONE is as the accept left it. -/
theorem Served.running {a u : State} {n : Nat} {rest : List Input} (h : Served a n (edgeTake rest u)) :
    u.seq = .expand ∧ u.regs.done = a.regs.done :=
  ⟨(edgeTake_seq rest u).symm.trans h.seq, (edgeTake_done rest u).symm.trans (by rw [h.regs])⟩

/-- The first edge after an accept finds nothing to take. -/
theorem Served.start {a : State} (hs : a.seq = .expand) (hp : a.pend = false) (hb : a.bidx = 0)
    (hemit : a.regs.emitCount = 0) (rest l : List Input) : Served a 0 (edgeTake rest { a with inputs := l }) := by
  have hnone : edgeTake rest { a with inputs := l } = { a with inputs := rest, rst := false } := if_neg (by simp [hp])
  have hcol (s : State) (h : s.bidx = 0) : s.col = 0 := by rw [col_eq, h]; rfl
  rw [hnone]
  exact
    { seq := hs
      pend := hp
      bidx := by rw [hb]; rfl
      latch := rfl
      rowsh := fun h => absurd (hcol _ hb) h
      regs := rfl
      emit := by rw [hemit]; rfl
      stream := (List.append_nil _).symm
      fbLog := (List.append_nil _).symm
      mem := rfl }

/-- One more bit, and the take of its output at the next edge. -/
theorem Served.bit {a v : State} {n : Nat} (h : Served a n v) (hn : n < 64) (rest : List Input) :
    Served a (n + 1) (edgeTake rest (bitStep v)) := by
  have hb : v.bidx.toNat < 64 := h.bidx ▸ hn
  have hsucc : (v.bidx + 1).toNat = n + 1 := by rw [bidx_succ v.bidx hb, h.bidx]
  have hbits {α : Type} (payload : Nat → Nat → Option α) :
      firstBits payload a.latch (n + 1) = firstBits payload a.latch n ++ bitOutput payload a.latch v.row v.col := by
    rw [← hsucc, firstBits_bidx_succ payload a.latch hb, h.bidx]
  have hle := firstBits_length_le a.latch n
  obtain ⟨⟨p, x, f, hbit⟩, hevents, hwrites⟩ := bitStep_output h.rowsh h.pend
  rw [h.latch] at hevents hwrites
  obtain ⟨m, htake, hm⟩ := takeIfReady_of_served (served_of_ready (driveRst false (nextInputs rest (bitStep v))))
  rw [show pendingEvents (driveRst false (nextInputs rest (bitStep v))) = _ from hevents,
    show pendingWrites (driveRst false (nextInputs rest (bitStep v))) = _ from hwrites, hbit] at htake hm
  have hm : m.toNat = v.regs.emitCount.toNat + _ + _ :=
    hm (show v.regs.emitCount.toNat < 127 by rw [h.emit]; omega)
  rw [edgeTake, hbit, htake]
  exact
    { seq := h.seq
      pend := rfl
      bidx := hsucc
      latch := h.latch
      rowsh := rowshOk_shiftBit h.rowsh hb
      regs := by show { v.regs with emitCount := m } = _; rw [h.regs]
      emit := by
        show m.toNat = _
        rw [hm, h.emit, hbits, hbits, List.length_append, List.length_append]
        omega
      stream := by show v.stream ++ _ = _; rw [h.stream, hbits, List.append_assoc]
      fbLog := by show v.fbLog ++ _ = _; rw [h.fbLog, hbits, List.append_assoc]
      mem := by show applyWrites _ v.mem = _; rw [h.mem, hbits, applyWrites_append] }

/-! ### The run (R213, R215) -/

/-- A run and one more step. -/
theorem run_concat {n : Nat} {s u t : State} (hrun : runSteps n s = .next u) (hstep : step u = .next t) :
    runSteps (n + 1) s = .next t := by
  rw [run_add n 1 s u hrun, run_succ 0 u t hstep]
  rfl

/-- The edge after `n` of 65 finds one of them next. -/
theorem replicate_freeClock_sub {n : Nat} (hn : n < 65) (rest : List Input) :
    List.replicate (65 - n) freeClock ++ rest = freeClock :: (List.replicate (64 - n) freeClock ++ rest) := by
  rw [show 65 - n = (64 - n) + 1 by omega, List.replicate_succ, List.cons_append]

/-- Up to 64 edges test one bit each: at the next edge every output so far is taken. -/
theorem run_freeClock {a : State} (hs : a.seq = .expand) (hp : a.pend = false) (hb : a.bidx = 0)
    (hemit : a.regs.emitCount = 0) (rest : List Input) {n : Nat} (hn : n ≤ 64) :
    ∃ u, runSteps n { a with inputs := List.replicate 65 freeClock ++ rest } = .next u
      ∧ u.inputs = List.replicate (65 - n) freeClock ++ rest
      ∧ Served a n (edgeTake (List.replicate (64 - n) freeClock ++ rest) u) := by
  induction n with
  | zero => exact ⟨_, rfl, rfl, Served.start hs hp hb hemit _ _⟩
  | succ n ih =>
    obtain ⟨u, hrun, hin, hserved⟩ := ih (by omega)
    have hstep : step u = .next (bitStep (edgeTake (List.replicate (64 - n) freeClock ++ rest) u)) := by
      rw [step_freeClock (hin.trans (replicate_freeClock_sub (by omega) rest)) hserved.running.1,
        blockStep_of_bitEnabled ((bitEnabled_iff _).mpr ⟨hserved.seq, hserved.pend, by rw [hserved.bidx]; omega⟩)]
    refine ⟨_, run_concat hrun hstep, ?_, hserved.bit (by omega) _⟩
    obtain ⟨⟨p, x, f, hbit⟩, -, -⟩ := bitStep_output hserved.rowsh hserved.pend
    rw [hbit]
    exact (edgeTake_inputs _ u).trans (by rw [show 65 - (n + 1) = 64 - n by omega])

/-- The 65th edge takes the last output and completes the command (R135). -/
theorem run_freeClock_completes {a : State} (hs : a.seq = .expand) (hp : a.pend = false) (hb : a.bidx = 0)
    (hemit : a.regs.emitCount = 0) (rest : List Input) :
    ∃ v, runSteps 65 { a with inputs := List.replicate 65 freeClock ++ rest } = .next (completeStep v)
      ∧ v.inputs = rest ∧ Served a 64 v := by
  obtain ⟨u, hrun, hin, hserved⟩ := run_freeClock hs hp hb hemit rest (le_refl 64)
  have hin : u.inputs = freeClock :: rest := hin
  have hserved : Served a 64 (edgeTake rest u) := hserved
  have hb64 : (edgeTake rest u).bidx = 64 := BitVec.eq_of_toNat_eq hserved.bidx
  have hstep : step u = .next (completeStep (edgeTake rest u)) := by
    rw [step_freeClock hin hserved.running.1,
      blockStep_of_completeEnabled ((completeEnabled_iff _).mpr ⟨hserved.seq, hserved.pend, hb64⟩)]
  exact ⟨_, run_concat hrun hstep, edgeTake_inputs rest u, hserved⟩

/-- Settles O37: the accept starts at bit 0, `run_freeClock` gives the states before the 65th edge and
`run_freeClock_completes` the one after it, whose outputs are those of all 64 bits. -/
theorem drawRunsToCompletion : Obligations.DrawRunsToCompletion := by
  unfold Obligations.DrawRunsToCompletion
  intro sink g s rest hrst hidle heven
  have aligned : misaligned565 (.draw sink g) s = false := by
    cases sink with
    | cb => rfl
    | mono => rfl
    | rgb565 => simp [misaligned565, BitVec.getLsbD, heven rfl]
  have haccept := exec_draw_accepted sink g hrst hidle aligned
  obtain ⟨v, hrun, hin, hv⟩ := run_freeClock_completes (a := acceptedDraw sink g s) rfl rfl rfl rfl rest
  refine ⟨_, _, haccept, hrun, fun n hn => ?_, rfl, hv.pend, hin, hv.latch, ?_, ?_, ?_, ?_, ?_⟩
  · obtain ⟨u, hrun, -, hu⟩ := run_freeClock (a := acceptedDraw sink g s) rfl rfl rfl rfl rest (Nat.le_of_lt_succ hn)
    exact ⟨u, hrun, hu.running⟩
  · show { v.regs with done := true } = _
    rw [hv.regs]
    rfl
  · rw [drawEvents_eq_firstBits, drawWrites_eq_firstBits]
    exact hv.emit
  · rw [drawEvents_eq_firstBits]
    exact hv.stream
  · rw [drawWrites_eq_firstBits]
    exact hv.fbLog
  · rw [drawWrites_eq_firstBits]
    exact hv.mem

end Sys2Proof.Machine
end

section
/-! PROOFS. The clip of the buffer sinks: the origin check, the index of a bit that passes, the source's stopping loop, and
the alignment refusal of DRAW_565. -/

namespace Sys2Proof.Machine

/-! ### The stopping loop as a filter (R148) -/

/-- Along a list whose tests, once failed, stay failed, stopping at the first failure drops nothing but failures. -/
theorem takeWhile_eq_filter_of_pairwise {α : Type} {p : α → Bool} {xs : List α}
    (h : xs.Pairwise fun a b => p b = true → p a = true) : xs.takeWhile p = xs.filter p := by
  induction xs with
  | nil => rfl
  | cons x xs ih =>
    obtain ⟨hx, hxs⟩ := List.pairwise_cons.mp h
    by_cases hp : p x = true
    · rw [List.takeWhile_cons_of_pos hp, List.filter_cons_of_pos hp, ih hxs]
    · rw [List.takeWhile_cons_of_neg hp, List.filter_cons_of_neg hp,
        List.filter_eq_nil_iff.mpr fun y hy hpy => hp (hx y hy hpy)]

/-- Leaving out elements that contribute nothing. -/
theorem flatMap_filter_of_eq_nil {α β : Type} {p : α → Bool} {f : α → List β} {xs : List α}
    (h : ∀ x, p x = false → f x = []) : (xs.filter p).flatMap f = xs.flatMap f := by
  induction xs with
  | nil => rfl
  | cons x xs ih =>
    cases hp : p x with
    | true => rw [List.filter_cons_of_pos hp, List.flatMap_cons, List.flatMap_cons, ih]
    | false => rw [List.filter_cons_of_neg (by simp [hp]), List.flatMap_cons, h x hp, List.nil_append, ih]

/-- The columns the stopping loop reaches are those left of the buffer's right edge: X grows with the column (R147). -/
theorem reachedCols_eq_filter (l : Latch) :
    reachedCols l = (List.range 8).filter fun k => decide (pixelX l k < l.w.toInt) := by
  refine takeWhile_eq_filter_of_pairwise (List.pairwise_lt_range.imp fun hlt hnext => decide_eq_true ?_)
  have hnext := of_decide_eq_true hnext
  unfold pixelX at hnext ⊢
  omega

/-- The rows it reaches are those above the buffer's bottom edge: Y grows with the row (R146). -/
theorem reachedRows_eq_filter (l : Latch) :
    reachedRows l = (List.range 8).filter fun r => decide (pixelY l r < l.h.toInt) := by
  refine takeWhile_eq_filter_of_pairwise (List.pairwise_lt_range.imp fun hlt hnext => decide_eq_true ?_)
  have hnext := of_decide_eq_true hnext
  unfold pixelY at hnext ⊢
  omega

/-! ### The clip (R149) -/

theorem inClip_of_cb {l : Latch} (hk : l.sink = .cb) (r k : Nat) : inClip l r k = true := by
  unfold inClip
  rw [hk]

/-- Both buffer sinks have one clip. -/
theorem inClip_of_ne_cb {l : Latch} (hk : l.sink ≠ .cb) (r k : Nat) :
    inClip l r k = (l.ok && decide (pixelY l r < l.h.toInt) && decide (pixelX l k < l.w.toInt)) := by
  unfold inClip
  cases hs : l.sink with
  | cb => exact absurd hs hk
  | mono => rfl
  | rgb565 => rfl

theorem inClip_iff {l : Latch} (hk : l.sink ≠ .cb) (r k : Nat) :
    inClip l r k = true ↔ l.ok = true ∧ pixelY l r < l.h.toInt ∧ pixelX l k < l.w.toInt := by
  rw [inClip_of_ne_cb hk, Bool.and_eq_true, Bool.and_eq_true, decide_eq_true_iff, decide_eq_true_iff, and_assoc]

/-- No bit passes after a failed origin check (R145). -/
theorem inClip_of_not_ok {l : Latch} (hk : l.sink ≠ .cb) (hok : l.ok = false) (r k : Nat) : inClip l r k = false := by
  rw [inClip_of_ne_cb hk, hok]
  rfl

/-- Nor in a row at or past the bottom edge (R146). -/
theorem inClip_of_row_past {l : Latch} (hk : l.sink ≠ .cb) {r : Nat} (hr : decide (pixelY l r < l.h.toInt) = false)
    (k : Nat) : inClip l r k = false := by
  rw [inClip_of_ne_cb hk, hr, Bool.and_false]
  rfl

/-! ### The two loops (R126, R148) -/

/-- The writes of one row of the loop over all 64 bits. -/
def rowWrites (l : Latch) (r : Nat) : List FbWrite :=
  (List.range 8).filterMap fun k => if passes l r k then fbPayload l r k else none

theorem drawWrites_eq_rows (l : Latch) : drawWrites l = (List.range 8).flatMap (rowWrites l) := rfl

theorem rowWrites_of_clipped {l : Latch} {r : Nat} (h : ∀ k, inClip l r k = false) : rowWrites l r = [] := by
  simp [rowWrites, passes, h]

/-- In a row it reaches, the stopping loop makes the row's writes. -/
theorem reachedCols_filterMap {l : Latch} (hk : l.sink ≠ .cb) (hok : l.ok = true) {r : Nat}
    (hr : pixelY l r < l.h.toInt) :
    ((reachedCols l).filterMap fun k => if l.gl.bit r k then fbPayload l r k else none) = rowWrites l r := by
  rw [reachedCols_eq_filter, List.filterMap_filter, rowWrites]
  refine List.filterMap_congr fun k _ => ?_
  have hclip : inClip l r k = decide (pixelX l k < l.w.toInt) := by
    rw [inClip_of_ne_cb hk, hok, decide_eq_true hr, Bool.true_and, Bool.true_and]
  rw [passes, hclip, Bool.and_comm]
  cases decide (pixelX l k < l.w.toInt) <;> rfl

/-- Settles O31: stopping is filtering (`reachedRows_eq_filter`, `reachedCols_eq_filter`), and the rows left out are
clipped whole. -/
theorem stoppingLoopMakesTheSameWrites : Obligations.StoppingLoopMakesTheSameWrites := by
  unfold Obligations.StoppingLoopMakesTheSameWrites
  intro l hk
  rw [drawWrites_eq_rows, stoppingWrites]
  cases hok : l.ok with
  | false =>
    exact (List.flatMap_eq_nil_iff.mpr fun r _ => rowWrites_of_clipped (inClip_of_not_ok hk hok r)).symm
  | true =>
    calc (reachedRows l).flatMap (fun r =>
          (reachedCols l).filterMap fun k => if l.gl.bit r k then fbPayload l r k else none)
        = (reachedRows l).flatMap (rowWrites l) := List.flatMap_congr fun r hr => by
          rw [reachedRows_eq_filter, List.mem_filter, decide_eq_true_iff] at hr
          exact reachedCols_filterMap hk hok hr.2
      _ = (List.range 8).flatMap (rowWrites l) := by
          rw [reachedRows_eq_filter]
          exact flatMap_filter_of_eq_nil fun r hr => rowWrites_of_clipped (inClip_of_row_past hk hr)

/-! ### The origin check and the element index (R145, R150) -/

theorem originOk_iff (ox oy w h : Word) :
    originOk ox oy w h = true ↔ 0 ≤ ox.toInt ∧ ox.toInt < w.toInt ∧ 0 ≤ oy.toInt ∧ oy.toInt < h.toInt := by
  simp [originOk, and_assoc]

theorem latchOk_ok {l : Latch} (hk : l.sink ≠ .cb) (hl : latchOk l) : l.ok = originOk l.ox l.oy l.w l.h := by
  unfold latchOk at hl
  cases hs : l.sink with
  | cb => exact absurd hs hk
  | mono =>
    rw [hs] at hl
    exact hl
  | rgb565 =>
    rw [hs] at hl
    exact hl.1

/-- No coordinate of a buffer command whose origin passed is negative (R149). -/
theorem pixel_nonneg {l : Latch} (hk : l.sink ≠ .cb) (hl : latchOk l) (hok : l.ok = true) (r k : Nat) :
    0 ≤ pixelX l k ∧ 0 ≤ pixelY l r := by
  obtain ⟨hx, -, hy, -⟩ := (originOk_iff _ _ _ _).mp ((latchOk_ok hk hl).symm.trans hok)
  unfold pixelX pixelY
  omega

/-- The row-major index of a point of a `w` by `h` buffer is below its size. -/
theorem rowMajor_bounds {x y w h : Int} (hx : 0 ≤ x) (hxw : x < w) (hy : 0 ≤ y) (hyh : y < h) :
    0 ≤ y * w + x ∧ y * w + x < w * h := by
  have hw : 0 ≤ w := by omega
  refine ⟨Int.add_nonneg (Int.mul_nonneg hy hw) hx, ?_⟩
  calc y * w + x < y * w + w := by omega
    _ = (y + 1) * w := by ring
    _ ≤ h * w := Int.mul_le_mul_of_nonneg_right hyh hw
    _ = w * h := Int.mul_comm h w

/-- Settles O29: the clip by `inClip_iff`, the coordinates by `pixel_nonneg`, the index by `rowMajor_bounds`. -/
theorem clippedIndexIsInsideTheBuffer : Obligations.ClippedIndexIsInsideTheBuffer := by
  unfold Obligations.ClippedIndexIsInsideTheBuffer
  refine ⟨fun l r k => ⟨fun hk => inClip_of_cb hk r k, fun hk => inClip_iff hk r k,
    fun hk hl hok => pixel_nonneg hk hl hok r k⟩, fun l r k hk hl hc => ?_⟩
  obtain ⟨hok, hyh, hxw⟩ := (inClip_iff hk r k).mp hc
  obtain ⟨hx, hy⟩ := pixel_nonneg hk hl hok r k
  exact ⟨hx, hxw, hy, hyh, rfl, rowMajor_bounds hx hxw hy hyh⟩

/-! ### The accept of the buffer commands (R145, R155) -/

/-- The alignment check of DRAW_565 as the parity of FB_BASE. -/
theorem misaligned565_rgb565 (g : Bool) (s : State) :
    misaligned565 (.draw .rgb565 g) s = decide (s.regs.fbBase.toNat % 2 = 1) := by
  simp [misaligned565, BitVec.getLsbD]

/-- Both forms of DRAW_565 on an odd base. -/
theorem exec_draw565_of_odd (g : Bool) {s : State} (hrst : s.rst = false) (hidle : s.seq = .idle)
    (hodd : s.regs.fbBase.toNat % 2 = 1) :
    exec (Command.draw .rgb565 g).toInstr s = .next (respond 0 false (raise .align s)) := by
  rw [exec_command _ s hrst, presentCommand_align _ s hidle ((misaligned565_rgb565 g s).trans (decide_eq_true hodd))]

/-- Settles O24: `exec_draw565_of_odd` at the two forms. -/
theorem draw565OnOddBaseIsRefused : Obligations.Draw565OnOddBaseIsRefused := by
  unfold Obligations.Draw565OnOddBaseIsRefused
  exact fun s hrst hidle hodd =>
    ⟨exec_draw565_of_odd false hrst hidle hodd, exec_draw565_of_odd true hrst hidle hodd⟩

/-- The accept of an aligned buffer command latches the origin check. -/
theorem exec_draw_latches_originOk {k : Sink} (hk : k ≠ .cb) (g : Bool) {s : State} (hrst : s.rst = false)
    (hidle : s.seq = .idle) (hm : misaligned565 (.draw k g) s = false) :
    ∃ t, exec (Command.draw k g).toInstr s = .next t ∧ t.seq = .expand
      ∧ t.latch.ok = originOk s.regs.orgX s.regs.orgY s.regs.fbW s.regs.fbH := by
  refine ⟨_, exec_draw_accepted k g hrst hidle hm, rfl, ?_⟩
  cases k with
  | cb => exact absurd rfl hk
  | mono => rfl
  | rgb565 => rfl

/-- Settles O28: `originOk_iff`; a failed check clips every bit (`inClip_of_not_ok`) and the stopping loop does not start;
the accept is `exec_draw_latches_originOk`. -/
theorem originCheckOnIntegers : Obligations.OriginCheckOnIntegers := by
  unfold Obligations.OriginCheckOnIntegers
  refine ⟨originOk_iff, fun ox oy w h hwh => ?_, fun l hk hok => ⟨inClip_of_not_ok hk hok, ?_⟩,
    fun s i hrst hidle hi => ?_⟩
  · rw [Bool.eq_false_iff, Ne, originOk_iff]
    omega
  · rw [← stoppingLoopMakesTheSameWrites l hk, stoppingWrites, hok]
    rfl
  · have latches {k : Sink} (hk : k ≠ .cb) (g : Bool) (hm : misaligned565 (.draw k g) s = false) :=
      exec_draw_latches_originOk hk g hrst hidle hm
    rcases hi with hmono | ⟨h565, heven⟩
    · rcases List.mem_pair.mp hmono with rfl | rfl
      · exact latches (k := .mono) (by decide) false rfl
      · exact latches (k := .mono) (by decide) true rfl
    · have aligned (g : Bool) : misaligned565 (.draw .rgb565 g) s = false := by
        rw [misaligned565_rgb565, decide_eq_false_iff_not, heven]
        decide
      rcases List.mem_pair.mp h565 with rfl | rfl
      · exact latches (by decide) false (aligned false)
      · exact latches (by decide) true (aligned true)

end Sys2Proof.Machine
end

section
/-! PROOFS. The host's text layout: where a text ends, what the scan of `layout` does to its cursor and which calls it
makes, and the metrics of a text. -/

namespace Sys2Proof.Machine

/-! ### The characters of a text (R166) -/

/-- Characters without a NUL are all scanned before what follows them. -/
theorem textChars_append {text : List Byte} (h : 0 ∉ text) (more : List Byte) :
    textChars (text ++ more) = text ++ textChars more := by
  induction text with
  | nil => rfl
  | cons c rest ih =>
    obtain ⟨hc, hrest⟩ := List.ne_and_not_mem_of_not_mem_cons h
    rw [List.cons_append, textChars, if_neg hc.symm, ih hrest, List.cons_append]

theorem textChars_of_no_nul {text : List Byte} (h : 0 ∉ text) : textChars text = text := by
  simpa [textChars] using textChars_append h []

/-- A NUL ends the text, whatever stands after it. -/
theorem textChars_append_nul (text more : List Byte) : textChars (text ++ 0 :: more) = textChars text := by
  induction text with
  | nil => rfl
  | cons c rest ih => rw [List.cons_append, textChars, ih, textChars]

/-! ### The scan of `layout` (R166, R172) -/

theorem layoutFrom_newline (sx : Int) (rest : List Byte) (cur : Int × Int) :
    layoutFrom sx (newline :: rest) cur = layoutFrom sx rest (sx, cur.2 + 8) := rfl

theorem layoutFrom_char (sx : Int) {c : Byte} (hc : c ≠ newline) (rest : List Byte) (cur : Int × Int) :
    layoutFrom sx (c :: rest) cur =
      (⟨c, cur.1, cur.2⟩ :: (layoutFrom sx rest (cur.1 + 8, cur.2)).1, (layoutFrom sx rest (cur.1 + 8, cur.2)).2) := by
  have hnext : cursorNext sx c cur = (cur.1 + 8, cur.2) := if_neg hc
  rw [layoutFrom, hnext, if_neg hc]

/-- The scan goes on after a part of the text from the cursor that part leaves. -/
theorem layoutFrom_append (sx : Int) (a b : List Byte) (cur : Int × Int) :
    layoutFrom sx (a ++ b) cur =
      ((layoutFrom sx a cur).1 ++ (layoutFrom sx b (layoutFrom sx a cur).2).1,
        (layoutFrom sx b (layoutFrom sx a cur).2).2) := by
  induction a generalizing cur with
  | nil => rfl
  | cons c rest ih =>
    by_cases hc : c = newline
    · subst hc
      rw [List.cons_append, layoutFrom_newline, layoutFrom_newline, ih]
    · rw [List.cons_append, layoutFrom_char sx hc, layoutFrom_char sx hc, ih, List.cons_append]

/-- Each character of a line moves the cursor one glyph width to the right. -/
theorem layoutFrom_cursor_of_line (sx : Int) {line : List Byte} (h : newline ∉ line) (cur : Int × Int) :
    (layoutFrom sx line cur).2 = (cur.1 + 8 * line.length, cur.2) := by
  induction line generalizing cur with
  | nil => simp [layoutFrom]
  | cons c rest ih =>
    obtain ⟨hc, hrest⟩ := List.ne_and_not_mem_of_not_mem_cons h
    rw [layoutFrom_char sx hc.symm, ih hrest, List.length_cons]
    push_cast
    ring_nf

/-- Each newline moves the cursor one glyph height down, and nothing else does. -/
theorem layoutFrom_cursor_y (sx : Int) (text : List Byte) (cur : Int × Int) :
    (layoutFrom sx text cur).2.2 = cur.2 + 8 * (text.filter fun c => c = newline).length := by
  induction text generalizing cur with
  | nil => simp [layoutFrom]
  | cons c rest ih =>
    by_cases hc : c = newline
    · subst hc
      rw [layoutFrom_newline, ih, List.filter_cons_of_pos (by simp), List.length_cons]
      push_cast
      ring
    · rw [layoutFrom_char sx hc, ih, List.filter_cons_of_neg (by simpa using hc)]

/-- The calls carry the characters that are no newline, in order. -/
theorem layoutFrom_calls_ch (sx : Int) (text : List Byte) (cur : Int × Int) :
    (layoutFrom sx text cur).1.map (fun c => c.ch) = text.filter fun c => c ≠ newline := by
  induction text generalizing cur with
  | nil => rfl
  | cons c rest ih =>
    by_cases hc : c = newline
    · subst hc
      rw [layoutFrom_newline, ih, List.filter_cons_of_neg (by simp)]
    · rw [layoutFrom_char sx hc, List.map_cons, ih, List.filter_cons_of_pos (by simpa using hc)]

/-! ### `layout` and its return value (R166, R169) -/

/-- `layout` returns the width of a last line, which starts at the start column. -/
theorem layoutReturn_of_line {line : List Byte} (hnul : 0 ∉ line) (hline : newline ∉ line) (sx sy : Int) :
    layoutReturn line sx sy = 8 * line.length := by
  rw [layoutReturn, textChars_of_no_nul hnul, layoutFrom_cursor_of_line sx hline]
  ring

/-- Settles O56: a newline sets the column back to the start (`layoutFrom_newline`), and the line after it moves the
cursor from there (`layoutFrom_cursor_of_line`). -/
theorem layoutReturnsTheLastLineWidth : Obligations.LayoutReturnsTheLastLineWidth := by
  unfold Obligations.LayoutReturnsTheLastLineWidth
  refine ⟨fun text tail sx sy htext hnul hline => ?_, fun tail sx sy hnul hline => layoutReturn_of_line hnul hline sx sy,
    fun text more sx sy => ?_⟩
  · have hchars : textChars (text ++ newline :: tail) = text ++ newline :: tail := by
      rw [textChars_append htext, textChars, if_neg (by decide), textChars_of_no_nul hnul]
    rw [layoutReturn, hchars, layoutFrom_append, layoutFrom_newline, layoutFrom_cursor_of_line sx hline]
    ring
  · rw [layoutReturn, textChars_append_nul, layoutReturn]

/-- Settles O58: the call for a character comes after those of the text before it, at the cursor that text leaves
(`layoutFrom_append`). -/
theorem layoutCallsFollowTheCursor : Obligations.LayoutCallsFollowTheCursor := by
  unfold Obligations.LayoutCallsFollowTheCursor
  refine ⟨fun text sx sy hnul => ?_, fun before after c sx sy hnul hc hline => ?_, fun text hnul => ?_⟩
  · rw [layoutCalls, textChars_of_no_nul hnul, layoutFrom_calls_ch]
  · have hchars : textChars (before ++ c :: after) = before ++ c :: textChars after := by
      rw [textChars_append hnul, textChars, if_neg hc]
    have hlength : (layoutFrom sx before (sx, sy)).1.length = (before.filter fun c => c ≠ newline).length := by
      rw [← layoutFrom_calls_ch sx before (sx, sy), List.length_map]
    have hx : (layoutFrom sx before (sx, sy)).2.1 = sx + layoutReturn before sx sy := by
      rw [layoutReturn, textChars_of_no_nul hnul]
      ring
    rw [layoutCalls, hchars, layoutFrom_append, layoutFrom_char sx hline, ← hlength,
      List.getElem?_append_right (Nat.le_refl _), Nat.sub_self, List.getElem?_cons_zero, hx, layoutFrom_cursor_y]
  · rw [textHeight, textChars_of_no_nul hnul]
    rfl

/-! ### `text_width` (R170) -/

theorem widthFrom_newline (rest : List Byte) (line maxw : Nat) :
    widthFrom (newline :: rest) line maxw = widthFrom rest 0 (max maxw line) := rfl

theorem widthFrom_char {c : Byte} (hc : c ≠ newline) (rest : List Byte) (line maxw : Nat) :
    widthFrom (c :: rest) line maxw = widthFrom rest (line + 8) maxw := if_neg hc

/-- Each character of a line adds one glyph width to it. -/
theorem widthFrom_append_of_line {l : List Byte} (h : newline ∉ l) (rest : List Byte) (line maxw : Nat) :
    widthFrom (l ++ rest) line maxw = widthFrom rest (line + 8 * l.length) maxw := by
  induction l generalizing line with
  | nil => rfl
  | cons c l ih =>
    obtain ⟨hc, hl⟩ := List.ne_and_not_mem_of_not_mem_cons h
    rw [List.cons_append, widthFrom_char hc.symm, ih hl, List.length_cons]
    congr 1
    ring

/-- The maximum so far is one of those the result is the largest of. -/
theorem widthFrom_maxw (text : List Byte) (line maxw : Nat) :
    widthFrom text line maxw = max maxw (widthFrom text line 0) := by
  induction text generalizing line maxw with
  | nil => simp [widthFrom]
  | cons c rest ih =>
    by_cases hc : c = newline
    · subst hc
      rw [widthFrom_newline, widthFrom_newline, ih 0 (max maxw line), ih 0 (max 0 line), Nat.zero_max, max_assoc]
    · rw [widthFrom_char hc, widthFrom_char hc, ih]

/-- Settles O57: the line's width is in the maximum before the reset at its newline, and the rest adds its own
(`widthFrom_maxw`). -/
theorem textWidthIsTheWidestLine : Obligations.TextWidthIsTheWidestLine := by
  unfold Obligations.TextWidthIsTheWidestLine
  refine ⟨fun line rest hnul hline => ?_, fun line hnul hline => ?_, fun text more => ?_⟩
  · rw [textWidth, textChars_append hnul, textChars, if_neg (by decide), widthFrom_append_of_line hline,
      widthFrom_newline, widthFrom_maxw, Nat.zero_add, Nat.zero_max, textWidth]
  · have hwidth := widthFrom_append_of_line hline [] 0 0
    rw [List.append_nil] at hwidth
    rw [textWidth, textChars_of_no_nul hnul, hwidth, widthFrom, Nat.zero_max, Nat.zero_add]
  · rw [textWidth, textChars_append_nul, textWidth]

/-! ### Bytes from 0x80 on (R174) -/

/-- Sign extension puts ones in the 24 upper bits of a byte from 0x80 on. -/
theorem toNat_signExtend_of_high {ch : Byte} (h : 0x80 ≤ ch.toNat) :
    (ch.signExtend 32).toNat = ch.toNat + (2 ^ 32 - 2 ^ 8) := by
  have hmsb : ch.msb = true := by rw [BitVec.msb_eq_decide]; exact decide_eq_true h
  have hlt := ch.isLt
  rw [BitVec.toNat_signExtend, hmsb, BitVec.toNat_setWidth, if_pos rfl]
  omega

/-- Settles O59: in both extensions the code is above 126 as an unsigned word, so it is read as that of the space. -/
theorem highBytesDrawSpace : Obligations.HighBytesDrawSpace := by
  unfold Obligations.HighBytesDrawSpace
  intro ch signedChar hhigh
  have hzero : (charCode false ch).toNat = ch.toNat := by
    have := ch.isLt
    rw [charCode, if_neg Bool.false_ne_true, BitVec.toNat_setWidth]
    omega
  have hsign : (charCode true ch).toInt = ch.toInt := BitVec.toInt_signExtend_of_le (by decide)
  have habove : 126 < (charCode signedChar ch).toNat := by
    cases signedChar with
    | false => omega
    | true =>
      rw [charCode, if_pos rfl, toNat_signExtend_of_high hhigh]
      omega
  exact ⟨.inr habove, ⟨hzero, hsign⟩, fun r hr => ⟨glyphRow_of_not_inRange r (by omega), glyphRow_space hr⟩⟩

end Sys2Proof.Machine
end

section
/-! PROOFS. The histories a running command will leave, which nothing but an accept changes, and what the block does
between two accesses of the driver. -/

namespace Sys2Proof.Machine

/-! ### The outputs of the bits not yet tested (R126) -/

/-- The loop's outputs for the bits from `n` on. -/
def restBits {α : Type} (payload : Nat → Nat → Option α) (l : Latch) (n : Nat) : List α :=
  (List.range' n (64 - n)).filterMap fun i => if passes l (i / 8) (i % 8) then payload (i / 8) (i % 8) else none

theorem restBits_zero {α : Type} (payload : Nat → Nat → Option α) (l : Latch) :
    restBits payload l 0 = drawLoop payload l := by
  rw [drawLoop_eq_firstBits, firstBits, List.range_eq_range']
  rfl

theorem restBits_end {α : Type} (payload : Nat → Nat → Option α) (l : Latch) : restBits payload l 64 = [] := rfl

theorem restBits_of_lt {α : Type} (payload : Nat → Nat → Option α) (l : Latch) {n : Nat} (h : n < 64) :
    restBits payload l n = bitOutput payload l (n / 8) (n % 8) ++ restBits payload l (n + 1) := by
  rw [restBits, show 64 - n = (64 - (n + 1)) + 1 by omega, List.range'_succ, List.filterMap_cons, bitOutput, restBits]
  cases (if passes l (n / 8) (n % 8) then payload (n / 8) (n % 8) else none) <;> rfl

/-- What a running command has still to output after its pending output. -/
def untested {α : Type} (payload : Latch → Nat → Nat → Option α) (s : State) : List α :=
  if s.seq = .expand then restBits (payload s.latch) s.latch s.bidx.toNat else []

theorem untested_of_idle {α : Type} (payload : Latch → Nat → Nat → Option α) {s : State} (h : s.seq = .idle) :
    untested payload s = [] := if_neg (by simp [h])

/-- At the completion nothing is left (R135). -/
theorem untested_of_complete {α : Type} (payload : Latch → Nat → Nat → Option α) {s : State} (h : s.bidx = 64) :
    untested payload s = [] := by
  unfold untested
  rw [h]
  split
  · exact restBits_end _ _
  · rfl

/-- A bit step outputs the first of the bits that were left (R131). -/
theorem untested_bitStep {α : Type} (payload : Latch → Nat → Nat → Option α) {s : State} (hbit : s.bitEnabled = true)
    (hrow : rowshOk s) :
    untested payload s = bitOutput (payload s.latch) s.latch s.row s.col ++ untested payload (bitStep s) := by
  obtain ⟨hs, hp, hb⟩ := (bitEnabled_iff s).mp hbit
  obtain ⟨⟨p, x, f, e⟩, -, -⟩ := bitStep_output hrow hp
  have hnext : untested payload (bitStep s) = restBits (payload s.latch) s.latch (s.bidx.toNat + 1) := by
    rw [e, ← bidx_succ s.bidx hb]
    exact if_pos hs
  rw [hnext, untested, if_pos hs, restBits_of_lt _ _ hb, row_eq s hb, col_eq]

/-! ### The histories as the running command will leave them -/

/-- The stream history with every output of the running command in it (R126, R134). -/
def dueStream (s : State) : List PixelEvent := s.stream ++ pendingEvents s ++ untested pxPayload s

/-- The write history with every output of the running command in it (R126, R134). -/
def dueWrites (s : State) : List FbWrite := s.fbLog ++ pendingWrites s ++ untested fbPayload s

theorem dueStream_of_not_pend {s : State} (hp : s.pend = false) : dueStream s = s.stream ++ untested pxPayload s := by
  rw [dueStream, pendingEvents_of_not_pend hp, List.append_nil]

theorem dueWrites_of_not_pend {s : State} (hp : s.pend = false) : dueWrites s = s.fbLog ++ untested fbPayload s := by
  rw [dueWrites, pendingWrites_of_not_pend hp, List.append_nil]

theorem dueStream_of_idle {s : State} (hs : s.seq = .idle) (hp : s.pend = false) : dueStream s = s.stream := by
  rw [dueStream_of_not_pend hp, untested_of_idle _ hs, List.append_nil]

theorem dueWrites_of_idle {s : State} (hs : s.seq = .idle) (hp : s.pend = false) : dueWrites s = s.fbLog := by
  rw [dueWrites_of_not_pend hp, untested_of_idle _ hs, List.append_nil]

/-- An accept adds all outputs of its command (R99, R126). -/
theorem dueStream_startDraw (k : Sink) (s : State) :
    dueStream (startDraw k s) = s.stream ++ drawEvents (sampleLatch k s.regs) := by
  have hall : untested pxPayload (startDraw k s) = drawEvents (sampleLatch k s.regs) := restBits_zero _ _
  rw [dueStream_of_not_pend rfl, hall, startDraw_stream]

theorem dueWrites_startDraw (k : Sink) (s : State) :
    dueWrites (startDraw k s) = s.fbLog ++ drawWrites (sampleLatch k s.regs) := by
  have hall : untested fbPayload (startDraw k s) = drawWrites (sampleLatch k s.regs) := restBits_zero _ _
  rw [dueWrites_of_not_pend rfl, hall, startDraw_fbLog]

/-! ### What the block does between two accesses of the driver -/

/-- `t` comes from `v` without a host access: only DONE and EMIT_COUNT of the registers have changed, an idle block is
still idle, and the histories come out as they were due. -/
structure Undisturbed (v t : State) : Prop where
  inv : Inv t
  rst : v.rst = false → t.rst = false
  hRdata : t.hRdata = v.hRdata
  regs : ∃ done n, t.regs = { v.regs with done := done, emitCount := n }
  idle : v.seq = .idle → t.seq = .idle
  stream : dueStream t = dueStream v
  writes : dueWrites t = dueWrites v

theorem Undisturbed.trans {s t u : State} (h : Undisturbed s t) (k : Undisturbed t u) : Undisturbed s u where
  inv := k.inv
  rst := k.rst ∘ h.rst
  hRdata := k.hRdata.trans h.hRdata
  regs := by
    obtain ⟨_, _, ht⟩ := h.regs
    obtain ⟨done, n, hu⟩ := k.regs
    exact ⟨done, n, by rw [hu, ht]⟩
  idle := k.idle ∘ h.idle
  stream := k.stream.trans h.stream
  writes := k.writes.trans h.writes

theorem Undisturbed.refl {s : State} (h : Inv s) : Undisturbed s s :=
  ⟨h, id, rfl, ⟨_, _, rfl⟩, id, rfl, rfl⟩

/-- A take only moves the pending output into its history (R134). -/
theorem undisturbed_take {s : State} (hI : Inv s) (px fb : Bool) : Undisturbed s (takeIfReady px fb s) := by
  have htaken := hI.take px fb
  rcases takeIfReady_cases px fb s with ⟨_, hready, _⟩ | ⟨_, e⟩
  · obtain ⟨n, e, -⟩ := takeIfReady_of_served (.inr hready)
    rw [e] at htaken ⊢
    exact ⟨htaken, id, rfl, ⟨_, _, rfl⟩, id, dueStream_of_not_pend rfl, dueWrites_of_not_pend rfl⟩
  · rw [e]
    exact .refl hI

/-- A bit step makes the next output the pending one (R131). -/
theorem undisturbed_bitStep {s : State} (hI : Inv s) (hbit : s.bitEnabled = true) : Undisturbed s (bitStep s) := by
  obtain ⟨hs, hp, -⟩ := (bitEnabled_iff s).mp hbit
  have hrow := hI.rowsh hs
  obtain ⟨⟨p, x, f, e⟩, hevents, hwrites⟩ := bitStep_output hrow hp
  have hstream : (bitStep s).stream = s.stream := by rw [e]; rfl
  have hlog : (bitStep s).fbLog = s.fbLog := by rw [e]; rfl
  have hinv := hI.bitStep hbit
  refine ⟨hinv, ?_, ?_, ?_, ?_, ?_, ?_⟩
  · rw [e]; exact id
  · rw [e]; rfl
  · rw [e]; exact ⟨_, _, rfl⟩
  · rw [e]; exact id
  · rw [dueStream_of_not_pend hp, dueStream, hstream, hevents, List.append_assoc, ← untested_bitStep _ hbit hrow]
  · rw [dueWrites_of_not_pend hp, dueWrites, hlog, hwrites, List.append_assoc, ← untested_bitStep _ hbit hrow]

/-- The block's own step (R131, R135, R194). -/
theorem undisturbed_blockStep {s : State} (hI : Inv s) : Undisturbed s (blockStep s) := by
  have hinv := hI.blockStep
  rcases blockStep_cases s with ⟨hbit, e⟩ | ⟨_, hc, e⟩ | ⟨_, _, e⟩ <;> rw [e] at hinv ⊢
  · exact undisturbed_bitStep hI hbit
  · obtain ⟨-, hp, hb⟩ := (completeEnabled_iff s).mp hc
    have hidle : (completeStep s).seq = .idle := rfl
    refine ⟨hinv, id, rfl, ⟨_, _, rfl⟩, fun _ => rfl, ?_, ?_⟩
    · rw [dueStream_of_idle hidle hp, dueStream_of_not_pend hp, untested_of_complete _ hb, List.append_nil,
        completeStep_stream]
    · rw [dueWrites_of_idle hidle hp, dueWrites_of_not_pend hp, untested_of_complete _ hb, List.append_nil,
        completeStep_fbLog]
  · exact .refl hI

/-- The block's part of a rising edge (R213). -/
theorem undisturbed_blockEdge {s : State} (hI : Inv s) (wasBusy px fb : Bool) :
    Undisturbed s (blockEdge wasBusy px fb s) := by
  unfold blockEdge
  split
  · exact (undisturbed_take hI px fb).trans (undisturbed_blockStep (hI.take px fb))
  · exact .refl hI

/-- Releasing the reset pin (R204). -/
theorem undisturbed_release {s : State} (hI : Inv s) : Undisturbed s (driveRst false s) :=
  ⟨hI.release, fun _ => rfl, rfl, ⟨_, _, rfl⟩, id, rfl, rfl⟩

/-- Every turn that is neither the driver's own nor one of another host or of reset (R168). -/
theorem undisturbed_other {i : Input} {s t : State} (hI : Inv s) (hi : (Turn.other i).servesDriver = true)
    (h : step (presentInput i s) = .next t) : Undisturbed s t := by
  rw [step_presentInput] at h
  cases i with
  | host x => cases hi
  | block =>
    injection h with h
    exact h ▸ undisturbed_blockStep hI
  | pxReady =>
    injection h with h
    exact h ▸ undisturbed_take hI true false
  | fbReady =>
    injection h with h
    exact h ▸ undisturbed_take hI false true
  | rst level =>
    injection h with h
    cases level with
    | true => cases hi
    | false => exact h ▸ undisturbed_release hI
  | clock p =>
    obtain ⟨hrst, htxn⟩ : p.rst = false ∧ p.txn = none := by simpa [Turn.servesDriver] using hi
    have hedge := (clockEdge_eq p s).symm.trans h
    rw [hrst, htxn] at hedge
    injection hedge with hedge
    exact hedge ▸ (undisturbed_release hI).trans (undisturbed_blockEdge hI.release _ _ _)
  | agentWrite w =>
    rw [show runInput (.agentWrite w) s = agentWrite w s from rfl, agentWrite] at h
    split at h
    · cases h
    · injection h with h
      exact h ▸ ⟨hI.agentWrite w, id, rfl, ⟨_, _, rfl⟩, id, rfl, rfl⟩
  | agentRead a size =>
    injection h with h
    exact h ▸ ⟨hI.agentRead a size, id, rfl, ⟨_, _, rfl⟩, id, rfl, rfl⟩

end Sys2Proof.Machine
end

section
/-! PROOFS. The layout driver: which line its program is on, what the block holds at that line, and that some schedule
takes it to its end. -/

namespace Sys2Proof.Machine

/-! ### One turn (R82, R90) -/

/-- A host access leaves the reset pin. -/
theorem accessOfFields_rst (x : HT) (s : State) : (accessOfFields x s).rst = s.rst := by
  have kept := hostAccess_keepsPlatform (htW x) (htSz x) (htOff x) (htData x) s
  rw [hostAccess_eq_accessOfFields, KeepsPlatform] at kept
  rw [kept]

theorem Inv.accessOfFields {s : State} (h : Inv s) (x : HT) : Inv (accessOfFields x s) := by
  rw [← hostAccess_eq_accessOfFields]
  exact h.hostAccess _ _ _ _

/-- A word write of the assembler, outside reset (R80, R91). -/
theorem accessOfFields_asmWr (r : Reg) (d : Word) {s : State} (h : s.rst = false) :
    accessOfFields (asmWr r d) s = respond 0 false (writeNamed r d s) := by
  rw [← hostAccess_eq_accessOfFields, hostAccess_asmWr r d s h]

/-- The read of `wait_idle`, outside reset (R82, R91). -/
theorem accessOfFields_asmWaitIdle {s : State} (h : s.rst = false) :
    accessOfFields asmWaitIdle s = respond (statusWord s) false s := by
  rw [← hostAccess_eq_accessOfFields, hostAccess_asmWaitIdle s h]

/-- The host goes on by the data of its response alone (R82). -/
theorem advance_congr {s t : State} (h : t.hRdata = s.hRdata) (p : HostProgram) : advance t p = advance s p := by
  unfold advance waitIdleDone
  rw [h]

/-- The host's own turn with a transaction to present. -/
theorem driverTurn_host_next {p : HostProgram} {x : HT} (s : State) (hx : nextTxn p = some x) :
    driverTurn .host ⟨p, s⟩ = .next ⟨advance (accessOfFields x s) p, accessOfFields x s⟩ := by
  rw [driverTurn_host p x s hx, hostAccess_eq_accessOfFields]

/-- The host's turn at a rising edge: its access, where it has one, and then the block's part (R90, R213). -/
theorem driverTurn_edge (p : HostProgram) {s u : State} (h : s.rst = false) {px fb : Bool}
    (hu : u = blockEdge s.busy px fb ((nextTxn p).elim s fun x => accessOfFields x s)) :
    driverTurn (.edge px fb) ⟨p, s⟩ = .next ⟨advance u p, u⟩ := by
  have hrelease : driveRst false s = s := by rw [driveRst_false, ← h]
  have hstep : step (presentInput (.clock ⟨false, nextTxn p, px, fb⟩) s) = .next (blockEdge s.busy px fb
      ((nextTxn p).elim (driveRst false s) fun x => accessOfFields x (driveRst false s))) := step_clock rfl
  rw [hrelease, ← hu] at hstep
  simp only [driverTurn, hstep, onNext_next]

/-- A program without a next transaction has ended. -/
theorem eq_nil_of_nextTxn {p : HostProgram} (h : nextTxn p = none) : p = [] := by
  cases p with
  | nil => rfl
  | cons line rest => cases line <;> cases h

/-- A turn that serves the driver is at most the program's next access, and then something that leaves the block
undisturbed. -/
theorem driverTurn_cases {turn : Turn} {d e : Driven} (hturn : turn.servesDriver = true) (hI : Inv d.machine)
    (hrst : d.machine.rst = false) (h : driverTurn turn d = .next e) :
    (e.prog = d.prog ∧ Undisturbed d.machine e.machine)
      ∨ ∃ x, nextTxn d.prog = some x ∧ e.prog = advance (accessOfFields x d.machine) d.prog
          ∧ Undisturbed (accessOfFields x d.machine) e.machine := by
  obtain ⟨p, s⟩ := d
  cases turn with
  | host =>
    cases hx : nextTxn p with
    | none =>
      simp only [driverTurn, hx] at h
      injection h with h
      exact .inl (h ▸ ⟨rfl, .refl hI⟩)
    | some x =>
      rw [driverTurn_host_next s hx] at h
      injection h with h
      exact .inr ⟨x, rfl, h ▸ ⟨rfl, .refl (hI.accessOfFields x)⟩⟩
  | edge px fb =>
    rw [driverTurn_edge p hrst rfl] at h
    injection h with h
    cases hx : nextTxn p with
    | none =>
      rw [hx, eq_nil_of_nextTxn hx] at h
      rw [eq_nil_of_nextTxn hx]
      exact .inl (h ▸ ⟨rfl, undisturbed_blockEdge hI _ _ _⟩)
    | some x =>
      rw [hx] at h
      have hquiet := undisturbed_blockEdge (hI.accessOfFields x) s.busy px fb
      exact .inr ⟨x, rfl, h ▸ ⟨advance_congr hquiet.hRdata p, hquiet⟩⟩
  | other i =>
    obtain ⟨u, hstep, h⟩ := (onNext_eq_next _ _ _).mp h
    injection h with h
    exact .inl (h ▸ ⟨rfl, undisturbed_other hI hturn hstep⟩)

/-! ### What the block holds (R76, R167) -/

/-- `q` differs from `r` in the operands of `on_glyph` and in what an accept or a completion sets. -/
def SameSetup (r q : Regs) : Prop :=
  q = { r with
    code := q.code, orgX := q.orgX, orgY := q.orgY, done := q.done, emitCount := q.emitCount, glyph := q.glyph }

theorem SameSetup.trans {a b c : Regs} (h : SameSetup a b) (k : SameSetup b c) : SameSetup a c := by
  rw [SameSetup] at h k ⊢
  rw [k, h]

/-- The latch of a call is made of the call and the set-up. -/
theorem SameSetup.callLatch_eq {r q : Regs} (h : SameSetup r q) (sink : Sink) (signedChar : Bool) (c : GlyphCall) :
    callLatch sink signedChar q c = callLatch sink signedChar r c := by
  rw [SameSetup] at h
  rw [h]
  rfl

/-- With the call's operands written, a DRAW command without the `.G` suffix loads the latch of the call (R76, R99). -/
theorem sampleLatch_eq_callLatch {sink : Sink} {signedChar : Bool} {c : GlyphCall} {s : State}
    (hcode : s.regs.code = charCode signedChar c.ch) (hx : s.regs.orgX = BitVec.ofInt 32 c.x)
    (hy : s.regs.orgY = BitVec.ofInt 32 c.y) :
    sampleLatch sink (lookupIntoGlyph s.regs.code (beginCommand s)).regs = callLatch sink signedChar s.regs c := by
  rw [callLatch, ← hcode, ← hx, ← hy]
  rfl

/-- The block after the DRAW commands of the calls `past` have been accepted, from the state `s`: its set-up is that of
`s`, and the histories will have grown by the outputs of those calls once the last command has completed. -/
structure Drawn (sink : Sink) (signedChar : Bool) (s : State) (past : List GlyphCall) (m : State) : Prop where
  inv : Inv m
  rst : m.rst = false
  setup : SameSetup s.regs m.regs
  stream : dueStream m = s.stream ++ past.flatMap fun c => drawEvents (callLatch sink signedChar s.regs c)
  writes : dueWrites m = s.fbLog ++ past.flatMap fun c => drawWrites (callLatch sink signedChar s.regs c)

section
variable {sink : Sink} {signedChar : Bool} {s : State} {past : List GlyphCall} {m : State}

theorem Drawn.undisturbed {t : State} (h : Drawn sink signedChar s past m) (hq : Undisturbed m t) :
    Drawn sink signedChar s past t where
  inv := hq.inv
  rst := hq.rst h.rst
  setup := by
    obtain ⟨done, n, hregs⟩ := hq.regs
    exact h.setup.trans (by rw [SameSetup, hregs])
  stream := hq.stream.trans h.stream
  writes := hq.writes.trans h.writes

/-- Writing an operand of `on_glyph`, or reading a register, leaves what is drawn. -/
theorem Drawn.operand (h : Drawn sink signedChar s past m) (r : Regs) (hr : SameSetup m.regs r)
    (hdone : r.done = m.regs.done) (hemit : r.emitCount = m.regs.emitCount) (a : Word) (e : Bool) :
    Drawn sink signedChar s past (respond a e { m with regs := r }) where
  inv := (h.inv.withRegs hemit fun hd => hdone ▸ hd).respond a e
  rst := h.rst
  setup := h.setup.trans hr
  stream := h.stream
  writes := h.writes

/-- The CMD write of a call whose operands stand is accepted by an idle block: the outputs of the call become due
(R99, R155, R206). -/
theorem Drawn.command {c : GlyphCall} (h : Drawn sink signedChar s past m) (hidle : m.seq = .idle)
    (hbase : sink = .rgb565 → s.regs.fbBase.getLsbD 0 = false)
    (hcode : m.regs.code = charCode signedChar c.ch) (hx : m.regs.orgX = BitVec.ofInt 32 c.x)
    (hy : m.regs.orgY = BitVec.ofInt 32 c.y) :
    Drawn sink signedChar s (past ++ [c]) (accessOfFields (asmCmd (.draw sink false)) m) := by
  have hpend := h.inv.pend_of_idle hidle
  have aligned : misaligned565 (.draw sink false) m = false := by
    cases sink with
    | cb => rfl
    | mono => rfl
    | rgb565 =>
      have hsame : m.regs.fbBase = s.regs.fbBase := by rw [h.setup]
      exact (congrArg (fun b : Word => b.getLsbD 0) hsame).trans (hbase rfl)
  have hinv := h.inv.accept hidle h.rst aligned
  have hlatch := (sampleLatch_eq_callLatch (sink := sink) hcode hx hy).trans (h.setup.callLatch_eq _ _ _)
  have haccess : accessOfFields (asmCmd (.draw sink false)) m
      = respond 0 false (startDraw sink (lookupIntoGlyph m.regs.code (beginCommand m))) := by
    rw [asmCmd, accessOfFields_asmWr _ _ h.rst]
    show respond 0 false (writeCmd _ m) = _
    rw [writeCmd_of_decode _ _ _ (decodeCommand_encode _), presentCommand_accept _ _ hidle aligned]
    rfl
  rw [haccess]
  refine ⟨hinv.respond 0 false, h.rst, h.setup.trans rfl, ?_, ?_⟩
  · refine (dueStream_startDraw sink (lookupIntoGlyph m.regs.code (beginCommand m))).trans ?_
    rw [hlatch, List.flatMap_append, ← List.append_assoc, ← h.stream, dueStream_of_idle hidle hpend,
      List.flatMap_singleton]
    rfl
  · refine (dueWrites_startDraw sink (lookupIntoGlyph m.regs.code (beginCommand m))).trans ?_
    rw [hlatch, List.flatMap_append, ← List.append_assoc, ← h.writes, dueWrites_of_idle hidle hpend,
      List.flatMap_singleton]
    rfl

end

/-! ### Where the program stands (R82, R168) -/

/-- The line of the driver's program, with the calls `todo` whose CMD write is not yet presented: before a call and on its
four writes the block is idle and the operands written so far stand in the registers; only on `wait_idle` may a command
run. -/
inductive AtLine (sink : Sink) (signedChar : Bool) (m : State) : List GlyphCall → HostProgram → Prop
  | code (todo : List GlyphCall) (idle : m.seq = .idle) :
      AtLine sink signedChar m todo (todo.flatMap (onGlyph sink signedChar))
  | column (c : GlyphCall) (todo : List GlyphCall) (idle : m.seq = .idle) (code : m.regs.code = charCode signedChar c.ch) :
      AtLine sink signedChar m (c :: todo) ((onGlyph sink signedChar c).drop 1 ++ todo.flatMap (onGlyph sink signedChar))
  | row (c : GlyphCall) (todo : List GlyphCall) (idle : m.seq = .idle) (code : m.regs.code = charCode signedChar c.ch)
      (x : m.regs.orgX = BitVec.ofInt 32 c.x) :
      AtLine sink signedChar m (c :: todo) ((onGlyph sink signedChar c).drop 2 ++ todo.flatMap (onGlyph sink signedChar))
  | command (c : GlyphCall) (todo : List GlyphCall) (idle : m.seq = .idle) (code : m.regs.code = charCode signedChar c.ch)
      (x : m.regs.orgX = BitVec.ofInt 32 c.x) (y : m.regs.orgY = BitVec.ofInt 32 c.y) :
      AtLine sink signedChar m (c :: todo) ((onGlyph sink signedChar c).drop 3 ++ todo.flatMap (onGlyph sink signedChar))
  | wait (todo : List GlyphCall) : AtLine sink signedChar m todo (.waitIdle :: todo.flatMap (onGlyph sink signedChar))

section
variable {sink : Sink} {signedChar : Bool} {s m : State} {past todo : List GlyphCall} {p : HostProgram}

theorem AtLine.undisturbed {t : State} (h : AtLine sink signedChar m todo p) (hq : Undisturbed m t) :
    AtLine sink signedChar t todo p := by
  obtain ⟨done, n, hregs⟩ := hq.regs
  cases h with
  | code todo idle => exact .code todo (hq.idle idle)
  | column c todo idle code => exact .column c todo (hq.idle idle) (by rw [hregs]; exact code)
  | row c todo idle code x => exact .row c todo (hq.idle idle) (by rw [hregs]; exact code) (by rw [hregs]; exact x)
  | command c todo idle code x y =>
    exact .command c todo (hq.idle idle) (by rw [hregs]; exact code) (by rw [hregs]; exact x) (by rw [hregs]; exact y)
  | wait todo => exact .wait todo

/-- The program has ended only where no call is left and its last wait has found the block idle. -/
theorem AtLine.ended (h : AtLine sink signedChar m todo p) (hp : p = []) : todo = [] ∧ m.seq = .idle := by
  cases h with
  | code todo idle =>
    cases todo with
    | nil => exact ⟨rfl, idle⟩
    | cons c rest => cases hp
  | column => cases hp
  | row => cases hp
  | command => cases hp
  | wait => cases hp

/-- The program's next access goes on to the next line, and a CMD write moves its call from those to come to those drawn
(R82, R167, R168). -/
theorem AtLine.access {x : HT} (hdrawn : Drawn sink signedChar s past m) (h : AtLine sink signedChar m todo p)
    (hbase : sink = .rgb565 → s.regs.fbBase.getLsbD 0 = false) (hx : nextTxn p = some x) :
    ∃ past' todo', past' ++ todo' = past ++ todo ∧ Drawn sink signedChar s past' (accessOfFields x m)
      ∧ AtLine sink signedChar (accessOfFields x m) todo' (advance (accessOfFields x m) p) := by
  have write (r : Reg) (d : Word) := accessOfFields_asmWr r d hdrawn.rst
  cases h with
  | code todo idle =>
    cases todo with
    | nil => cases hx
    | cons c rest =>
      obtain rfl := Option.some.inj hx
      rw [write]
      exact ⟨past, c :: rest, rfl, hdrawn.operand { m.regs with code := charCode signedChar c.ch } rfl rfl rfl 0 false,
        .column c rest idle rfl⟩
  | column c todo idle code =>
    obtain rfl := Option.some.inj hx
    rw [write]
    exact ⟨past, c :: todo, rfl, hdrawn.operand { m.regs with orgX := BitVec.ofInt 32 c.x } rfl rfl rfl 0 false,
        .row c todo idle code rfl⟩
  | row c todo idle code x =>
    obtain rfl := Option.some.inj hx
    rw [write]
    exact ⟨past, c :: todo, rfl, hdrawn.operand { m.regs with orgY := BitVec.ofInt 32 c.y } rfl rfl rfl 0 false,
        .command c todo idle code x rfl⟩
  | command c todo idle code x y =>
    obtain rfl := Option.some.inj hx
    exact ⟨past ++ [c], todo, (List.append_cons past c todo).symm, hdrawn.command idle hbase code x y, .wait todo⟩
  | wait todo =>
    obtain rfl := Option.some.inj hx
    have done_iff := waitIdleDone_status m (respond (statusWord m) false m) rfl
    rw [accessOfFields_asmWaitIdle hdrawn.rst]
    refine ⟨past, todo, rfl, hdrawn.operand m.regs rfl rfl rfl (statusWord m) false, ?_⟩
    rw [advance_waitIdle]
    split
    · next hdone => exact .code todo (done_iff.mp hdone)
    · exact .wait todo

end

/-! ### The run (R168, R206) -/

/-- The driver in the middle of a run from `s`: some of its calls are drawn, the others are to come. -/
def Driving (sink : Sink) (signedChar : Bool) (s : State) (calls : List GlyphCall) (d : Driven) : Prop :=
  ∃ past todo, past ++ todo = calls ∧ Drawn sink signedChar s past d.machine
    ∧ AtLine sink signedChar d.machine todo d.prog

section
variable {sink : Sink} {signedChar : Bool} {s : State} {calls : List GlyphCall}

theorem Driving.start (hI : Inv s) (hrst : s.rst = false) (hidle : s.seq = .idle) :
    Driving sink signedChar s calls ⟨calls.flatMap (onGlyph sink signedChar), s⟩ := by
  have hpend := hI.pend_of_idle hidle
  exact ⟨[], calls, rfl,
    { inv := hI
      rst := hrst
      setup := rfl
      stream := (dueStream_of_idle hidle hpend).trans (List.append_nil _).symm
      writes := (dueWrites_of_idle hidle hpend).trans (List.append_nil _).symm }, .code calls hidle⟩

theorem Driving.turn (hbase : sink = .rgb565 → s.regs.fbBase.getLsbD 0 = false) {turn : Turn} {d e : Driven}
    (h : Driving sink signedChar s calls d) (hturn : turn.servesDriver = true) (he : driverTurn turn d = .next e) :
    Driving sink signedChar s calls e := by
  obtain ⟨past, todo, hcalls, hdrawn, hline⟩ := h
  rcases driverTurn_cases hturn hdrawn.inv hdrawn.rst he with ⟨hprog, hq⟩ | ⟨x, hx, hprog, hq⟩
  · exact ⟨past, todo, hcalls, hdrawn.undisturbed hq, hprog ▸ hline.undisturbed hq⟩
  · obtain ⟨past', todo', hsplit, hdrawn', hline'⟩ := hline.access hdrawn hbase hx
    exact ⟨past', todo', hsplit.trans hcalls, hdrawn'.undisturbed hq, hprog ▸ hline'.undisturbed hq⟩

theorem Driving.drive (hbase : sink = .rgb565 → s.regs.fbBase.getLsbD 0 = false) {turns : List Turn} {d e : Driven}
    (h : Driving sink signedChar s calls d) (hturns : ∀ x, x ∈ turns → x.servesDriver = true)
    (he : drive turns d = .next e) : Driving sink signedChar s calls e := by
  induction turns generalizing d with
  | nil =>
    injection he with he
    exact he ▸ h
  | cons turn rest ih =>
    obtain ⟨hturn, hrest⟩ := List.forall_mem_cons.mp hturns
    obtain ⟨u, hu, he⟩ := (onNext_eq_next _ _ _).mp he
    exact ih (h.turn hbase hturn hu) hrest he

theorem Driving.setup {d : Driven} (h : Driving sink signedChar s calls d) : SameSetup s.regs d.machine.regs := by
  obtain ⟨_, _, -, hdrawn, -⟩ := h
  exact hdrawn.setup

/-- At the end of the program every call is drawn and the block is idle, so its histories are those that were due. -/
theorem Driving.ended {d : Driven} (h : Driving sink signedChar s calls d) (hd : d.prog = []) :
    d.machine.seq = .idle
      ∧ d.machine.stream = s.stream ++ calls.flatMap (fun c => drawEvents (callLatch sink signedChar s.regs c))
      ∧ d.machine.fbLog = s.fbLog ++ calls.flatMap (fun c => drawWrites (callLatch sink signedChar s.regs c)) := by
  obtain ⟨past, todo, rfl, hdrawn, hline⟩ := h
  obtain ⟨rfl, hidle⟩ := hline.ended hd
  have hpend := hdrawn.inv.pend_of_idle hidle
  rw [List.append_nil]
  exact ⟨hidle, (dueStream_of_idle hidle hpend).symm.trans hdrawn.stream,
    (dueWrites_of_idle hidle hpend).symm.trans hdrawn.writes⟩

end

/-! ### A schedule that ends a program (R211, R213) -/

/-- Some schedule that leaves the port to the driver ends its program. -/
def Ends (d : Driven) : Prop :=
  ∃ turns e, (∀ x, x ∈ turns → x.servesDriver = true) ∧ drive turns d = .next e ∧ e.prog = []

theorem Ends.turn {turn : Turn} {d e : Driven} (h : Ends e) (hturn : turn.servesDriver = true)
    (he : driverTurn turn d = .next e) : Ends d := by
  obtain ⟨turns, f, hturns, hdrive, hf⟩ := h
  exact ⟨turn :: turns, f, List.forall_mem_cons.mpr ⟨hturn, hturns⟩, by rw [drive, he, onNext_next, hdrive], hf⟩

/-- With nothing pending, the block's own step of a running command completes it or tests a bit (R131, R135). -/
theorem blockStep_progress {s : State} (hI : Inv s) (hs : s.seq = .expand) (hp : s.pend = false) :
    (blockStep s).seq = .idle ∨ 64 - (blockStep s).bidx.toNat < 64 - s.bidx.toNat := by
  by_cases hb : s.bidx = 64
  · rw [blockStep_of_completeEnabled ((completeEnabled_iff s).mpr ⟨hs, hp, hb⟩)]
    exact .inl rfl
  · have hlt : s.bidx.toNat < 64 :=
      lt_of_le_of_ne hI.bidxLe fun h => hb (BitVec.eq_of_toNat_eq h)
    rw [blockStep_of_bitEnabled ((bitEnabled_iff s).mpr ⟨hs, hp, hlt⟩)]
    obtain ⟨⟨p, x, f, e⟩, -, -⟩ := bitStep_output (hI.rowsh hs) hp
    have hsucc : (bitStep s).bidx.toNat = s.bidx.toNat + 1 := by rw [e]; exact bidx_succ s.bidx hlt
    exact .inr (by omega)

/-- A rising edge with both readies high brings a running command nearer to its completion (R213). -/
theorem freeClock_progress {s : State} (hI : Inv s) (hs : s.seq = .expand) :
    ∃ t, step (presentInput freeClock s) = .next t
      ∧ (t.seq = .idle ∨ 64 - t.bidx.toNat < 64 - s.bidx.toNat) := by
  obtain ⟨n, e, -⟩ := takeIfReady_of_served (served_of_ready (driveRst false s))
  have hp : (takeIfReady true true (driveRst false s)).pend = false := by rw [e]
  have hseq : (takeIfReady true true (driveRst false s)).seq = .expand := (take_seq _ _ _).trans hs
  have hprogress := blockStep_progress (hI.release.take true true) hseq hp
  rw [take_bidx] at hprogress
  exact ⟨_, step_freeClock (rest := s.inputs) rfl hs, hprogress⟩

/-- The read that finds the block idle ends `wait_idle` (R82). -/
theorem Ends.wait_of_idle {rest : HostProgram} {m : State} (hrst : m.rst = false) (hidle : m.seq = .idle)
    (h : Ends ⟨rest, respond (statusWord m) false m⟩) : Ends ⟨.waitIdle :: rest, m⟩ := by
  have hdone := (waitIdleDone_status m (respond (statusWord m) false m) rfl).mpr hidle
  refine h.turn (turn := .host) rfl ?_
  rw [driverTurn_host_next m rfl, accessOfFields_asmWaitIdle hrst, advance_waitIdle, if_pos hdone]

/-- A program gets past `wait_idle`: edges with both readies high complete the command first (R213). -/
theorem Ends.wait {rest : HostProgram} (hrest : ∀ m, Inv m → m.rst = false → Ends ⟨rest, m⟩) {m : State} (hI : Inv m)
    (hrst : m.rst = false) : Ends ⟨.waitIdle :: rest, m⟩ := by
  have ofIdle {m : State} (hI : Inv m) (hrst : m.rst = false) (hidle : m.seq = .idle) : Ends ⟨.waitIdle :: rest, m⟩ :=
    .wait_of_idle hrst hidle (hrest _ (hI.respond _ _) hrst)
  induction hn : 64 - m.bidx.toNat using Nat.strong_induction_on generalizing m with
  | _ n ih =>
    cases hs : m.seq with
    | idle => exact ofIdle hI hrst hs
    | expand =>
      obtain ⟨t, hstep, hprogress⟩ := freeClock_progress hI hs
      have hq := undisturbed_other hI rfl hstep
      have ht : Ends ⟨.waitIdle :: rest, t⟩ := by
        rcases hprogress with hidle | hless
        · exact ofIdle hq.inv (hq.rst hrst) hidle
        · exact ih _ (hn ▸ hless) hq.inv (hq.rst hrst) rfl
      exact ht.turn (turn := .other freeClock) rfl (by rw [driverTurn, hstep, onNext_next])

/-- Every host program ends from every state outside reset that meets the invariant. -/
theorem ends_of_inv (p : HostProgram) {m : State} (hI : Inv m) (hrst : m.rst = false) : Ends ⟨p, m⟩ := by
  induction p generalizing m with
  | nil => exact ⟨[], _, fun _ h => absurd h List.not_mem_nil, rfl, rfl⟩
  | cons line rest ih =>
    cases line with
    | send x =>
      exact (ih (hI.accessOfFields x) ((accessOfFields_rst x m).trans hrst)).turn rfl (driverTurn_host_next m rfl)
    | waitIdle => exact Ends.wait (fun m hI hrst => ih hI hrst) hI hrst

/-- Settles O60: every turn keeps `Driving`, whose set-up holds the error bits and whose end is `Driving.ended`; the
schedule that ends the program is that of `ends_of_inv`. -/
theorem layoutDriverWaitsForEachCommand : Obligations.LayoutDriverWaitsForEachCommand := by
  unfold Obligations.LayoutDriverWaitsForEachCommand
  intro sink signedChar text sx sy s hI hrst hidle herr heven
  refine ⟨fun turns d hturns hd => ?_, ends_of_inv _ hI hrst⟩
  have hbase (hk : sink = .rgb565) : s.regs.fbBase.getLsbD 0 = false := by simp [BitVec.getLsbD, heven hk]
  have hdriving := (Driving.start (sink := sink) (signedChar := signedChar) hI hrst hidle).drive hbase hturns hd
  have hsetup := hdriving.setup
  rw [SameSetup] at hsetup
  refine ⟨?_, ?_, ?_, hdriving.ended⟩ <;> rw [hsetup]
  exact herr

end Sys2Proof.Machine
end

section
/-! PROOFS. What the core answers: every instruction a next state, every step one but for the refused write of another
agent. -/

namespace Sys2Proof.Machine

/-- A write that targets the buffer of a running command: what the command is, and the byte that lies in its buffer
(R31, R52, R62). -/
theorem buffer_of_writeTargets {w : FbWrite} {s : State} (h : writeTargets w s = true) :
    s.seq = .expand ∧ s.latch.sink ≠ .cb ∧ 0 < s.latch.w.toInt ∧ 0 < s.latch.h.toInt
      ∧ ∃ a : Nat, w.covers a = true ∧ ((a + 2 ^ 32 - s.latch.base.toNat) % 2 ^ 32 : Int)
        < s.latch.w.toInt * s.latch.h.toInt * (if s.latch.sink = .mono then 1 else 2) := by
  obtain ⟨hs, a, hcov, hlt⟩ := (writeTargets_iff w s).mp h
  have hpos : 0 < bufferBytes s.latch := lt_of_le_of_lt (Int.emod_nonneg _ (by norm_num)) hlt
  obtain ⟨hk, hw, hh⟩ := of_bufferBytes_pos hpos
  exact ⟨hs, hk, hw, hh, a, hcov, bufferBytes_of_pos hk hw hh ▸ hlt⟩

/-- A step answers a next state, unless its input is another agent's write to the buffer of the running command, which
is refused (R62, R180). -/
theorem step_next_or_refused (s : State) :
    (∃ t, step s = .next t)
      ∨ ∃ w rest, s.inputs = .agentWrite w :: rest ∧ writeTargets w s = true
          ∧ step s = .refused .concurrentBufferWrite := by
  cases hin : s.inputs with
  | nil => exact .inl ⟨_, step_nil s hin⟩
  | cons i rest =>
    have hstep := step_cons s i rest hin
    cases i with
    | host t => exact .inl ⟨_, hstep.trans (hostTransaction_eq t _)⟩
    | clock p => exact .inl ⟨_, hstep.trans (clockEdge_eq p _)⟩
    | agentWrite w =>
      have hwrite := step_agentWrite hin
      split at hwrite
      · next htarget => exact .inr ⟨w, rest, rfl, htarget, hwrite⟩
      · exact .inl ⟨_, hwrite⟩
    | block => exact .inl ⟨_, hstep⟩
    | pxReady => exact .inl ⟨_, hstep⟩
    | fbReady => exact .inl ⟨_, hstep⟩
    | rst level => exact .inl ⟨_, hstep⟩
    | agentRead a size => exact .inl ⟨_, hstep⟩

/-- Settles O12: `exec_cases` for the instructions; for the steps `step_next_or_refused`, with the buffer of the refused
write by `buffer_of_writeTargets`. -/
theorem blockIsTotal : Obligations.BlockIsTotal := by
  unfold Obligations.BlockIsTotal
  refine ⟨fun i s => ?_, fun s => ?_⟩
  · rcases exec_cases i s with ⟨c, -, e⟩ | ⟨w, off, d, e⟩
    · exact ⟨_, e⟩
    · exact ⟨_, e⟩
  · rcases step_next_or_refused s with hnext | ⟨w, rest, hin, htarget, hrefused⟩
    · exact .inl hnext
    · obtain ⟨hs, hk, hw, hh, hbyte⟩ := buffer_of_writeTargets htarget
      exact .inr ⟨hrefused, hs, hk, w, rest, hin, hw, hh, hbyte⟩

end Sys2Proof.Machine
end

section
/-! PROOFS. The STATUS error bits: each refusal of a CMD write sets its one bit, and a bit stays set until the host clears
it or reset. -/

namespace Sys2Proof.Machine

/-! ### An error bit by its cause (R181) -/

/-- The STATUS error bit of a cause (R181). -/
def Regs.err (g : Regs) (e : ErrCause) : Bool :=
  match e with
  | .cmd => g.errCmd
  | .busy => g.errBusy
  | .align => g.errAlign

/-- The place of a cause's bit in the STATUS word (R92). -/
def statusBit (e : ErrCause) : Nat :=
  match e with
  | .cmd => 2
  | .busy => 3
  | .align => 4

/-- Raising an error sets the bit of its cause and leaves the two others (R18). -/
theorem raise_err (c e : ErrCause) (s : State) : (raise c s).regs.err e = (decide (c = e) || s.regs.err e) := by
  cases c <;> cases e <;> rfl

/-- A STATUS write clears a cause's bit exactly where it writes a 1 to it (R97). -/
theorem clearStatus_err (d : Word) (e : ErrCause) (s : State) :
    (clearStatus d s).regs.err e = (s.regs.err e && !d.getLsbD (statusBit e)) := by
  cases e <;> rfl

/-- A second error of the same cause changes nothing (R182). -/
theorem raise_of_err {e : ErrCause} {s : State} (h : s.regs.err e = true) : raise e s = s := by
  cases e <;> rw [Regs.err] at h <;> rw [raise, ← h]

/-! ### What keeps an error bit (R182) -/

/-- An accept leaves the error bits (R99). -/
theorem accept_err (c : Command) (e : ErrCause) (s : State) : (accept c s).regs.err e = s.regs.err e := by
  rcases accept_cases c s with ⟨-, h⟩ | ⟨-, h⟩ | ⟨k, -, h⟩ | ⟨k, -, h⟩ <;> rw [h] <;> cases e <;> rfl

/-- A CMD write clears no error bit: it raises an error or is accepted (R99). -/
theorem writeCmd_err {e : ErrCause} {s : State} (d : Word) (h : s.regs.err e = true) :
    (writeCmd d s).regs.err e = true := by
  have raised (c : ErrCause) : (raise c s).regs.err e = true := by rw [raise_err, h, Bool.or_true]
  rcases writeCmd_cases d s with ⟨-, hw⟩ | ⟨-, -, hw⟩ | ⟨-, c, -, -, hw⟩ | ⟨-, c, -, -, hw⟩ <;> rw [hw]
  · exact raised .busy
  · exact raised .cmd
  · exact raised .align
  · rw [accept_err, h]

/-- Of the word writes only one to STATUS with a 1 in it clears an error bit (R95 to R99). -/
theorem writeNamed_err {e : ErrCause} {s : State} (r : Reg) (d : Word) (h : s.regs.err e = true) :
    (writeNamed r d s).regs.err e = true ∨ (r = .status ∧ d.getLsbD (statusBit e) = true) := by
  cases r with
  | cmd => exact .inl (writeCmd_err d h)
  | status =>
    cases hd : d.getLsbD (statusBit e) with
    | true => exact .inr ⟨rfl, rfl⟩
    | false => exact .inl (by rw [writeNamed, clearStatus_err, h, hd]; rfl)
  | _ => exact .inl h

/-- Of the host accesses only a word write to STATUS with a 1 in it clears an error bit (R91, R97). -/
theorem hostAccess_err {e : ErrCause} {s : State} (w : Bool) (sz : BitVec 2) (off : BitVec 7) (d : Word)
    (h : s.regs.err e = true) :
    (hostAccess w sz off d s).regs.err e = true
      ∨ (w = true ∧ sz = 2 ∧ off = 0x08 ∧ d.getLsbD (statusBit e) = true) := by
  rcases hostAccess_write_cases w sz off d s with ⟨a, err, ha⟩ | ⟨-, hw, hsz, r, hoff, ha⟩ <;> rw [ha, respond_regs]
  · exact .inl h
  · refine (writeNamed_err r d h).imp_right ?_
    rintro ⟨rfl, hd⟩
    exact ⟨hw, hsz, hoff, hd⟩

/-- Outside reset a step leaves an error bit set, unless it presents a word write to STATUS with a 1 in it: of the parts of
a step (`step_regs`) only its host access writes an error bit. -/
theorem step_err {e : ErrCause} {s t : State} (h : step s = .next t) (hr : headResets s = false)
    (he : s.regs.err e = true) :
    t.regs.err e = true
      ∨ ∃ x, headTxn s = some x ∧ htW x = true ∧ htSz x = 2 ∧ htOff x = 0x08
          ∧ (htData x).getLsbD (statusBit e) = true := by
  obtain ⟨u, v, hu, haccess, done, n, ht⟩ := step_regs h hr
  have htv : t.regs.err e = v.regs.err e := by rw [ht]; cases e <;> rfl
  have hue : u.regs.err e = true := by rw [hu, he]
  rw [htv]
  rcases haccess with ⟨rfl, -⟩ | ⟨x, hx, rfl⟩
  · exact .inl hue
  · exact (hostAccess_err _ _ _ _ hue).imp_right fun hclear => ⟨x, hx, hclear⟩

/-- Settles O49: `raise_of_err` and `step_err`, at the three causes. -/
theorem errorBitsAreSticky : Obligations.ErrorBitsAreSticky := by
  unfold Obligations.ErrorBitsAreSticky
  exact ⟨fun s => ⟨raise_of_err (e := .cmd), raise_of_err (e := .busy), raise_of_err (e := .align)⟩,
    fun s t h hr => ⟨step_err (e := .cmd) h hr, step_err (e := .busy) h hr, step_err (e := .align) h hr⟩⟩

/-! ### The refusals of a CMD write (R183) -/

/-- A word write to CMD of a busy block is discarded whatever its word (R99). -/
theorem exec_wr_cmd_busy (w : Word) {s : State} (hrst : s.rst = false) (hs : s.seq ≠ .idle) :
    exec (.wr cmdOffset w) s = .next (respond 0 false (raise .busy s)) := by
  rw [exec_wr_cmd w s hrst, writeCmd_busy w s hs]

/-- An illegal word written to CMD of an idle block sets ERR_CMD (R77, R99). -/
theorem exec_wr_cmd_illegal {w : Word} {why : Reject} {s : State} (hrst : s.rst = false) (hidle : s.seq = .idle)
    (hw : decodeCommand w = .rejected why) :
    exec (.wr cmdOffset w) s = .next (respond 0 false (raise .cmd s)) := by
  rw [exec_wr_cmd w s hrst, writeCmd_illegal w why s hidle hw]

/-- Either word of DRAW_565 written to CMD of an idle block with an odd base sets ERR_ALIGN (R155). -/
theorem exec_wr_cmd_odd (g : Bool) {s : State} (hrst : s.rst = false) (hidle : s.seq = .idle)
    (hodd : s.regs.fbBase.toNat % 2 = 1) :
    exec (.wr cmdOffset (encodeCommand (.draw .rgb565 g))) s = .next (respond 0 false (raise .align s)) :=
  (cmdWriteOfALegalWordIsTheCommand _ _ s (decodeCommand_encode _)).trans (exec_draw565_of_odd g hrst hidle hodd)

/-- Settles O19: one lemma for each check of a word, and `busErrorsChangeNothing` for the size check before them. -/
theorem cmdChecksRunInOrder : Obligations.CmdChecksRunInOrder := by
  unfold Obligations.CmdChecksRunInOrder
  refine ⟨fun s w hrst hs => exec_wr_cmd_busy w hrst hs, fun s w why hrst hidle hw => exec_wr_cmd_illegal hrst hidle hw,
    fun s w hrst hidle hw hodd => ?_, fun s sz w rest hrst hsz hin => ?_⟩
  · rcases hw with rfl | rfl
    · exact exec_wr_cmd_odd false hrst hidle hodd
    · exact exec_wr_cmd_odd true hrst hidle hodd
  · obtain ⟨step_busError, -⟩ := busErrorsChangeNothing
    exact step_busError s _ rest hrst hin (.inl (by rwa [htSz_packHt]))

end Sys2Proof.Machine
end

section
/-! PROOFS. The interrupt output, and the order of the events of one clock edge. -/

namespace Sys2Proof.Machine

/-! ### The interrupt output (R184, R185, R187) -/

/-- Settles O51: the expression of R184, bit by bit. -/
theorem irqIsTheLevelOfEnabledStatus : Obligations.IrqIsTheLevelOfEnabledStatus := by
  unfold Obligations.IrqIsTheLevelOfEnabledStatus
  intro s
  simp only [State.irq, State.ieDone, State.ieErr, State.anyError, Bool.and_eq_true, Bool.or_eq_true,
    Bool.not_eq_true', or_assoc]

/-- With no sticky STATUS bit set the interrupt is low (R184). -/
theorem irq_of_no_status {s : State} (hdone : s.regs.done = false) (herr : s.anyError = false) : s.irq = false := by
  rw [State.irq, hdone, herr]
  simp

/-- With both enables 0 the interrupt is low, whatever is pending (R184, R187). -/
theorem irq_of_masked {s : State} (hdone : s.ieDone = false) (herr : s.ieErr = false) : s.irq = false := by
  rw [State.irq, hdone, herr]
  simp

/-- The word 0x1E clears every sticky STATUS bit (R97). -/
theorem clearStatus_all (s : State) :
    (clearStatus 0x1E s).regs.done = false ∧ (clearStatus 0x1E s).anyError = false := by
  simp [State.anyError]

/-- A CTRL write sets the two enables to its two low bits (R23, R95). -/
theorem writeCtrl_enables (d : Word) (s : State) :
    (writeNamed .ctrl d s).regs.ctrl.getLsbD 0 = d.getLsbD 0
      ∧ (writeNamed .ctrl d s).regs.ctrl.getLsbD 1 = d.getLsbD 1 := by
  simp [writeNamed]

/-- Settles O52: the completion of NOP is `nopCompletesAtOnce`, the two writes are `exec_wr_named`; the level each leaves
follows from R184. -/
theorem interruptsAreRaisedMaskedAndCleared : Obligations.InterruptsAreRaisedMaskedAndCleared := by
  unfold Obligations.InterruptsAreRaisedMaskedAndCleared
  refine ⟨fun s hrst hidle hie => ?_, fun s hrst => ?_, fun s d hrst => ?_⟩
  · obtain ⟨completes, -, -⟩ := nopCompletesAtOnce
    exact ⟨_, completes s hrst hidle, (irqIsTheLevelOfEnabledStatus _).mpr ⟨hrst, .inl ⟨hie, rfl⟩⟩⟩
  · obtain ⟨hdone, herr⟩ := clearStatus_all s
    exact ⟨_, exec_wr_named .status 0x1E s hrst, irq_of_no_status hdone herr, rfl⟩
  · obtain ⟨hieDone, hieErr⟩ := writeCtrl_enables d s
    exact ⟨_, exec_wr_named .ctrl d s hrst, rfl, rfl, rfl, rfl,
      fun hd hdone => (irqIsTheLevelOfEnabledStatus _).mpr ⟨hrst, .inl ⟨hieDone.trans hd, hdone⟩⟩,
      fun hd herr => (irqIsTheLevelOfEnabledStatus _).mpr ⟨hrst, .inr ⟨hieErr.trans hd, .inl herr⟩⟩,
      fun hd0 hd1 => irq_of_masked (hieDone.trans hd0) (hieErr.trans hd1)⟩

/-! ### The access of an edge comes first (R90, R188) -/

/-- The state to which the block's part of an edge is applied, where a CMD write of that edge has found BUSY: ERR_BUSY is
set, the answer is 0 (R99). -/
def cmdWriteDiscarded (rest : List Input) (s : State) : State :=
  respond 0 false (raise .busy (driveRst false (nextInputs rest s)))

/-- A rising edge outside reset at which the host writes CMD while a command runs: ERR_BUSY first, then the block's part
(R99, R188). -/
theorem step_clock_cmdWrite_busy {s : State} {w : Word} {px fb : Bool} {rest : List Input}
    (hin : s.inputs = .clock { rst := false, txn := some (commandHt w), pxReady := px, fbReady := fb } :: rest)
    (hs : s.seq = .expand) : step s = .next (blockEdge true px fb (cmdWriteDiscarded rest s)) := by
  have haccess : accessOfFields (commandHt w) (driveRst false (nextInputs rest s))
      = respond 0 false (writeCmd w (driveRst false (nextInputs rest s))) := accessOfFields_asmWr .cmd w rfl
  rw [step_clock hin, (busy_iff s).mpr hs, Option.elim_some, haccess, writeCmd_busy _ _ (by simp [hs])]
  rfl

/-- A word read of the assembler, outside reset (R80, R91). -/
theorem accessOfFields_asmRd (r : Reg) {s : State} (h : s.rst = false) :
    accessOfFields (asmRd r) s = respond (readNamed r s) false s := by
  rw [← hostAccess_eq_accessOfFields, asmRd, htW_packHt, htSz_packHt, htOff_packHt, htData_packHt]
  exact Host.Outcome.next.inj (exec_rd_named r s h)

/-- A rising edge outside reset at which the host reads a register while a command runs: the read first, then the block's
part (R92, R188). -/
theorem step_clock_read {s : State} {r : Reg} {px fb : Bool} {rest : List Input}
    (hin : s.inputs = .clock { rst := false, txn := some (asmRd r), pxReady := px, fbReady := fb } :: rest)
    (hs : s.seq = .expand) :
    step s = .next (blockEdge true px fb
      (respond (readNamed r (driveRst false (nextInputs rest s))) false (driveRst false (nextInputs rest s)))) := by
  rw [step_clock hin, (busy_iff s).mpr hs, Option.elim_some, accessOfFields_asmRd r rfl]

/-! ### The block's part of the edge (R134, R135, R213) -/

/-- An edge with all 64 bits tested and the last output, if any, taken: the take and then the completion (R135, R213). -/
theorem blockEdge_eq_completeStep {px fb : Bool} {s : State} (hs : s.seq = .expand) (hb : s.bidx = 64)
    (h : s.pend = false ∨ sinkReady px fb s = true) :
    blockEdge true px fb s = completeStep (takeIfReady px fb s) :=
  blockStep_of_completeEnabled <| (completeEnabled_iff _).mpr
    ⟨(take_seq px fb s).trans hs, takeIfReady_pend h, (take_bidx px fb s).trans hb⟩

/-- With nothing pending a ready changes nothing (R15, R16). -/
theorem takeIfReady_of_not_pend (px fb : Bool) {s : State} (h : s.pend = false) : takeIfReady px fb s = s :=
  if_neg (by simp [h])

/-- With its ready a pending output is taken: it is counted, and only the histories and memory change besides (R134). -/
theorem takeIfReady_of_ready {px fb : Bool} {s : State} (hp : s.pend = true) (hr : sinkReady px fb s = true) :
    ∃ m events writes, takeIfReady px fb s = { countTake s with mem := m, stream := events, fbLog := writes } := by
  have htake : takeIfReady px fb s = takeStep s := if_pos (by rw [hp, hr]; rfl)
  rw [htake]
  rcases takeStep_cases s with ⟨-, e⟩ | ⟨-, e⟩ <;> exact ⟨_, _, _, e⟩

/-- The block's own step keeps the response of the edge's access (R14). -/
theorem blockStep_response (s : State) : (blockStep s).hRdata = s.hRdata ∧ (blockStep s).hErr = s.hErr := by
  rcases blockStep_cases s with ⟨-, e⟩ | ⟨-, -, e⟩ | ⟨-, -, e⟩ <;> rw [e]
  · rcases bitStep_cases s with ⟨-, -, e⟩ | ⟨-, e⟩ <;> rw [e]
    · obtain ⟨x, f, e⟩ := offer_eq s.row s.col (shiftBit s)
      rw [e]
      exact ⟨rfl, rfl⟩
    · exact ⟨rfl, rfl⟩
  · exact ⟨rfl, rfl⟩
  · exact ⟨rfl, rfl⟩

/-- A CMD write at the edge of the completion is discarded, and then the last output is taken and the command completes
(R188). -/
theorem step_clock_cmdWrite_completes {s : State} {w : Word} {px fb : Bool} {rest : List Input}
    (hin : s.inputs = .clock { rst := false, txn := some (commandHt w), pxReady := px, fbReady := fb } :: rest)
    (hs : s.seq = .expand) (hb : s.bidx = 64) (h : s.pend = false ∨ sinkReady px fb s = true) :
    step s = .next (completeStep (takeIfReady px fb (cmdWriteDiscarded rest s))) :=
  (step_clock_cmdWrite_busy hin hs).trans
    (congrArg Host.Outcome.next (blockEdge_eq_completeStep (s := cmdWriteDiscarded rest s) hs hb h))

/-- An edge with a take counts it, and keeps the response of its access whatever the block's own step is (R134, R188). -/
theorem blockEdge_of_ready {px fb : Bool} {s : State} (hp : s.pend = true) (hr : sinkReady px fb s = true) :
    (blockEdge true px fb s).regs.emitCount = s.regs.emitCount + 1
      ∧ (blockEdge true px fb s).hRdata = s.hRdata ∧ (blockEdge true px fb s).hErr = s.hErr := by
  obtain ⟨m, events, writes, htake⟩ := takeIfReady_of_ready hp hr
  have hedge : blockEdge true px fb s = blockStep (takeIfReady px fb s) := rfl
  obtain ⟨done, hregs, -⟩ := block_regs (takeIfReady px fb s)
  obtain ⟨hrdata, herr⟩ := blockStep_response (takeIfReady px fb s)
  rw [hedge, hregs, hrdata, herr, htake]
  exact ⟨rfl, rfl, rfl⟩

/-- Settles O53: `step_clock_cmdWrite_completes` without and with a take; a read comes before the take of its edge
(`step_clock_read`, `blockEdge_of_ready`). -/
theorem sameCycleEventsAreOrdered : Obligations.SameCycleEventsAreOrdered := by
  unfold Obligations.SameCycleEventsAreOrdered
  refine ⟨fun s w px fb rest hin hs hp hb => ?_, fun s w px fb rest hin hs hp hr hb => ?_,
    fun s px fb rest hin hs hp hr => ?_⟩
  · rw [step_clock_cmdWrite_completes hin hs hb (.inl hp),
      takeIfReady_of_not_pend px fb (s := cmdWriteDiscarded rest s) hp]
    rfl
  · obtain ⟨m, events, writes, htake⟩ := takeIfReady_of_ready (s := cmdWriteDiscarded rest s) hp hr
    rw [step_clock_cmdWrite_completes hin hs hb (.inr hr), htake]
    exact ⟨_, rfl, rfl, rfl, rfl, rfl, rfl⟩
  · obtain ⟨hemit, hrdata, herr⟩ := blockEdge_of_ready
      (s := respond (readNamed .emitCount s) false (driveRst false (nextInputs rest s))) hp hr
    refine ⟨_, step_clock_read (r := .emitCount) hin hs, ?_, herr, hemit⟩
    exact (congrArg BitVec.toNat hrdata).trans (BitVec.toNat_setWidth_of_le (by decide))

end Sys2Proof.Machine
end

section
/-! PROOFS. How a running command ends: in finite time under TAKE_LIVENESS, in 65 edges less its BIDX where every offer is
taken at once, and never where its offer is not taken. -/

namespace Sys2Proof.Machine

/-! ### The turn of an input, in parts (R90, R134, R213) -/

/-- `u` is where `s` is in the same running command, with the same offer, if any. -/
structure SameExpansion (s u : State) : Prop where
  seq : u.seq = s.seq
  bidx : u.bidx = s.bidx
  pend : u.pend = s.pend
  latch : u.latch = s.latch
  px : u.px = s.px
  fb : u.fb = s.fb

theorem SameExpansion.refl (s : State) : SameExpansion s s := ⟨rfl, rfl, rfl, rfl, rfl, rfl⟩

theorem SameExpansion.trans {s u t : State} (h : SameExpansion s u) (k : SameExpansion u t) : SameExpansion s t where
  seq := k.seq.trans h.seq
  bidx := k.bidx.trans h.bidx
  pend := k.pend.trans h.pend
  latch := k.latch.trans h.latch
  px := k.px.trans h.px
  fb := k.fb.trans h.fb

/-- Releasing the reset pin (R204). -/
theorem SameExpansion.release (s : State) : SameExpansion s (driveRst false s) := ⟨rfl, rfl, rfl, rfl, rfl, rfl⟩

/-- Any host access while a command runs (R99, R101). -/
theorem HostBusy.sameExpansion {s u : State} (h : HostBusy s u) : SameExpansion s u :=
  ⟨h.seq, h.bidx, h.pend, h.latch, h.px, h.fb⟩

theorem SameExpansion.sinkReady_eq {s u : State} (h : SameExpansion s u) (px fb : Bool) :
    sinkReady px fb u = sinkReady px fb s := by
  rw [sinkReady, sinkReady, h.latch]

/-- An input in its parts: something that leaves the running command where it is, then a take where the input raises the
ready, then the block's own step where the input is a turn of the block. -/
def TurnParts (i : Input) (s t : State) : Prop :=
  ∃ u px fb, Inv u ∧ SameExpansion s u ∧ sinkReady px fb s = i.readies s
    ∧ t = if i.movesBlock then blockStep (takeIfReady px fb u) else takeIfReady px fb u

/-- With no ready raised nothing is ready. -/
theorem sinkReady_none (s : State) : sinkReady false false s = false := by
  unfold sinkReady
  cases s.latch.sink <;> rfl

theorem takeIfReady_none (s : State) : takeIfReady false false s = s := takeIfReady_of_not_ready (sinkReady_none s)

/-- An input that raises no ready and is no turn of the block. -/
theorem TurnParts.of_quiet {i : Input} {s t : State} (hready : i.readies s = false) (hturn : i.movesBlock = false)
    (ht : Inv t) (h : SameExpansion s t) : TurnParts i s t :=
  ⟨t, false, false, ht, h, (sinkReady_none s).trans hready.symm, by
    rw [hturn, if_neg Bool.false_ne_true, takeIfReady_none]⟩

/-- A rising edge outside reset is a turn of the block, with the readies of its pins. -/
theorem TurnParts.of_clockEdge {p : Pins} {s t : State} (hI : Inv s) (hs : s.seq = .expand) (hp : p.rst = false)
    (h : clockEdge p s = .next t) : TurnParts (.clock p) s t := by
  rw [clockEdge_eq, hp, (busy_iff s).mpr hs] at h
  have hmoves : (Input.clock p).movesBlock = true := by rw [Input.movesBlock, hp]; rfl
  unfold TurnParts
  rw [hmoves]
  cases hx : p.txn with
  | none =>
    rw [hx] at h
    exact ⟨_, p.pxReady, p.fbReady, hI.release, .release s, rfl, (Host.Outcome.next.inj h).symm⟩
  | some x =>
    rw [hx] at h
    have kept := (hostBusy (htW x) (htSz x) (htOff x) (htData x) (driveRst false s) hs).sameExpansion
    exact ⟨_, p.pxReady, p.fbReady, hI.release.hostAccess _ _ _ _, (SameExpansion.release s).trans kept, rfl,
      (Host.Outcome.next.inj h).symm⟩

/-- Every input outside reset to a running command, in its parts. -/
theorem turnParts_of_step {i : Input} {s t : State} (hI : Inv s) (hs : s.seq = .expand) (hi : i.resets = false)
    (h : step (presentInput i s) = .next t) : TurnParts i s t := by
  rw [step_presentInput] at h
  cases i with
  | host x =>
    have he := Host.Outcome.next.inj ((hostTransaction_eq x s).symm.trans h)
    exact he ▸ .of_quiet rfl rfl (hI.hostAccess _ _ _ _) (hostBusy _ _ _ _ s hs).sameExpansion
  | block =>
    refine ⟨s, false, false, hI, .refl s, sinkReady_none s, ?_⟩
    rw [takeIfReady_none]
    exact (Host.Outcome.next.inj h).symm
  | pxReady => exact ⟨s, true, false, hI, .refl s, rfl, (Host.Outcome.next.inj h).symm⟩
  | fbReady => exact ⟨s, false, true, hI, .refl s, rfl, (Host.Outcome.next.inj h).symm⟩
  | rst level =>
    cases level with
    | true => cases hi
    | false => exact Host.Outcome.next.inj h ▸ .of_quiet rfl rfl hI.release (.release s)
  | clock p => exact .of_clockEdge hI hs hi h
  | agentWrite w =>
    have h : agentWrite w s = .next t := h
    unfold agentWrite at h
    split at h
    · cases h
    · exact Host.Outcome.next.inj h ▸ .of_quiet rfl rfl (hI.agentWrite w) ⟨rfl, rfl, rfl, rfl, rfl, rfl⟩
  | agentRead a size =>
    exact Host.Outcome.next.inj h ▸ .of_quiet rfl rfl (hI.agentRead a size) ⟨rfl, rfl, rfl, rfl, rfl, rfl⟩

/-- While the ready of its offer stays low a running command stays where it is, at the block's own turns too (R134). -/
theorem TurnParts.held {i : Input} {s t : State} (h : TurnParts i s t) (hp : s.pend = true)
    (hready : i.readies s = false) : Inv t ∧ SameExpansion s t := by
  obtain ⟨u, px, fb, hu, same, hr, ht⟩ := h
  have hnone : takeIfReady px fb u = u :=
    takeIfReady_of_not_ready ((same.sinkReady_eq px fb).trans (hr.trans hready))
  rw [hnone, block_pend u (same.pend.trans hp), ite_self] at ht
  exact ht ▸ ⟨hu, same⟩

/-! ### What a running command has still to do (R131, R134) -/

/-- Twice the bits not yet tested, and one for a pending output: testing a bit may add an output, but takes two away. -/
def workLeft (s : State) : Nat := 2 * (64 - s.bidx.toNat) + s.pend.toNat

theorem SameExpansion.workLeft_eq {s u : State} (h : SameExpansion s u) : workLeft u = workLeft s := by
  rw [workLeft, workLeft, h.bidx, h.pend]

/-- A take uses up the pending output. -/
theorem workLeft_take_of_ready {px fb : Bool} {s : State} (hp : s.pend = true) (hr : sinkReady px fb s = true) :
    workLeft (takeIfReady px fb s) < workLeft s := by
  rw [workLeft, workLeft, take_bidx, takeIfReady_pend (.inr hr), hp]
  exact Nat.lt_succ_self _

theorem workLeft_take_le (px fb : Bool) (s : State) : workLeft (takeIfReady px fb s) ≤ workLeft s := by
  rcases takeIfReady_cases px fb s with ⟨hp, hr, -⟩ | ⟨-, e⟩
  · exact (workLeft_take_of_ready hp hr).le
  · rw [e]

/-- With nothing pending the block's own step tests a bit, unless it completes the command. -/
theorem workLeft_blockStep_lt {s : State} (hI : Inv s) (hs : s.seq = .expand) (hp : s.pend = false)
    (ht : (blockStep s).seq = .expand) : workLeft (blockStep s) < workLeft s := by
  have hless := (blockStep_progress hI hs hp).resolve_left (by simp [ht])
  have hpend := Bool.toNat_le (blockStep s).pend
  rw [workLeft, workLeft]
  omega

theorem workLeft_blockStep_le {s : State} (hI : Inv s) (hs : s.seq = .expand) (ht : (blockStep s).seq = .expand) :
    workLeft (blockStep s) ≤ workLeft s := by
  cases hp : s.pend with
  | true => rw [block_pend s hp]
  | false => exact (workLeft_blockStep_lt hI hs hp ht).le

/-- An input that leaves the command running never adds to its work, and a take, or a turn of the block with nothing
pending, takes some of it away. -/
theorem TurnParts.less_work {i : Input} {s t : State} (h : TurnParts i s t) (hs : s.seq = .expand)
    (ht : t.seq = .expand) :
    workLeft t ≤ workLeft s
      ∧ (i.takes s = true ∨ s.pend = false ∧ i.movesBlock = true → workLeft t < workLeft s) := by
  obtain ⟨u, px, fb, hu, same, hr, e⟩ := h
  have hwork := same.workLeft_eq
  have hseq : (takeIfReady px fb u).seq = .expand := (take_seq px fb u).trans (same.seq.trans hs)
  have htake := workLeft_take_le px fb u
  have hafter : workLeft t ≤ workLeft (takeIfReady px fb u) := by
    cases hm : i.movesBlock <;> rw [hm] at e <;> subst e
    · exact le_refl _
    · exact workLeft_blockStep_le (hu.take px fb) hseq ht
  refine ⟨by omega, fun hmove => ?_⟩
  rcases hmove with htakes | ⟨hp, hm⟩
  · obtain ⟨hp, hready⟩ : s.pend = true ∧ i.readies s = true := by simpa [Input.takes] using htakes
    have hless := workLeft_take_of_ready (same.pend.trans hp) ((same.sinkReady_eq px fb).trans (hr.trans hready))
    omega
  · have hp : (takeIfReady px fb u).pend = false := takeIfReady_pend (.inl (same.pend.trans hp))
    rw [hm] at e
    subst e
    have hless := workLeft_blockStep_lt (hu.take px fb) hseq hp ht
    exact hless.trans_le (htake.trans_eq hwork)

/-! ### Runs against an environment (R9, R211) -/

/-- `x` is the endless run against an environment in which every step answers a next state. -/
def RunsAs (env : Environment) (s : State) (x : Nat → State) : Prop := ∀ n, envRun env n s = .next (x n)

theorem Inv.presentInput {s : State} (h : Inv s) (i : Input) : Inv (presentInput i s) := { h with }

/-- A run that answers a next state went through one before its last input. -/
theorem envRun_succ_cases {env : Environment} {n : Nat} {s t : State} (h : envRun env (n + 1) s = .next t) :
    ∃ u, envRun env n s = .next u ∧ step (presentInput (env n) u) = .next t := (onNext_eq_next _ _ _).mp h

/-- While the ready of its offer stays low, the command of a run without reset stays where it is (R134, R211). -/
theorem envRun_held {env : Environment} {s : State} (hI : Inv s) (hp : s.pend = true)
    (hreset : ∀ n, (env n).resets = false) (hready : ∀ n u, envRun env n s = .next u → (env n).readies u = false)
    {n : Nat} {t : State} (h : envRun env n s = .next t) : Inv t ∧ SameExpansion s t := by
  induction n generalizing t with
  | zero => exact Host.Outcome.next.inj h ▸ ⟨hI, .refl s⟩
  | succ n ih =>
    obtain ⟨u, hu, hstep⟩ := envRun_succ_cases h
    obtain ⟨hIu, same⟩ := ih hu
    have hpu : u.pend = true := same.pend.trans hp
    obtain ⟨hIt, kept⟩ :=
      (turnParts_of_step hIu (hIu.pendBusy hpu) (hreset n) hstep).held hpu (hready n u hu)
    exact ⟨hIt, same.trans kept⟩

section
variable {env : Environment} {s : State} {x : Nat → State}

theorem RunsAs.zero (h : RunsAs env s x) : x 0 = s := (Host.Outcome.next.inj (h 0)).symm

theorem RunsAs.eq {n : Nat} {u : State} (h : RunsAs env s x) (hu : envRun env n s = .next u) : x n = u :=
  Host.Outcome.next.inj ((h n).symm.trans hu)

theorem RunsAs.step (h : RunsAs env s x) (n : Nat) : step (presentInput (env n) (x n)) = .next (x (n + 1)) := by
  obtain ⟨u, hu, hstep⟩ := envRun_succ_cases (h (n + 1))
  rwa [h.eq hu]

theorem RunsAs.inv (h : RunsAs env s x) (hI : Inv s) (n : Nat) : Inv (x n) := by
  induction n with
  | zero => exact h.zero ▸ hI
  | succ n ih => exact everyStepKeepsInv _ _ (ih.presentInput (env n)) (h.step n)

/-- The latch of a command that runs all the way is that of its start (R101). -/
theorem RunsAs.latch (h : RunsAs env s x) (hreset : ∀ n, (env n).resets = false) {n : Nat}
    (hrun : ∀ m, m < n → (x m).seq = .expand) : (x n).latch = s.latch := by
  induction n with
  | zero => rw [h.zero]
  | succ n ih =>
    exact (step_latch_of_expand (s := presentInput (env n) (x n)) (hrun n n.lt_succ_self) (hreset n) (h.step n)).trans
      (ih fun m hm => hrun m (hm.trans n.lt_succ_self))

/-- As long as a command runs without reset, its work never grows (R131, R134). -/
theorem RunsAs.workLeft_antitone (h : RunsAs env s x) (hI : Inv s) (hreset : ∀ n, (env n).resets = false)
    (hrun : ∀ n, (x n).seq = .expand) : Antitone fun n => workLeft (x n) :=
  antitone_nat_of_succ_le fun n =>
    ((turnParts_of_step (h.inv hI n) (hrun n) (hreset n) (h.step n)).less_work (hrun n) (hrun (n + 1))).1

/-- With TAKE_LIVENESS and the block's turns going on, no state of a command that runs for ever has the least work: a
pending output is taken later, and with nothing pending a turn of the block comes. -/
theorem RunsAs.exists_less_work (h : RunsAs env s x) (hI : Inv s) (hreset : ∀ n, (env n).resets = false)
    (hblock : BlockKeepsMoving env) (htakes : TakeLiveness env s) (hrun : ∀ n, (x n).seq = .expand) (n : Nat) :
    ∃ m, workLeft (x m) < workLeft (x n) := by
  have hle := h.workLeft_antitone hI hreset hrun
  have less (m : Nat) (hnm : n ≤ m)
      (hmove : (env m).takes (x m) = true ∨ (x m).pend = false ∧ (env m).movesBlock = true) :
      ∃ m, workLeft (x m) < workLeft (x n) := by
    have hparts := turnParts_of_step (h.inv hI m) (hrun m) (hreset m) (h.step m)
    exact ⟨m + 1, ((hparts.less_work (hrun m) (hrun (m + 1))).2 hmove).trans_le (hle hnm)⟩
  have lessOfPend (k : Nat) (hnk : n ≤ k) (hp : (x k).pend = true) : ∃ m, workLeft (x m) < workLeft (x n) := by
    obtain ⟨m, v, hkm, hv, htake | hres⟩ := htakes k (x k) (h k) hp
    · exact less m (hnk.trans hkm) (.inl (h.eq hv ▸ htake))
    · exact absurd ((hreset m).symm.trans hres) Bool.false_ne_true
  obtain ⟨m, hnm, hm⟩ := hblock n
  cases hp : (x m).pend with
  | true => exact lessOfPend m hnm hp
  | false => exact less m hnm (.inr ⟨hp, hm⟩)

/-- So the command ends (R211). -/
theorem RunsAs.exists_idle (h : RunsAs env s x) (hI : Inv s) (hreset : ∀ n, (env n).resets = false)
    (hblock : BlockKeepsMoving env) (htakes : TakeLiveness env s) : ∃ n, (x n).seq = .idle := by
  by_contra hne
  have hrun (n : Nat) : (x n).seq = .expand := by
    cases hs : (x n).seq with
    | idle => exact absurd ⟨n, hs⟩ hne
    | expand => rfl
  obtain ⟨m, hm⟩ := h.exists_less_work hI hreset hblock htakes hrun (Function.argmin fun n => workLeft (x n))
  exact Function.not_lt_argmin (fun n => workLeft (x n)) m hm

/-- The first idle state of the run is the one its completion leaves (R135). -/
theorem RunsAs.first_idle (h : RunsAs env s x) (hs : s.seq = .expand) (hreset : ∀ n, (env n).resets = false)
    {n : Nat} (hidle : (x n).seq = .idle) (hrun : ∀ m, m < n → (x m).seq = .expand) :
    (x n).regs.done = true ∧ (x n).pend = false := by
  cases n with
  | zero => simp [h.zero, hs] at hidle
  | succ n =>
    obtain ⟨w, hp, -, e⟩ := step_completes (s := presentInput (env n) (x n)) (hrun n n.lt_succ_self) (hreset n)
      (h.step n) hidle
    rw [e]
    exact ⟨rfl, hp⟩

end

/-- Settles O39: a run that never ended would hold a state with the least work left, which `RunsAs.exists_less_work`
excludes; its first idle state is a completion. `envRun_held` for the offer that is never taken. -/
theorem takeLivenessMakesDrawsComplete : Obligations.TakeLivenessMakesDrawsComplete := by
  unfold Obligations.TakeLivenessMakesDrawsComplete
  refine ⟨fun env s hI hs hreset hnext hblock htakes => ?_, fun env s hI hp hreset hready n t h => ?_⟩
  · choose x hx using hnext
    have hx : RunsAs env s x := hx
    have hends := hx.exists_idle hI hreset hblock htakes
    have hrun (m : Nat) (hm : m < Nat.find hends) : (x m).seq = .expand := by
      have hnot := Nat.find_min hends hm
      cases hs : (x m).seq with
      | idle => exact absurd hs hnot
      | expand => rfl
    have hidle := Nat.find_spec hends
    obtain ⟨hdone, hpend⟩ := hx.first_idle hs hreset hidle hrun
    exact ⟨Nat.find hends, _, hx _, hidle, hdone, hpend, hx.latch hreset hrun, (hx.inv hI _).emitLe,
      fun m u hm hu => hx.eq hu ▸ hrun m hm⟩
  · obtain ⟨hIt, same⟩ := envRun_held hI hp hreset hready h
    have hpend := same.pend.trans hp
    have hseq := hIt.pendBusy hpend
    exact ⟨hseq, hpend, hIt.doneIdle hseq, same.px, same.fb, same.bidx⟩

/-! ### A command whose offers are all taken, from wherever it stands (R211, R213) -/

theorem edgeTake_pend (rest : List Input) (s : State) : (edgeTake rest s).pend = false :=
  takeIfReady_pend (served_of_ready _)

theorem edgeTake_bidx (rest : List Input) (s : State) : (edgeTake rest s).bidx = s.bidx := take_bidx _ _ _

/-- An edge with both readies high, before the last bit: one more bit is tested (R213). -/
theorem step_freeClock_bit {s : State} {rest : List Input} (hI : Inv s) (hs : s.seq = .expand)
    (hin : s.inputs = freeClock :: rest) (hb : s.bidx.toNat < 64) :
    ∃ t, step s = .next t ∧ Inv t ∧ t.seq = .expand ∧ t.bidx.toNat = s.bidx.toNat + 1 ∧ t.inputs = rest := by
  have hseq : (edgeTake rest s).seq = .expand := (edgeTake_seq rest s).trans hs
  have hbit : (edgeTake rest s).bitEnabled = true :=
    (bitEnabled_iff _).mpr ⟨hseq, edgeTake_pend rest s, by rwa [edgeTake_bidx]⟩
  have hIe : Inv (edgeTake rest s) := (hI.nextInputs rest).release.take true true
  obtain ⟨⟨p, x, f, e⟩, -, -⟩ := bitStep_output (hIe.rowsh hseq) (edgeTake_pend rest s)
  refine ⟨_, (step_freeClock hin hs).trans (congrArg _ (blockStep_of_bitEnabled hbit)), hIe.bitStep hbit,
    (bitStep_seq _).trans hseq, ?_, ?_⟩ <;> rw [e]
  · show ((edgeTake rest s).bidx + 1).toNat = _
    rw [edgeTake_bidx, bidx_succ s.bidx hb]
  · exact edgeTake_inputs rest s

/-- Such an edge with all bits tested completes the command (R135, R213). -/
theorem step_freeClock_completes {s : State} {rest : List Input} (hs : s.seq = .expand)
    (hin : s.inputs = freeClock :: rest) (hb : s.bidx = 64) :
    step s = .next (completeStep (edgeTake rest s)) := by
  have hcomplete : (edgeTake rest s).completeEnabled = true :=
    (completeEnabled_iff _).mpr ⟨(edgeTake_seq rest s).trans hs, edgeTake_pend rest s, (edgeTake_bidx rest s).trans hb⟩
  rw [step_freeClock hin hs, blockStep_of_completeEnabled hcomplete]

/-- With `n` bits left to test, `n + 1` edges with both readies high complete a running command. -/
theorem run_freeClock_of_bits_left {n : Nat} {s : State} (hI : Inv s) (hs : s.seq = .expand)
    (hn : s.bidx.toNat + n = 64) {rest : List Input} (hin : s.inputs = List.replicate (n + 1) freeClock ++ rest) :
    ∃ v, runSteps (n + 1) s = .next (completeStep v) ∧ v.pend = false ∧ v.inputs = rest := by
  induction n generalizing s with
  | zero =>
    have hstep := step_freeClock_completes (rest := rest) hs hin (BitVec.eq_of_toNat_eq hn)
    exact ⟨_, run_succ 0 s _ hstep, edgeTake_pend rest s, edgeTake_inputs rest s⟩
  | succ n ih =>
    obtain ⟨t, hstep, hIt, hseq, hbidx, hrest⟩ := step_freeClock_bit hI hs hin (by omega)
    rw [run_succ (n + 1) s t hstep]
    exact ih hIt hseq (by omega) hrest

/-- An edge that presents nothing, at which the ready of the pending offer is low, uses up its input and no more (R134). -/
theorem step_clock_held {s : State} {px fb : Bool} {rest : List Input} (hI : Inv s) (hp : s.pend = true)
    (hin : s.inputs = .clock { rst := false, txn := none, pxReady := px, fbReady := fb } :: rest)
    (hr : sinkReady px fb s = false) : step s = .next (nextInputs rest s) := by
  have hs := hI.pendBusy hp
  have hrst : s.rst = false := by
    cases h : s.rst with
    | false => rfl
    | true => simp [hI.rstIdle h] at hs
  have hrelease : driveRst false (nextInputs rest s) = nextInputs rest s := by
    rw [driveRst_false, ← hrst]
    rfl
  have hnone : takeIfReady px fb (nextInputs rest s) = nextInputs rest s :=
    takeIfReady_of_not_ready (s := nextInputs rest s) hr
  rw [step_clock hin, (busy_iff s).mpr hs, Option.elim_none, hrelease, blockEdge, if_pos rfl, hnone,
    block_pend (nextInputs rest s) hp]

/-- Settles O38: `run_freeClock_of_bits_left` for the served command, `step_clock_held` for the stalled edge. -/
theorem servedCommandsCompleteAndStalledOnesHold : Obligations.ServedCommandsCompleteAndStalledOnesHold := by
  unfold Obligations.ServedCommandsCompleteAndStalledOnesHold
  refine ⟨fun s rest hI hs => ?_, fun s px fb rest hin hI hp hr => step_clock_held hI hp hin hr⟩
  have hle := hI.bidxLe
  rw [show 65 - s.bidx.toNat = (64 - s.bidx.toNat) + 1 by omega]
  obtain ⟨v, hrun, hpend, hv⟩ := run_freeClock_of_bits_left
    (hI.nextInputs (List.replicate (64 - s.bidx.toNat + 1) freeClock ++ rest)) hs (Nat.add_sub_of_le hle) rfl
  exact ⟨_, hrun, rfl, rfl, hpend, hv⟩

end Sys2Proof.Machine
end

section
/-! PROOFS. What a reset edge delivers and leaves, and host transactions while `rst` is 1. -/

namespace Sys2Proof.Machine

/-! ### Reset edges (R200, R201) -/

/-- A reset edge, as its own input or in a clock edge, answers the reset, after a take where the ready is raised. -/
theorem step_of_resets {s : State} {i : Input} {rest : List Input} (hin : s.inputs = i :: rest) (hi : i.resets = true) :
    ∃ px fb, sinkReady px fb s = i.readies s ∧ step s = .next (resetClock px fb (nextInputs rest s)) := by
  have hstep := step_cons s i rest hin
  cases i with
  | rst level =>
    have hlevel : level = true := hi
    subst hlevel
    exact ⟨false, false, sinkReady_none s, hstep.trans (by rw [resetClock_idle]; rfl)⟩
  | clock p =>
    have hp : p.rst = true := hi
    exact ⟨p.pxReady, p.fbReady, rfl, hstep.trans ((clockEdge_eq p _).trans (by rw [if_pos hp]))⟩
  | _ => cases hi

/-- An offer whose ready is low is withdrawn, and nothing is delivered (R201). -/
theorem resetClock_of_not_taken {px fb : Bool} {s : State} (h : s.pend = false ∨ sinkReady px fb s = false) :
    resetClock px fb s = resetEdge s := by
  rcases resetClock_cases px fb s with ⟨hp, hr, -⟩ | ⟨hp, hr, -⟩ | ⟨-, e⟩
  · simp [hp, hr] at h
  · simp [hp, hr] at h
  · exact e

/-- An offered event whose ready is high joins the stream history (R15). -/
theorem resetClock_of_taken_event {px fb : Bool} {s : State} (hp : s.pend = true) (hr : sinkReady px fb s = true)
    (hk : s.latch.sink = .cb) : resetClock px fb s = resetEdge { s with stream := s.stream ++ [s.px] } := by
  rcases resetClock_cases px fb s with ⟨-, -, -, e⟩ | ⟨-, -, hk', -⟩ | ⟨h, -⟩
  · exact e
  · exact absurd hk hk'
  · simp [hp, hr] at h

/-- An offered write whose ready is high is performed and recorded (R16, R53). -/
theorem resetClock_of_taken_write {px fb : Bool} {s : State} (hp : s.pend = true) (hr : sinkReady px fb s = true)
    (hk : s.latch.sink ≠ .cb) :
    resetClock px fb s = resetEdge { s with mem := memWrite s.fb s.mem, fbLog := s.fbLog ++ [s.fb] } := by
  rcases resetClock_cases px fb s with ⟨-, -, hk', -⟩ | ⟨-, -, -, e⟩ | ⟨h, -⟩
  · exact absurd hk' hk
  · exact e
  · simp [hp, hr] at h

/-- Settles O2: what the edge delivers by the three `resetClock_of_…`; every element of the block is then as `resetEdge`
writes it out. -/
theorem resetEdgeAbortsAndKeepsWhatWasTaken : Obligations.ResetEdgeAbortsAndKeepsWhatWasTaken := by
  unfold Obligations.ResetEdgeAbortsAndKeepsWhatWasTaken
  refine ⟨fun s i rest hin hi => ?_, fun s rest hin => step_cons s _ rest hin⟩
  obtain ⟨px, fb, hready, hstep⟩ := step_of_resets hin (by simpa [headResets, hin] using hi)
  refine ⟨_, hstep, fun h => ?_, fun hp hr hk => ?_, fun hp hr hk => ?_, rfl, rfl, rfl, rfl, rfl, rfl, rfl, rfl, rfl, rfl,
    rfl, rfl, rfl, resetClock_inputs px fb _, resetClock_agentData px fb _, resetClock_freeCount px fb _⟩
  · rw [resetClock_of_not_taken (s := nextInputs rest s) (hready ▸ h)]
    exact ⟨rfl, rfl, rfl⟩
  · rw [resetClock_of_taken_event (s := nextInputs rest s) hp (hready.trans hr) hk]
    exact ⟨rfl, rfl, rfl⟩
  · rw [resetClock_of_taken_write (s := nextInputs rest s) hp (hready.trans hr) hk]
    exact ⟨rfl, rfl, rfl⟩

/-! ### Host transactions in reset (R202) -/

/-- A host access while the reset pin is 1 (R202). -/
theorem hostAccess_of_rst {s : State} (h : s.rst = true) (w : Bool) (sz : BitVec 2) (off : BitVec 7) (d : Word) :
    hostAccess w sz off d s = respond 0 false s := if_pos h

/-- A rising edge with `rst` = 1 does not look at the transaction presented at it (R202). -/
theorem step_clock_of_rst {s : State} {txn : Option HT} {px fb : Bool} {rest : List Input}
    (hin : s.inputs = .clock { rst := true, txn := txn, pxReady := px, fbReady := fb } :: rest) :
    step s = .next (resetClock px fb (nextInputs rest s)) := step_cons s _ rest hin

/-- Settles O3: `hostAccess_of_rst` for a transaction by itself, `step_clock_of_rst` for one at an edge. -/
theorem hostTransactionsHaveNoEffectInReset : Obligations.HostTransactionsHaveNoEffectInReset := by
  unfold Obligations.HostTransactionsHaveNoEffectInReset
  refine ⟨fun s t rest hin hrst => ?_, fun s t px fb rest hin => ?_⟩
  · exact (step_host hin).trans <| (hostTransaction_eq t _).trans <|
      congrArg _ (hostAccess_of_rst (s := nextInputs rest s) hrst _ _ _ _)
  · have hstep := step_clock_of_rst hin
    have hsame := step_clock_of_rst
      (s := { s with inputs := .clock { rst := true, txn := none, pxReady := px, fbReady := fb } :: rest }) rfl
    exact ⟨hstep.trans hsame.symm, _, hstep, rfl, rfl⟩

end Sys2Proof.Machine
end
